-- ==== Sys2Proof/Word.lean ====
section
/-! DEFINITION. The bit-vector types of UDPCE: the byte of the packet buffer, the 16-bit quantity of a
header field, a port or a checksum, and the 32-bit register and command word (00_scope.md R10, R11;
10_state.md R22, R23). Byte-order helpers stand in Machine/Operands.lean. -/

namespace Sys2Proof

/-- One byte of `MEM`, a handler id, or a byte of an address. -/
abbrev Byte := BitVec 8

/-- A 16-bit number: a port, a header field, a checksum (00_scope.md R8 `PORT_W`; 10_state.md R23). -/
abbrev Half := BitVec 16

/-- A 32-bit register or command word (10_state.md R22; 30_encoding.md R95). -/
abbrev Word := BitVec 32

end Sys2Proof
end

