-- ==== Sys2Proof/Config.lean ====
section
/-! DEFINITION. The implementation parameters of 00_scope.md R8, and what the host's bus does with an access of
another width than its window's. The spec leaves them open ("the model
takes the parameters of the table below as arguments of its configuration"), so they are a record that
the machine carries in `State.cfg` and that no step writes; a statement over all states is a statement
over all parameters (log entry 1, DESIGN CHOICE: where the record stands).

The sizes NWL fixes are no parameters and stand as numerals: 8 = `UDP_HDR_SIZE`, 12 = `PSEUDO_SIZE`,
4 = `ADDR_SIZE`, 16 = `PORT_W`, and the spec's own 8 = `HANDLER_W`. -/

namespace Sys2Proof

/-- The open parameters of 00_scope.md R8. Their constraints (R9) are `Params.Valid`. -/
structure Params where
  /-- `IP_HDR_SIZE`: bytes of "one IP header's worth of space". -/
  ipHdrSize : Nat
  /-- `PROTO_ID`: the protocol identifier; R9's `0 <= PROTO_ID <= 255` is the width of the type. -/
  protoId : Byte
  /-- `UNREACH_REASON`: the "port unreachable" reason code, a number passed through. -/
  unreachReason : Nat
  /-- `BUF_CAP`: bytes of the buffer memory `MEM`. -/
  bufCap : Nat
  /-- `BUF_HEADROOM`: `dp` after reset and after BUFINIT. -/
  bufHeadroom : Nat
  /-- `PT_CAP`: greatest number of entries of the port table. -/
  ptCap : Nat
  deriving DecidableEq, Repr

/-- The default of every parameter in the table of 00_scope.md R8, the value every vector of
95_test_vectors.md uses. -/
def Params.default : Params :=
  { ipHdrSize := 20, protoId := 0x11#8, unreachReason := 3, bufCap := 2048, bufHeadroom := 64, ptCap := 16 }

/-! ### The lanes of the host's bus

Which lanes carry which bits is a property of the bus, outside the spec (10_state.md R23; 91_not_in_source.md N7:
"Do not assume: ... any byte-lane mapping of registers onto a bus"). What an access of another width than its
window's delivers is therefore a free value, a function of the access and of what stands there
(log entry 7, DESIGN CHOICE). -/

/-- The word that a byte write of `b` at the offset `off` leaves for the register there, which holds `old`. -/
opaque Config.registerAfterByteWrite (off : Nat) (old : Word) (b : Byte) : Word

/-- The byte that a byte read at the offset `off` returns of the register there, which reads as `v`. -/
opaque Config.byteOfRegister (off : Nat) (v : Word) : Byte

/-- The byte that a 32-bit write of `v` at index `i` of the buffer window leaves at index `i + j`, which holds
`old`. -/
opaque Config.bufferByteAfterWordWrite (i j : Nat) (v : Word) (old : Byte) : Byte

/-- The word that a 32-bit read at index `i` of the buffer window returns, of the bytes that stand there. -/
opaque Config.wordOfBuffer (i : Nat) (bytes : List Byte) : Word

end Sys2Proof
end

