-- ==== Sys2Proof/Syntax.lean ====
section
/-! DEFINITION. The command set of UDPCE: the fourteen commands of 30_encoding.md R100, one constructor
each, in the order of the opcode map. Operand fields have the widths of 30_encoding.md R95 and R99
(`imm16` 16 bits, `hid` 8 bits), so no term of the type has a field too wide for its encoding. -/

namespace Sys2Proof

/-- One command of UDPCE with the fields of its command word. -/
inductive Instr where
  /-- NOP, opcode 0x0, format Z (40_control_and_buffer_ops.md R121). -/
  | nop
  /-- CSUM, opcode 0x1, format Z (42_checksum.md R156). -/
  | csum
  /-- OPEN port, hid; opcode 0x2, format O (43_port_registry.md R171). -/
  | openPort (port : Half) (hid : Byte)
  /-- CLOSE port; opcode 0x3, format N (43_port_registry.md R172). -/
  | closePort (port : Half)
  /-- LOOKUP port; opcode 0x4, format N (43_port_registry.md R173). -/
  | lookup (port : Half)
  /-- RX, opcode 0x5, format Z (44_ingress.md R181). -/
  | rx
  /-- TX, opcode 0x6, format Z (45_egress.md R201). -/
  | tx
  /-- BUFINIT n; opcode 0x7, format N (40_control_and_buffer_ops.md R122). -/
  | bufinit (n : Half)
  /-- PUSH n; opcode 0x8, format N (40_control_and_buffer_ops.md R123). -/
  | push (n : Half)
  /-- POP n; opcode 0x9, format N (40_control_and_buffer_ops.md R124). -/
  | pop (n : Half)
  /-- PADD n; opcode 0xA, format N (40_control_and_buffer_ops.md R125). -/
  | padd (n : Half)
  /-- PADR n; opcode 0xB, format N (40_control_and_buffer_ops.md R126). -/
  | padr (n : Half)
  /-- HDRRD, opcode 0xC, format Z (41_header_ops.md R141). -/
  | hdrrd
  /-- HDRWR, opcode 0xD, format Z (41_header_ops.md R142). -/
  | hdrwr
  deriving DecidableEq, Repr

end Sys2Proof
end

