-- ==== Sys2Proof/WellFormed.lean ====
section
/-! DEFINITION. What is well formed: a configuration (00_scope.md R9) and a command word (30_encoding.md
R101, by the masks of used bits). The decoder of Decode.lean is written from the fields of R95 to R98
instead, so that the two can be held against each other. Terms of `Instr` need no check of their own:
the widths of their fields are in their types; `Instr.WellFormed` in Decode.lean says that the word a
term stands for is a legal one. -/

namespace Sys2Proof

/-- The constraints of 00_scope.md R9; "a configuration that breaks one is not a configuration of this
hardware". -/
abbrev Params.Valid (p : Params) : Prop :=
  12 ≤ p.ipHdrSize ∧ 8 + p.ipHdrSize ≤ p.bufHeadroom ∧ p.bufHeadroom ≤ p.bufCap ∧ p.bufCap ≤ 65535 ∧
    1 ≤ p.ptCap ∧ p.ptCap ≤ 65536

/-- The bits a command word with this opcode may use: 0x0000000F for format Z, 0xFFFF000F for N,
0xFFFFFF0F for O, and none for the reserved opcodes 0xE and 0xF (30_encoding.md R100, R101, R103). -/
def usedBits (op : BitVec 4) : Option Word :=
  match op.toNat with
  | 0x0 | 0x1 | 0x5 | 0x6 | 0xC | 0xD => some 0x0000000F#32
  | 0x3 | 0x4 | 0x7 | 0x8 | 0x9 | 0xA | 0xB => some 0xFFFF000F#32
  | 0x2 => some 0xFFFFFF0F#32
  | _ => none

/-- A command word is legal when its opcode is not reserved and it sets no bit its format does not use
(30_encoding.md R101). -/
def legalWord (w : Word) : Bool :=
  match usedBits (w.extractLsb' 0 4) with
  | none => false
  | some used => w &&& ~~~used == 0#32

end Sys2Proof
end

