-- ==== Sys2Proof/Decode.lean ====
section
/-! DEFINITION. Decoding and encoding of the command word (30_encoding.md R95 to R104). `decode` is total
on 32-bit words and names the ground on which it refuses one; `encode` is written from the same table. A
command is one word written to `CMD`, never bytes of `MEM` (20_memory.md R72), so the decoder takes a
word. -/

namespace Sys2Proof

/-- Why a command word is illegal (30_encoding.md R101). -/
inductive Illegal where
  /-- The opcode is 0xE or 0xF (R103). -/
  | reservedOpcode
  /-- A bit outside the fields of the command's format is not 0 (R95, R101). -/
  | unusedBits
  deriving DecidableEq, Repr

/-- What the decoder makes of a word: a command, or illegal on a named ground. -/
inductive Decoded where
  | command (i : Instr)
  | illegal (why : Illegal)
  deriving DecidableEq, Repr

/-- The opcode `op`, bits [3:0] (30_encoding.md R95). -/
def opField (w : Word) : BitVec 4 := w.extractLsb' 0 4

/-- The field `hid`, bits [15:8], as it stands (30_encoding.md R99). -/
def hidField (w : Word) : Byte := w.extractLsb' 8 8

/-- The field `imm16`, bits [31:16], as it stands (30_encoding.md R99). -/
def immField (w : Word) : Half := w.extractLsb' 16 16

/-- Format Z: every bit above the opcode is 0 (30_encoding.md R96). -/
def decodeZ (w : Word) (i : Instr) : Decoded :=
  if w.extractLsb' 4 28 = 0#28 then .command i else .illegal .unusedBits

/-- Format N: `imm16` in [31:16], bits [15:4] are 0 (30_encoding.md R97). -/
def decodeN (w : Word) (mk : Half → Instr) : Decoded :=
  if w.extractLsb' 4 12 = 0#12 then .command (mk (immField w)) else .illegal .unusedBits

/-- Format O: `imm16` in [31:16], `hid` in [15:8], bits [7:4] are 0 (30_encoding.md R98). -/
def decodeO (w : Word) (mk : Half → Byte → Instr) : Decoded :=
  if w.extractLsb' 4 4 = 0#4 then .command (mk (immField w) (hidField w)) else .illegal .unusedBits

/-- The decoder: the opcode map of 30_encoding.md R100 under the procedure of R101. -/
def decode (w : Word) : Decoded :=
  match (opField w).toNat with
  | 0x0 => decodeZ w .nop
  | 0x1 => decodeZ w .csum
  | 0x2 => decodeO w .openPort
  | 0x3 => decodeN w .closePort
  | 0x4 => decodeN w .lookup
  | 0x5 => decodeZ w .rx
  | 0x6 => decodeZ w .tx
  | 0x7 => decodeN w .bufinit
  | 0x8 => decodeN w .push
  | 0x9 => decodeN w .pop
  | 0xA => decodeN w .padd
  | 0xB => decodeN w .padr
  | 0xC => decodeZ w .hdrrd
  | 0xD => decodeZ w .hdrwr
  | _ => .illegal .reservedOpcode

/-- Format Z: the word is `zext_32(op)` (30_encoding.md R96). -/
def encodeZ (op : BitVec 4) : Word := op.setWidth 32

/-- Format N: the word `imm16, 0x00, 0x0, op` from the top bit down (30_encoding.md R97). -/
def encodeN (op : BitVec 4) (imm : Half) : Word := imm ++ 0x00#8 ++ 0x0#4 ++ op

/-- Format O: the word `imm16, hid, 0x0, op` from the top bit down (30_encoding.md R98). -/
def encodeO (op : BitVec 4) (imm : Half) (hid : Byte) : Word := imm ++ hid ++ 0x0#4 ++ op

/-- The command word of a command (30_encoding.md R95 to R100). -/
def encode : Instr → Word
  | .nop => encodeZ 0x0#4
  | .csum => encodeZ 0x1#4
  | .openPort port hid => encodeO 0x2#4 port hid
  | .closePort port => encodeN 0x3#4 port
  | .lookup port => encodeN 0x4#4 port
  | .rx => encodeZ 0x5#4
  | .tx => encodeZ 0x6#4
  | .bufinit n => encodeN 0x7#4 n
  | .push n => encodeN 0x8#4 n
  | .pop n => encodeN 0x9#4 n
  | .padd n => encodeN 0xA#4 n
  | .padr n => encodeN 0xB#4 n
  | .hdrrd => encodeZ 0xC#4
  | .hdrwr => encodeZ 0xD#4

/-- A command is well formed when the word it stands for is legal by the masks of 30_encoding.md R101. -/
abbrev Instr.WellFormed (i : Instr) : Prop := legalWord (encode i) = true

/-- The 32-bit command word whose bits [nbits-1:0] are those of `w` and whose other bits are 0. -/
def tableWord (nbits w : Nat) : Word := BitVec.ofNat 32 (w % 2 ^ nbits)

/-- The command the decoder reads from a row of spec/opcode_table.json: bit 0 is the least significant
bit of the one command word. -/
def decodeTableWord (nbits w : Nat) : Option Instr :=
  match decode (tableWord nbits w) with
  | .command i => some i
  | .illegal _ => none

end Sys2Proof
end

