-- ==== Sys2Proof/Machine/State.lean ====
section
/-! DEFINITION. The state of UDPCE as plain data (10_state.md R20), the reasons a step can stop, and the
state after reset (10_state.md R45; 70_reset_and_hazards.md R250 to R253).

Three fields are the model's own and not the spec's state: `cfg`, the parameters (log entry 1); `host`,
the host actions still to come; and `replies`, what the host's reads returned (log entry 3). -/

namespace Sys2Proof.Machine

/-- The outcome codes of 60_exceptions.md R220. Codes 9 to 15 are never written and have no constructor. -/
inductive OutcomeCode where
  /-- 0: value after reset; no command has completed. -/
  | oNone
  /-- 1: the command did what its rule says. -/
  | oOk
  /-- 2: RX, `len < 8`. -/
  | oDropShort
  /-- 3: RX, the recomputed checksum differs from the stored one. -/
  | oDropCsum
  /-- 4: RX, no handler for the destination port. -/
  | oUnreachable
  /-- 5: RX, handed to a handler. -/
  | oDelivered
  /-- 6: TX, handed to the network layer. -/
  | oSent
  /-- 7: OPEN, the table is full. -/
  | oOpenFail
  /-- 8: the command faulted; the fault code says why. -/
  | oFault
  deriving DecidableEq, Repr

/-- The fault codes of 60_exceptions.md R226. Codes 4 to 15 are never written and have no constructor.
These are values of `STATUS.FAULT`; the machine goes on after them (R234). -/
inductive FaultCode where
  /-- 0: the command did not fault. -/
  | fNone
  /-- 1: the command word is illegal (R227). -/
  | fIllegal
  /-- 2: headroom, tailroom or length is missing (R228). -/
  | fRoom
  /-- 3: the packet is shorter than a header (R229). -/
  | fShort
  deriving DecidableEq, Repr

/-- A record handed to a collaborator, with copies of its fields (10_state.md R40). -/
inductive Event where
  /-- `EV_DELIVER` (10_state.md R41). -/
  | deliver (handler : Byte) (payload : List Byte) (length : Nat) (srcAddr : List Byte) (srcPort : Half)
  /-- `EV_UNREACH` (10_state.md R42). -/
  | unreach (packet : List Byte) (srcAddr : List Byte) (reason : Nat)
  /-- `EV_NETSEND` (10_state.md R43). -/
  | netsend (packet : List Byte) (dstAddr : List Byte) (protocol : Byte)
  deriving DecidableEq, Repr

/-- The seventeen registers of 10_state.md R22, in the order of their offsets. -/
inductive Reg where
  | cmd | status | localAddr | csSrc | csDst | csum | rxRemote | txDaddr | txSport | txDport
  | hSport | hDport | hLen | hCsum | bufDp | bufLen | lkResult
  deriving DecidableEq, Repr

/-- What an offset of the device's range is (20_memory.md R60, R67). -/
inductive Target where
  /-- A listed register. -/
  | register (r : Reg)
  /-- An offset of the register window that names no register. -/
  | registerHole
  /-- Byte `i` of the buffer window. -/
  | bufferByte (i : Nat)
  /-- Any other offset. -/
  | unmapped
  deriving DecidableEq, Repr

/-- `MEM`: the listed bytes in rising order of index, none equal to what an unlisted index reads as;
`Memory.wf` in Machine/Ops.lean is the form. -/
abbrev Memory := List Host.Cell

/-- The port table `PT` (10_state.md R36): (port, handler id) in rising order of port, so that equal maps
are equal data; `PortTable.wf` in Machine/Ops.lean is the form. -/
abbrev PortTable := List Host.Cell

/-- What the host does to the block (70_reset_and_hazards.md R250, R267, R271; 30_encoding.md R107).
Offsets are those of the device's range (20_memory.md R67). Log entries 3, 7, 8 and 10. -/
inductive HostAction where
  /-- Write a 32-bit value at an offset (`WR`); at offset 0 it writes a command word to `CMD`. -/
  | writeWord (off : Nat) (v : Word)
  /-- Read 32 bits at an offset (`RD`). -/
  | readWord (off : Nat)
  /-- Write one byte at an offset (`WB`). -/
  | writeByte (off : Nat) (b : Byte)
  /-- Read one byte at an offset (`RB`). -/
  | readByte (off : Nat)
  /-- Write one byte through the buffer window at the index `BUF_DP + k`, with the value of `BUF_DP` when the action
  is taken (`WB dp+k`, `WB dp-k`). -/
  | writeByteDp (k : Int) (b : Byte)
  /-- Read one byte through the buffer window at the index `BUF_DP + k`, with the value of `BUF_DP` when the action
  is taken (`RB dp+k`, `RB dp-k`). -/
  | readByteDp (k : Int)
  /-- Reset while the engine is idle; what `ACC` and `SAVE` hold afterwards is a free input (R45). -/
  | reset (acc : Half) (save : List Byte)
  /-- Reset during the pending command, which is abandoned (R250); what the abandoned command has left in
  `MEM` is a free input, as are `ACC` and `SAVE`. -/
  | resetBusy (mem : Memory) (acc : Half) (save : List Byte)
  /-- Read `STATUS` during the pending command, the one access the host has then (20_memory.md R74); while the
  engine is idle it is a read of `STATUS` like any other. -/
  | pollStatus
  deriving DecidableEq, Repr

/-- The state of UDPCE (10_state.md R20). -/
structure State where
  /-- The parameters of 00_scope.md R8 (the model's own field; never written). -/
  cfg : Params
  /-- `CMD`: the command word the host wrote and the engine has not yet completed (10_state.md R25); it is
  present exactly while `STATUS.BUSY` is 1 (R26). -/
  cmd : Option Word
  /-- `STATUS.OUTCOME` (10_state.md R26). -/
  outcome : OutcomeCode
  /-- `STATUS.FAULT` (10_state.md R26). -/
  fault : FaultCode
  /-- `LOCAL_ADDR` (10_state.md R27). -/
  localAddr : Word
  /-- `CS_SRC` (10_state.md R28). -/
  csSrc : Word
  /-- `CS_DST` (10_state.md R28). -/
  csDst : Word
  /-- `CSUM` (10_state.md R28). -/
  csum : Half
  /-- `RX_REMOTE` (10_state.md R29). -/
  rxRemote : Word
  /-- `TX_DADDR` (10_state.md R29). -/
  txDaddr : Word
  /-- `TX_SPORT` (10_state.md R29). -/
  txSport : Half
  /-- `TX_DPORT` (10_state.md R29). -/
  txDport : Half
  /-- `H_SPORT` of the header record (10_state.md R30). -/
  hSport : Half
  /-- `H_DPORT` of the header record (10_state.md R30). -/
  hDport : Half
  /-- `H_LEN` of the header record (10_state.md R30). -/
  hLen : Half
  /-- `H_CSUM` of the header record (10_state.md R30). -/
  hCsum : Half
  /-- `BUF_DP`, the data pointer `dp` (10_state.md R31, R33). -/
  dp : Nat
  /-- `BUF_LEN`, the length `len` (10_state.md R31, R33). -/
  len : Nat
  /-- `LK_RESULT` (10_state.md R32). -/
  lkResult : Word
  /-- `MEM` (10_state.md R33). -/
  mem : Memory
  /-- The port table `PT` (10_state.md R36). -/
  pt : PortTable
  /-- `ACC` (10_state.md R37). -/
  acc : Half
  /-- `SAVE`, 12 bytes (10_state.md R38). -/
  save : List Byte
  /-- `PADDED` (10_state.md R39). -/
  padded : Bool
  /-- The output trace, oldest event first (10_state.md R40). -/
  trace : List Event
  /-- The host actions still to come, next first (the model's own field). -/
  host : List HostAction
  /-- What the host's reads returned, oldest first (the model's own field). -/
  replies : List Word
  deriving DecidableEq, Repr

/-- Why the machine stops. (The faults of 60_exceptions.md R226 do not stop it; they are `FaultCode`.) -/
inductive Fault where
  /-- Raised by HDRRD, HDRWR, CSUM, RX and TX when `dp + len > BUF_CAP`, so that the command would reach
  `MEM` outside `0 .. BUF_CAP-1`, where 00_scope.md R12 defines no access. No run reaches such a state
  (10_state.md R34). Safe: the machine stops where the spec gives no effect (log entry 6). -/
  | bufferRange
  deriving DecidableEq, Repr

/-- Why the machine has no meaning for what it is asked to do. -/
inductive Refusal where
  /-- Raised by an arm of `exec` whose command has no meaning yet; no arm does. Safe. -/
  | notModelled (mnemonic : String)
  deriving DecidableEq, Repr

/-- The three outcomes of a step on this machine. -/
abbrev Result := Host.Outcome State Fault Refusal

/-- The state after reset (10_state.md R45) of a block with parameters `p`, when `MEM` holds `mem0`
(70_reset_and_hazards.md R252: a free input), `ACC` holds `acc0` and `SAVE` holds `save0` (R45:
unspecified). The engine is idle and the host has nothing to do. -/
def State.resetWith (p : Params) (mem0 : Memory) (acc0 : Half) (save0 : List Byte) : State where
  cfg := p
  cmd := none
  outcome := .oNone
  fault := .fNone
  localAddr := 0x00000000#32
  csSrc := 0x00000000#32
  csDst := 0x00000000#32
  csum := 0x0000#16
  rxRemote := 0x00000000#32
  txDaddr := 0x00000000#32
  txSport := 0x0000#16
  txDport := 0x0000#16
  hSport := 0x0000#16
  hDport := 0x0000#16
  hLen := 0x0000#16
  hCsum := 0x0000#16
  dp := p.bufHeadroom
  len := 0
  lkResult := 0x00000000#32
  mem := mem0
  pt := []
  acc := acc0
  save := save0
  padded := false
  trace := []
  host := []
  replies := []

/-- The state after reset with the default parameters of 00_scope.md R8 and, where the spec leaves the
content free, nothing listed in `MEM` and zeros in `ACC` and `SAVE` (log entries 1, 2 and 5, DESIGN
CHOICE). Statements about reset are made of `State.resetWith`. -/
def State.reset : State := State.resetWith Params.default [] 0x0000#16 (List.replicate 12 0x00#8)

end Sys2Proof.Machine
end

