-- ==== Sys2Proof/Machine/Ops.lean ====
section
/-! DEFINITION. The named operations over memory, the port table, the packet window, `STATUS` and the
trace. Every meaning is written over these. A fault of the spec (60_exceptions.md R226) is the one shared
operation `raiseFault`, a next state; there is no return from a fault (R234): the engine is idle again
when `raiseFault` is done, so no operation stands beside it. -/

namespace Sys2Proof.Machine

/-! ### Sorted tables of cells, shared by `MEM` and `PT` -/

/-- The value listed for a key. -/
def lookupCell : List Host.Cell → Nat → Option Byte
  | [], _ => none
  | (k, v) :: t, a => if k = a then some v else lookupCell t a

/-- List a value for a key, in the rising order of keys; the key's old value goes. -/
def insertCell : List Host.Cell → Nat → Byte → List Host.Cell
  | [], a, b => [(a, b)]
  | (k, v) :: t, a, b =>
    if a < k then (a, b) :: (k, v) :: t
    else if a = k then (a, b) :: t
    else (k, v) :: insertCell t a b

/-- List nothing for a key. -/
def eraseCell (m : List Host.Cell) (a : Nat) : List Host.Cell := m.filter (fun c => decide (c.1 ≠ a))

/-- The keys rise strictly. -/
def risingKeys (m : List Host.Cell) : Bool := decide (m.Pairwise (fun x y => x.1 < y.1))

/-! ### `MEM` (10_state.md R33; 00_scope.md R12) -/

/-- What an index that `MEM` does not list reads as (log entry 2, DESIGN CHOICE). Every content of `MEM`
is some list, so this fixes how a content is written down, and the content only of `State.reset`. -/
def Memory.unlisted : Byte := 0x00#8

/-- The canonical form of `MEM`: indices rise strictly and no entry is what an unlisted index reads as. -/
def Memory.wf (m : Memory) : Bool := risingKeys m && m.all (fun c => decide (c.2 ≠ Memory.unlisted))

/-- Every listed index lies in `0 .. cap-1`. -/
def Memory.within (m : Memory) (cap : Nat) : Bool := m.all (fun c => decide (c.1 < cap))

/-- `MEM[a]`. -/
def Memory.readByte (m : Memory) (a : Nat) : Byte := (lookupCell m a).getD Memory.unlisted

/-- `MEM[a] <- b`, keeping the canonical form. -/
def Memory.writeByte (m : Memory) (a : Nat) (b : Byte) : Memory :=
  if b = Memory.unlisted then eraseCell m a else insertCell m a b

/-- `MemRead(a, n)`, the sequence from `MEM[a]` to `MEM[a+n-1]` (00_scope.md R12). -/
def Memory.readBytes (m : Memory) (a : Nat) : Nat → List Byte
  | 0 => []
  | n + 1 => m.readByte a :: Memory.readBytes m (a + 1) n

/-- `MemWrite(a, n, s)` with `n = |s|` (00_scope.md R12). -/
def Memory.writeBytes (m : Memory) (a : Nat) : List Byte → Memory
  | [] => m
  | b :: s => Memory.writeBytes (m.writeByte a b) (a + 1) s

/-! ### `PT` (10_state.md R36; 43_port_registry.md) -/

/-- The form of the port table: ports rise strictly, so each port has at most one handler
(43_port_registry.md R174a), and each is a 16-bit number. -/
def PortTable.wf (t : PortTable) : Bool := risingKeys t && t.all (fun c => decide (c.1 < 65536))

/-- `PT[port]`, where `none` is `absent`. -/
def PortTable.handler (t : PortTable) (port : Half) : Option Byte := lookupCell t port.toNat

/-- `PT[port] <- hid`. -/
def PortTable.register (t : PortTable) (port : Half) (hid : Byte) : PortTable := insertCell t port.toNat hid

/-- `PT[port] <- absent`. -/
def PortTable.remove (t : PortTable) (port : Half) : PortTable := eraseCell t port.toNat

/-! ### Updates of the state -/

/-- Put a content into `MEM`. -/
def setMem (s : State) (m : Memory) : State := { s with mem := m }

/-- Move the packet window. -/
def setWindow (s : State) (dp len : Nat) : State := { s with dp := dp, len := len }

/-- Write `CSUM`. -/
def setCsum (s : State) (v : Half) : State := { s with csum := v }

/-- Write the header record (10_state.md R30). -/
def setRecord (s : State) (sport dport len csum : Half) : State :=
  { s with hSport := sport, hDport := dport, hLen := len, hCsum := csum }

/-- Put a content into `PT`. -/
def setTable (s : State) (t : PortTable) : State := { s with pt := t }

/-- Write `LK_RESULT`. -/
def setLkResult (s : State) (v : Word) : State := { s with lkResult := v }

/-- Write `SAVE` (10_state.md R38). -/
def setSave (s : State) (bytes : List Byte) : State := { s with save := bytes }

/-- Write `ACC` (10_state.md R37). -/
def setAcc (s : State) (v : Half) : State := { s with acc := v }

/-- Write `PADDED` (10_state.md R39). -/
def setPadded (s : State) (b : Bool) : State := { s with padded := b }

/-- `emit E(...)`: append one record to the trace (10_state.md R40). -/
def emit (s : State) (e : Event) : State := { s with trace := s.trace ++ [e] }

/-! ### The end of a command -/

/-- A command ends with an outcome other than `O_FAULT`: `OUTCOME` and `FAULT` are overwritten together,
`FAULT` with `F_NONE`, and `BUSY` is cleared (10_state.md R26; 40_control_and_buffer_ops.md R120). -/
def finish (s : State) (o : OutcomeCode) : State := { s with cmd := none, outcome := o, fault := .fNone }

/-- `raise F`: the command faults. `OUTCOME` becomes `O_FAULT`, `FAULT` the code, `BUSY` is cleared and
nothing else changes (60_exceptions.md R226, R233). -/
def raiseFault (s : State) (f : FaultCode) : State := { s with cmd := none, outcome := .oFault, fault := f }

/-- An illegal command word was written to `CMD` (30_encoding.md R104; 60_exceptions.md R227). -/
def execIllegal (s : State) : Result := .next (raiseFault s .fIllegal)

/-- Go on only when the packet lies inside `MEM`, as 10_state.md R34 says it always does; outside it
00_scope.md R12 defines no access and the machine stops (log entry 6). -/
def withBuffer (s : State) (k : State → Result) : Result :=
  if s.dp + s.len ≤ s.cfg.bufCap then k s else .fault .bufferRange

/-! ### The packet buffer primitives (40_control_and_buffer_ops.md R123 to R126)

These are the pseudocode functions: the caller has tested the room (00_scope.md R13). -/

/-- `buf_push(n)`: prepend a region of `n` bytes; `MEM` is not written (R123). -/
def bufPush (s : State) (n : Nat) : State := setWindow s (s.dp - n) (s.len + n)

/-- `buf_pop(n)`: remove the first `n` bytes; `MEM` is not written (R124). -/
def bufPop (s : State) (n : Nat) : State := setWindow s (s.dp + n) (s.len - n)

/-- `pad_add(n)`: append `n` zero bytes at the tail (R125). -/
def padAdd (s : State) (n : Nat) : State :=
  setWindow (setMem s (s.mem.writeBytes (s.dp + s.len) (List.replicate n 0x00#8))) s.dp (s.len + n)

/-- `pad_remove(n)`: remove the last `n` bytes; `MEM` is not written (R126). -/
def padRemove (s : State) (n : Nat) : State := setWindow s s.dp (s.len - n)

/-- `DATA`, the logical content of the buffer (00_scope.md R12; 10_state.md R33). -/
def State.data (s : State) : List Byte := s.mem.readBytes s.dp s.len

end Sys2Proof.Machine
end

