-- ==== Sys2Proof/Machine/Operands.lean ====
section
/-! DEFINITION. The operand forms: byte order (00_scope.md R11; 20_memory.md R62, R63), the address
registers (10_state.md R24), the header fields at the front of the packet (30_encoding.md R90, R91;
41_header_ops.md R140) and the pseudo-header (30_encoding.md R93). -/

namespace Sys2Proof.Machine

/-- `be16(b0, b1) = b0 * 256 + b1`: the first byte is the more significant (00_scope.md R11). -/
def be16 (b0 b1 : Byte) : Half := b0 ++ b1

/-- `hi8(v) = v[15:8]` (00_scope.md R11). -/
def hi8 (v : Half) : Byte := v.extractLsb' 8 8

/-- `lo8(v) = v[7:0]` (00_scope.md R11). -/
def lo8 (v : Half) : Byte := v.extractLsb' 0 8

/-- `addr(R)`: the 4-byte address an address register holds, first byte from bits [31:24] (10_state.md
R24). -/
def addrBytes (r : Word) : List Byte :=
  [r.extractLsb' 24 8, r.extractLsb' 16 8, r.extractLsb' 8 8, r.extractLsb' 0 8]

/-- `rd16(o)`: the header field at offset `o` of the packet (41_header_ops.md R140). -/
def rd16 (s : State) (o : Nat) : Half := be16 (s.mem.readByte (s.dp + o)) (s.mem.readByte (s.dp + o + 1))

/-- `wr16(o, v)`: place a header field at offset `o` of the packet (41_header_ops.md R140). -/
def wr16 (s : State) (o : Nat) (v : Half) : State :=
  setMem s ((s.mem.writeByte (s.dp + o) (hi8 v)).writeByte (s.dp + o + 1) (lo8 v))

/-- `hdr_read()` (41_header_ops.md R140). -/
def hdrRead (s : State) : State := setRecord s (rd16 s 0) (rd16 s 2) (rd16 s 4) (rd16 s 6)

/-- `hdr_write()` (41_header_ops.md R140). -/
def hdrWrite (s : State) : State := wr16 (wr16 (wr16 (wr16 s 0 s.hSport) 2 s.hDport) 4 s.hLen) 6 s.hCsum

/-- The 8 bytes of a datagram header with these fields, each in network byte order (30_encoding.md R90, R91;
20_memory.md R62). -/
def headerBytes (sport dport len csum : Half) : List Byte :=
  [hi8 sport, lo8 sport, hi8 dport, lo8 dport, hi8 len, lo8 len, hi8 csum, lo8 csum]

/-- `pseudo(src, dst, n)`: source address, destination address, zero, protocol identifier, `udp_length`
big-endian (30_encoding.md R93). `n` is at most 65535 in every call (42_checksum.md R158). -/
def pseudo (protoId : Byte) (src dst : List Byte) (n : Nat) : List Byte :=
  src ++ dst ++ [0x00#8, protoId, hi8 (BitVec.ofNat 16 n), lo8 (BitVec.ofNat 16 n)]

end Sys2Proof.Machine
end

