-- ==== Sys2Proof/Machine/Flags.lean ====
section
/-! DEFINITION. `STATUS`, the only flag-like state of UDPCE (10_state.md R44): the codes of its two fields
(60_exceptions.md R220, R226) and the word the host reads (10_state.md R26). There are no condition codes;
the adder folds its carry back and keeps none (42_checksum.md R150). -/

namespace Sys2Proof.Machine

/-- The number of an outcome (60_exceptions.md R220). -/
def outcomeBits : OutcomeCode → BitVec 4
  | .oNone => 0#4
  | .oOk => 1#4
  | .oDropShort => 2#4
  | .oDropCsum => 3#4
  | .oUnreachable => 4#4
  | .oDelivered => 5#4
  | .oSent => 6#4
  | .oOpenFail => 7#4
  | .oFault => 8#4

/-- The number of a fault (60_exceptions.md R226). -/
def faultBits : FaultCode → BitVec 4
  | .fNone => 0#4
  | .fIllegal => 1#4
  | .fRoom => 2#4
  | .fShort => 3#4

/-- `STATUS.BUSY`: 1 from the host's write of `CMD` until the command completes (10_state.md R26). -/
def State.busy (s : State) : Bool := s.cmd.isSome

/-- `STATUS` as the host reads it: `BUSY` in bit 31, bits [30:8] zero, `FAULT` in [7:4], `OUTCOME` in [3:0]
(10_state.md R26). -/
def statusWord (s : State) : Word :=
  BitVec.ofBool s.busy ++ 0#23 ++ faultBits s.fault ++ outcomeBits s.outcome

/-- `LK_RESULT` for an answer of the port table: `HIT` in bit 31, `HID` in [7:0] (10_state.md R32;
43_port_registry.md R173). -/
def lookupWord : Option Byte → Word
  | none => 0x00000000#32
  | some hid => 1#1 ++ 0#23 ++ hid

end Sys2Proof.Machine
end

