-- ==== Sys2Proof/Machine/Buffer.lean ====
section
/-! DEFINITION. The commands NOP, BUFINIT, PUSH, POP, PADD, PADR (40_control_and_buffer_ops.md). Counts are
compared and added as natural numbers (00_scope.md R10). -/

namespace Sys2Proof.Machine

/-- NOP (40_control_and_buffer_ops.md R121): nothing but `STATUS`. -/
def execNop (s : State) : Result := .next (finish s .oOk)

/-- BUFINIT n (40_control_and_buffer_ops.md R122). -/
def execBufinit (n : Half) (s : State) : Result :=
  if s.cfg.bufHeadroom + n.toNat > s.cfg.bufCap then .next (raiseFault s .fRoom)
  else .next (finish (setWindow s s.cfg.bufHeadroom n.toNat) .oOk)

/-- PUSH n (40_control_and_buffer_ops.md R123). -/
def execPush (n : Half) (s : State) : Result :=
  if n.toNat > s.dp then .next (raiseFault s .fRoom) else .next (finish (bufPush s n.toNat) .oOk)

/-- POP n (40_control_and_buffer_ops.md R124). -/
def execPop (n : Half) (s : State) : Result :=
  if n.toNat > s.len then .next (raiseFault s .fRoom) else .next (finish (bufPop s n.toNat) .oOk)

/-- PADD n (40_control_and_buffer_ops.md R125). -/
def execPadd (n : Half) (s : State) : Result :=
  if s.dp + s.len + n.toNat > s.cfg.bufCap then .next (raiseFault s .fRoom)
  else .next (finish (padAdd s n.toNat) .oOk)

/-- PADR n (40_control_and_buffer_ops.md R126). -/
def execPadr (n : Half) (s : State) : Result :=
  if n.toNat > s.len then .next (raiseFault s .fRoom) else .next (finish (padRemove s n.toNat) .oOk)

end Sys2Proof.Machine
end

