-- ==== Sys2Proof/Machine/Checksum.lean ====
section
/-! DEFINITION. The checksum engine (42_checksum.md): the one's-complement adder, the result as a pure
function, the in-place procedure "must be reproduced exactly", and the command CSUM. -/

namespace Sys2Proof.Machine

/-- `oc_add16(a, b)`: 16-bit addition with end-around carry, by way of the 17-bit sum (42_checksum.md
R150). -/
def ocAdd16 (a b : Half) : Half :=
  let s : BitVec 17 := a.setWidth 17 + b.setWidth 17
  s.extractLsb' 0 16 + (s.extractLsb' 16 1).setWidth 16

/-- The fold of `oc_add16` over the big-endian words of a byte sequence, from `acc` (42_checksum.md R151).
The spec defines it for an even length only, and every call has one; a last odd byte is not summed
(log entry 9). -/
def ocSumFrom (acc : Half) : List Byte → Half
  | b0 :: b1 :: t => ocSumFrom (ocAdd16 acc (be16 b0 b1)) t
  | _ => acc

/-- `oc_sum(s)` (42_checksum.md R151). -/
def ocSum (bytes : List Byte) : Half := ocSumFrom 0x0000#16 bytes

/-- `csum16(s) = ~oc_sum(s)` (42_checksum.md R154). -/
def csum16 (bytes : List Byte) : Half := ~~~ocSum bytes

/-- `csum_input(src, dst, DATA)`: pseudo-header, packet, and one zero byte when the packet's length is odd
(30_encoding.md R94). -/
def csumInput (protoId : Byte) (src dst data : List Byte) : List Byte :=
  pseudo protoId src dst data.length ++ data ++ (if data.length % 2 = 1 then [0x00#8] else [])

/-- `checksum(src, dst, D)` as a pure function (42_checksum.md R155). The meanings do not call it: they run
`csumInplace`, and that the two agree is 42_checksum.md R157a. -/
def checksum (protoId : Byte) (src dst data : List Byte) : Half := csum16 (csumInput protoId src dst data)

/-- The checksum of the packet needs a byte of tailroom that is not there: `len` is odd and
`dp + len + 1 > BUF_CAP` (42_checksum.md R156; 44_ingress.md R189; 45_egress.md R207). -/
abbrev State.lacksPadRoom (s : State) : Prop := s.len % 2 = 1 ∧ s.dp + s.len + 1 > s.cfg.bufCap

/-- Step 1 of `csum_inplace`: snapshot the 12 bytes in front of the packet, grow by `IP_HDR_SIZE`, shrink to
12, overlay the pseudo-header with `udp_length` taken after the shrink (42_checksum.md R156 steps 1a to
1d; 90_conflicts.md C1, C2). -/
def csumOverlay (s : State) (src dst : List Byte) : State :=
  let s := setSave s (s.mem.readBytes (s.dp - 12) 12)
  let s := bufPush s s.cfg.ipHdrSize
  let s := bufPop s (s.cfg.ipHdrSize - 12)
  setMem s (s.mem.writeBytes s.dp (pseudo s.cfg.protoId src dst (s.len - 12)))

/-- Step 2: an odd length gets one zero padding byte (42_checksum.md R156 step 2). -/
def csumPad (s : State) : State := if s.len % 2 = 1 then setPadded (padAdd s 1) true else s

/-- Step 3: the sum of the packet as it now stands goes to `ACC` (42_checksum.md R156 step 3). -/
def csumAccumulate (s : State) : State := setAcc s (ocSum s.data)

/-- Step 4: remove the padding byte if one was added, put the snapshot back, leave the pseudo-header region
(42_checksum.md R156 steps 4a to 4c). -/
def csumRestore (s : State) : State :=
  let s := if s.padded then setPadded (padRemove s 1) false else s
  let s := setMem s (s.mem.writeBytes s.dp s.save)
  bufPop s 12

/-- `csum_inplace(src, dst)` (42_checksum.md R156): steps 1 to 4, then `CSUM` gets the complement of `ACC`
(step 5). -/
def csumInplace (s : State) (src dst : List Byte) : State :=
  let s := csumRestore (csumAccumulate (csumPad (csumOverlay s src dst)))
  setCsum s (~~~s.acc)

/-- CSUM (42_checksum.md R156): `F_SHORT`, then `F_ROOM`, then the in-place checksum over `CS_SRC` and
`CS_DST`. -/
def execCsum (s : State) : Result :=
  if s.len < 8 then .next (raiseFault s .fShort)
  else if s.dp < s.cfg.ipHdrSize then .next (raiseFault s .fRoom)
  else if s.lacksPadRoom then .next (raiseFault s .fRoom)
  else withBuffer s fun s => .next (finish (csumInplace s (addrBytes s.csSrc) (addrBytes s.csDst)) .oOk)

end Sys2Proof.Machine
end

