-- ==== Sys2Proof/Machine/Egress.lean ====
section
/-! DEFINITION. The command TX, the header builder (45_egress.md). -/

namespace Sys2Proof.Machine

/-- Steps 1 to 3a of TX: prepend the header region, populate the record with the ports, the length so far and
checksum zero, write it into the buffer (45_egress.md R201). -/
def txPopulate (s : State) : State :=
  let s := bufPush s 8
  let s := setRecord s s.txSport s.txDport (BitVec.ofNat 16 s.len) 0x0000#16
  hdrWrite s

/-- Steps 3b to 3d of TX: compute the checksum with the local address as source and the target address as
destination, put it into the record, write the header a second time (45_egress.md R201). -/
def txChecksum (s : State) : State :=
  let s := csumInplace s (addrBytes s.localAddr) (addrBytes s.txDaddr)
  let s := setRecord s s.hSport s.hDport s.hLen s.csum
  hdrWrite s

/-- Step 4 of TX: hand the datagram to the network layer (45_egress.md R201). -/
def txSend (s : State) : State :=
  let s := emit s (.netsend s.data (addrBytes s.txDaddr) s.cfg.protoId)
  finish s .oSent

/-- TX (45_egress.md R201, R207). -/
def execTx (s : State) : Result :=
  if s.dp < 8 + s.cfg.ipHdrSize then .next (raiseFault s .fRoom)
  else if s.lacksPadRoom then .next (raiseFault s .fRoom)
  else withBuffer s fun s => .next (txSend (txChecksum (txPopulate s)))

end Sys2Proof.Machine
end

