-- ==== Sys2Proof/Machine/Header.lean ====
section
/-! DEFINITION. The commands HDRRD and HDRWR (41_header_ops.md). -/

namespace Sys2Proof.Machine

/-- HDRRD (41_header_ops.md R141): the header record from the first 8 bytes of the packet. -/
def execHdrrd (s : State) : Result :=
  if s.len < 8 then .next (raiseFault s .fShort)
  else withBuffer s fun s => .next (finish (hdrRead s) .oOk)

/-- HDRWR (41_header_ops.md R142): the first 8 bytes of the packet from the header record. -/
def execHdrwr (s : State) : Result :=
  if s.len < 8 then .next (raiseFault s .fShort)
  else withBuffer s fun s => .next (finish (hdrWrite s) .oOk)

end Sys2Proof.Machine
end

