-- ==== Sys2Proof/Machine/Ingress.lean ====
section
/-! DEFINITION. The command RX, the header parser (44_ingress.md). -/

namespace Sys2Proof.Machine

/-- Steps 2a to 2c of RX: the stored checksum goes to `H_CSUM`, the field is zeroed, the checksum is
recomputed with the remote address as source and the local one as destination (44_ingress.md R181, R183). -/
def rxRecompute (s : State) : State :=
  let s := setRecord s s.hSport s.hDport s.hLen (rd16 s 6)
  let s := wr16 s 6 0x0000#16
  csumInplace s (addrBytes s.rxRemote) (addrBytes s.localAddr)

/-- Step 3, miss: re-attach the region in front of the packet and notify (44_ingress.md R184). -/
def rxUnreachable (s : State) : State :=
  let s := bufPush s s.cfg.ipHdrSize
  let s := emit s (.unreach s.data (addrBytes s.rxRemote) s.cfg.unreachReason)
  finish s .oUnreachable

/-- Step 3, hit: extract the source port, remove the header, hand the payload to the handler
(44_ingress.md R185). -/
def rxDeliver (s : State) (hid : Byte) : State :=
  let s := setRecord s (rd16 s 0) s.hDport s.hLen s.hCsum
  let s := bufPop s 8
  let s := emit s (.deliver hid s.data s.len (addrBytes s.rxRemote) s.hSport)
  finish s .oDelivered

/-- Step 3 of RX: extract the destination port and look it up; `LK_RESULT` is not written (44_ingress.md
R181; 43_port_registry.md R173). -/
def rxDispatch (s : State) : State :=
  let s := setRecord s s.hSport (rd16 s 2) s.hLen s.hCsum
  match s.pt.handler s.hDport with
  | none => rxUnreachable s
  | some hid => rxDeliver s hid

/-- Steps 2d and 2e of RX: a mismatch ends the command with the field left zero; otherwise the stored value,
which `H_CSUM` holds, is put back and the datagram dispatched (44_ingress.md R181, R183). -/
def rxCompare (s : State) : State :=
  if s.csum ≠ s.hCsum then finish s .oDropCsum else rxDispatch (wr16 s 6 s.hCsum)

/-- RX (44_ingress.md R181): length check, room, checksum validation, dispatch. -/
def execRx (s : State) : Result :=
  if s.len < 8 then .next (finish s .oDropShort)
  else if s.dp < s.cfg.ipHdrSize then .next (raiseFault s .fRoom)
  else if s.lacksPadRoom then .next (raiseFault s .fRoom)
  else withBuffer s fun s => .next (rxCompare (rxRecompute s))

end Sys2Proof.Machine
end

