-- ==== Sys2Proof/Machine/Registry.lean ====
section
/-! DEFINITION. The commands OPEN, CLOSE, LOOKUP over the port table (43_port_registry.md). -/

namespace Sys2Proof.Machine

/-- OPEN port, hid (43_port_registry.md R171): fails, with an outcome and no fault, only when the entry would
be a new one and the table is full. -/
def execOpen (port : Half) (hid : Byte) (s : State) : Result :=
  if s.pt.handler port = none ∧ s.pt.length = s.cfg.ptCap then .next (finish s .oOpenFail)
  else .next (finish (setTable s (s.pt.register port hid)) .oOk)

/-- CLOSE port (43_port_registry.md R172). -/
def execClose (port : Half) (s : State) : Result := .next (finish (setTable s (s.pt.remove port)) .oOk)

/-- LOOKUP port (43_port_registry.md R173). -/
def execLookup (port : Half) (s : State) : Result :=
  .next (finish (setLkResult s (lookupWord (s.pt.handler port))) .oOk)

end Sys2Proof.Machine
end

