-- ==== Sys2Proof/Machine/Dispatch.lean ====
section
/-! DEFINITION. The meaning of every command: one arm per constructor of `Instr`. -/

namespace Sys2Proof.Machine

def exec (i : Instr) (s : State) : Host.Outcome State Fault Refusal :=
  match i with
  | .nop => Sys2Proof.Machine.execNop s
  | .csum => Sys2Proof.Machine.execCsum s
  | .openPort port hid => Sys2Proof.Machine.execOpen port hid s
  | .closePort port => Sys2Proof.Machine.execClose port s
  | .lookup port => Sys2Proof.Machine.execLookup port s
  | .rx => Sys2Proof.Machine.execRx s
  | .tx => Sys2Proof.Machine.execTx s
  | .bufinit n => Sys2Proof.Machine.execBufinit n s
  | .push n => Sys2Proof.Machine.execPush n s
  | .pop n => Sys2Proof.Machine.execPop n s
  | .padd n => Sys2Proof.Machine.execPadd n s
  | .padr n => Sys2Proof.Machine.execPadr n s
  | .hdrrd => Sys2Proof.Machine.execHdrrd s
  | .hdrwr => Sys2Proof.Machine.execHdrwr s

end Sys2Proof.Machine
end

