-- ==== Sys2Proof/Machine/HostPort.lean ====
section
/-! DEFINITION. What the host does to the block: the register window (10_state.md R22, R23), the buffer
window (20_memory.md R60, R61), the address map (20_memory.md R67) and reset (70_reset_and_hazards.md
R250). -/

namespace Sys2Proof.Machine

/-- The register at an offset of the register window (10_state.md R22). -/
def regAt (off : Nat) : Option Reg :=
  match off with
  | 0x00 => some .cmd
  | 0x04 => some .status
  | 0x08 => some .localAddr
  | 0x0C => some .csSrc
  | 0x10 => some .csDst
  | 0x14 => some .csum
  | 0x18 => some .rxRemote
  | 0x1C => some .txDaddr
  | 0x20 => some .txSport
  | 0x24 => some .txDport
  | 0x28 => some .hSport
  | 0x2C => some .hDport
  | 0x30 => some .hLen
  | 0x34 => some .hCsum
  | 0x38 => some .bufDp
  | 0x3C => some .bufLen
  | 0x40 => some .lkResult
  | _ => none

/-- What an offset of the device's range is: the register window 0x00000 to 0x00043, the buffer window from
0x10000, nothing else (20_memory.md R67). -/
def targetAt (p : Params) (off : Nat) : Target :=
  if off < 0x44 then
    match regAt off with
    | some r => .register r
    | none => .registerHole
  else if 0x10000 ≤ off ∧ off < 0x10000 + p.bufCap then .bufferByte (off - 0x10000)
  else .unmapped

/-- What a host read of a register returns: `CMD` reads 0 (write only); a 16-bit register is zero-extended
(10_state.md R22, R23). -/
def readReg (s : State) : Reg → Word
  | .cmd => 0x00000000#32
  | .status => statusWord s
  | .localAddr => s.localAddr
  | .csSrc => s.csSrc
  | .csDst => s.csDst
  | .csum => s.csum.setWidth 32
  | .rxRemote => s.rxRemote
  | .txDaddr => s.txDaddr
  | .txSport => s.txSport.setWidth 32
  | .txDport => s.txDport.setWidth 32
  | .hSport => s.hSport.setWidth 32
  | .hDport => s.hDport.setWidth 32
  | .hLen => s.hLen.setWidth 32
  | .hCsum => s.hCsum.setWidth 32
  | .bufDp => (BitVec.ofNat 16 s.dp).setWidth 32
  | .bufLen => (BitVec.ofNat 16 s.len).setWidth 32
  | .lkResult => s.lkResult

/-- What a host write of a register does: `CMD` takes the word as the pending command (10_state.md R25); a
read-only register ignores it; a 16-bit register takes bits [15:0] (10_state.md R22, R23). -/
def writeReg (s : State) (r : Reg) (v : Word) : State :=
  match r with
  | .cmd => { s with cmd := some v }
  | .localAddr => { s with localAddr := v }
  | .csSrc => { s with csSrc := v }
  | .csDst => { s with csDst := v }
  | .rxRemote => { s with rxRemote := v }
  | .txDaddr => { s with txDaddr := v }
  | .txSport => { s with txSport := v.setWidth 16 }
  | .txDport => { s with txDport := v.setWidth 16 }
  | .hSport => { s with hSport := v.setWidth 16 }
  | .hDport => { s with hDport := v.setWidth 16 }
  | .hLen => { s with hLen := v.setWidth 16 }
  | .hCsum => { s with hCsum := v.setWidth 16 }
  | .status | .csum | .bufDp | .bufLen | .lkResult => s

/-- Hand a read's value to the host; a read changes nothing in the block (20_memory.md R66). -/
def reply (s : State) (v : Word) : State := { s with replies := s.replies ++ [v] }

/-- How many bytes a 32-bit access at index `i` of the buffer window can reach: four, or as many as the window has
from there on. -/
def wideSpan (s : State) (i : Nat) : Nat := min 4 (s.cfg.bufCap - i)

/-- The bytes that a 32-bit write of `v` at index `i` leaves from there on: each a free value, for the window is
accessed one byte at a time (20_memory.md R60; log entry 7). -/
def wideBytes (s : State) (i : Nat) (v : Word) : List Byte :=
  (List.range (wideSpan s i)).map fun j => Config.bufferByteAfterWordWrite i j v (s.mem.readByte (i + j))

/-- A 32-bit write by the host at index `i` of the buffer window: no byte but those it can reach changes
(20_memory.md R61, R66). -/
def writeWide (s : State) (i : Nat) (v : Word) : State := setMem s (s.mem.writeBytes i (wideBytes s i v))

/-- A 32-bit read by the host at index `i` of the buffer window: it has no side effect (20_memory.md R66), and the
word it returns is a free value (log entry 7). -/
def readWide (s : State) (i : Nat) : State := reply s (Config.wordOfBuffer i (s.mem.readBytes i (wideSpan s i)))

/-- A byte write by the host at the offset `off` of the register `r`. A write of a 32-bit word is the only way to
start a command (10_state.md R25), so it does nothing to `CMD`; an RO register ignores it (R22); what an RW register
then holds is a free value (log entry 7). -/
def writeRegByte (s : State) (r : Reg) (off : Nat) (b : Byte) : State :=
  if r = .cmd then s else writeReg s r (Config.registerAfterByteWrite off (readReg s r) b)

/-- A byte read by the host at the offset `off` of the register `r`: it has no side effect (20_memory.md R66); `CMD`
reads 0 (10_state.md R22), and of another register the byte it returns is a free value (log entry 7). -/
def readRegByte (s : State) (r : Reg) (off : Nat) : State :=
  reply s (if r = .cmd then 0x00000000#32 else (Config.byteOfRegister off (readReg s r)).setWidth 32)

/-- A 32-bit host write at an offset of the device's range. -/
def hostWriteWord (s : State) (off : Nat) (v : Word) : Result :=
  match targetAt s.cfg off with
  | .register r => .next (writeReg s r v)
  | .registerHole | .unmapped => .next s
  | .bufferByte i => .next (writeWide s i v)

/-- A 32-bit host read at an offset of the device's range. -/
def hostReadWord (s : State) (off : Nat) : Result :=
  match targetAt s.cfg off with
  | .register r => .next (reply s (readReg s r))
  | .registerHole | .unmapped => .next (reply s 0x00000000#32)
  | .bufferByte i => .next (readWide s i)

/-- A byte write by the host at an offset of the device's range (20_memory.md R61; 10_state.md R22, R23). -/
def hostWriteByte (s : State) (off : Nat) (b : Byte) : Result :=
  match targetAt s.cfg off with
  | .bufferByte i => .next (setMem s (s.mem.writeByte i b))
  | .register r => .next (writeRegByte s r off b)
  | .registerHole | .unmapped => .next s

/-- A byte read by the host at an offset of the device's range (20_memory.md R61; 10_state.md R22, R23). -/
def hostReadByte (s : State) (off : Nat) : Result :=
  match targetAt s.cfg off with
  | .bufferByte i => .next (reply s ((s.mem.readByte i).setWidth 32))
  | .register r => .next (readRegByte s r off)
  | .registerHole | .unmapped => .next (reply s 0x00000000#32)

/-- The index `dp+k` or `dp-k` of a script, with the value of `BUF_DP` at that moment (30_encoding.md R107). An
index below 0 names no byte (log entry 10). -/
def dpIndex (s : State) (k : Int) : Option Nat :=
  let i := (s.dp : Int) + k
  if 0 ≤ i then some i.toNat else none

/-- A byte write by the host at `dp+k`, through the buffer window (30_encoding.md R107); below index 0 it is ignored
(log entry 10, DESIGN CHOICE). -/
def hostWriteDp (s : State) (k : Int) (b : Byte) : Result :=
  match dpIndex s k with
  | some i => hostWriteByte s (0x10000 + i) b
  | none => .next s

/-- A byte read by the host at `dp+k`, through the buffer window (30_encoding.md R107); below index 0 it reads 0
(log entry 10, DESIGN CHOICE). -/
def hostReadDp (s : State) (k : Int) : Result :=
  match dpIndex s k with
  | some i => hostReadByte s (0x10000 + i)
  | none => .next (reply s 0x00000000#32)

/-- Reset: every piece of the block's state takes its reset value, a pending command is gone with no outcome
and no event, `MEM` holds `mem` (70_reset_and_hazards.md R250, R252; 10_state.md R45). The parameters and the
host's side stay. -/
def applyReset (s : State) (mem : Memory) (acc : Half) (save : List Byte) : State :=
  { State.resetWith s.cfg mem acc save with host := s.host, replies := s.replies }

/-- A read of `STATUS`, which during a command has `BUSY` = 1 and the codes of the command before it
(10_state.md R26; 20_memory.md R66, R74). -/
def pollStatus (s : State) : State := reply s (statusWord s)

/-- One host action while the engine is idle. A reset while idle does not write `MEM`
(70_reset_and_hazards.md R252). -/
def hostAct (s : State) : HostAction → Result
  | .writeWord off v => hostWriteWord s off v
  | .readWord off => hostReadWord s off
  | .writeByte off b => hostWriteByte s off b
  | .readByte off => hostReadByte s off
  | .writeByteDp k b => hostWriteDp s k b
  | .readByteDp k => hostReadDp s k
  | .reset acc save => .next (applyReset s s.mem acc save)
  | .resetBusy _ acc save => .next (applyReset s s.mem acc save)
  | .pollStatus => .next (pollStatus s)

/-- The host actions that can land during a pending command: a reset and a read of `STATUS`
(70_reset_and_hazards.md R250; 20_memory.md R74). -/
def HostAction.lands : HostAction → Bool
  | .resetBusy _ _ _ | .pollStatus => true
  | .writeWord _ _ | .readWord _ | .writeByte _ _ | .readByte _ | .writeByteDp _ _ | .readByteDp _ | .reset _ _ => false

/-- A reset that lands while the pending command runs: the command is abandoned and `MEM` holds what it had
left there, a free input (70_reset_and_hazards.md R250, R252; log entry 8). -/
def abandonCommand (s : State) (mem : Memory) (acc : Half) (save : List Byte) : State :=
  applyReset s mem acc save

/-- The idle engine with no host action to come: nothing executes until the host writes `CMD`
(70_reset_and_hazards.md R250; 10_state.md R25). -/
def idle (s : State) : Result := .next s

/-- Take the next host action off the list. -/
def takeAction (s : State) (rest : List HostAction) : State := { s with host := rest }

end Sys2Proof.Machine
end

