-- ==== Sys2Proof/Machine/Step.lean ====
section
/-! DEFINITION. One step of UDPCE: the engine runs the pending command; an idle engine leaves the step to the
next host action (10_state.md R21, R25; 20_memory.md R69; log entries 3 and 4). -/

namespace Sys2Proof.Machine

/-- The engine executes the command word `w`: a legal one by its meaning, an illegal one as 30_encoding.md
R104 says. -/
def runCommand (w : Word) (s : State) : Host.Outcome State Fault Refusal :=
  match decode w with
  | .command i => exec i s
  | .illegal _ => execIllegal s

/-- One step. While a command is pending the host has no move but a reset that lands during it and a read of
`STATUS` (20_memory.md R74). -/
def step (s : State) : Host.Outcome State Fault Refusal :=
  match s.cmd, s.host with
  | some _, .resetBusy mem acc save :: rest => .next (abandonCommand (takeAction s rest) mem acc save)
  | some _, .pollStatus :: rest => .next (pollStatus (takeAction s rest))
  | some w, _ => runCommand w s
  | none, [] => idle s
  | none, a :: rest => hostAct (takeAction s rest) a

/-- `s` with this command word written to `CMD`, so that the next step runs it. (Host actions that would land
during the command are taken off the front of the list of those to come, since they would come first.) -/
def State.withFetchWord (s : State) (nbits w : Nat) : State :=
  { s with
    cmd := some (tableWord nbits w)
    host := s.host.dropWhile HostAction.lands }

end Sys2Proof.Machine
end

