-- ==== Sys2Proof/Machine/Script.lean ====
section
/-! DEFINITION. The host script of 30_encoding.md section 5: what its lines are as lists of host actions. A
list put into `State.host` is carried out by `step`, one action or one command a step; this is how a program
comes to run from reset (log entry 4). -/

namespace Sys2Proof.Machine

/-- The mnemonic of a command (30_encoding.md R100). -/
def mnemonic : Instr → String
  | .nop => "NOP"
  | .csum => "CSUM"
  | .openPort _ _ => "OPEN"
  | .closePort _ => "CLOSE"
  | .lookup _ => "LOOKUP"
  | .rx => "RX"
  | .tx => "TX"
  | .bufinit _ => "BUFINIT"
  | .push _ => "PUSH"
  | .pop _ => "POP"
  | .padd _ => "PADD"
  | .padr _ => "PADR"
  | .hdrrd => "HDRRD"
  | .hdrwr => "HDRWR"

/-- The operands of a command as numerals, in the order a script line has them (30_encoding.md R106). -/
def operandNumerals : Instr → List Nat
  | .openPort port hid => [port.toNat, hid.toNat]
  | .closePort n | .lookup n | .bufinit n | .push n | .pop n | .padd n | .padr n => [n.toNat]
  | .nop | .csum | .rx | .tx | .hdrrd | .hdrwr => []

/-- The script line of a command, numerals in decimal (30_encoding.md R106). -/
def scriptLine (i : Instr) : String :=
  match (operandNumerals i).map toString with
  | [] => mnemonic i
  | operands => mnemonic i ++ " " ++ String.intercalate ", " operands

/-- The offset of a register in the device's range (10_state.md R22; 20_memory.md R67). -/
def offsetOf : Reg → Nat
  | .cmd => 0x00
  | .status => 0x04
  | .localAddr => 0x08
  | .csSrc => 0x0C
  | .csDst => 0x10
  | .csum => 0x14
  | .rxRemote => 0x18
  | .txDaddr => 0x1C
  | .txSport => 0x20
  | .txDport => 0x24
  | .hSport => 0x28
  | .hDport => 0x2C
  | .hLen => 0x30
  | .hCsum => 0x34
  | .bufDp => 0x38
  | .bufLen => 0x3C
  | .lkResult => 0x40

/-- A command line: the host writes the command's word to `CMD`; the next step executes it
(30_encoding.md R106). -/
def command (i : Instr) : HostAction := .writeWord (offsetOf .cmd) (encode i)

/-- `WR reg, value` (30_encoding.md R107). -/
def wr (r : Reg) (v : Word) : HostAction := .writeWord (offsetOf r) v

/-- `RD reg` (30_encoding.md R107). -/
def rd (r : Reg) : HostAction := .readWord (offsetOf r)

/-- The `index` of `WB` and `RB` (30_encoding.md R107). -/
inductive Index where
  /-- A numeral. -/
  | numeral (i : Nat)
  /-- `dp+k`; `dp` by itself is `dp+0`. -/
  | dpPlus (k : Nat)
  /-- `dp-k`. -/
  | dpMinus (k : Nat)
  deriving DecidableEq, Repr

/-- Write the byte `j` places behind an index. -/
def writeAt (index : Index) (j : Nat) (b : Byte) : HostAction :=
  match index with
  | .numeral i => .writeByte (0x10000 + (i + j)) b
  | .dpPlus k => .writeByteDp ((k : Int) + j) b
  | .dpMinus k => .writeByteDp ((j : Int) - k) b

/-- Read the byte `j` places behind an index. -/
def readAt (index : Index) (j : Nat) : HostAction :=
  match index with
  | .numeral i => .readByte (0x10000 + (i + j))
  | .dpPlus k => .readByteDp ((k : Int) + j)
  | .dpMinus k => .readByteDp ((j : Int) - k)

/-- `WB index, b0 b1 ...` from its byte `j` on. -/
def wbFrom (index : Index) (j : Nat) : List Byte → List HostAction
  | [] => []
  | b :: bytes => writeAt index j b :: wbFrom index (j + 1) bytes

/-- `WB index, b0 b1 ...` (30_encoding.md R107). An index over `dp` is resolved when each byte is written; no byte
written moves `dp`, so all of them see its value at the start of the line. -/
def wb (index : Index) (bytes : List Byte) : List HostAction := wbFrom index 0 bytes

/-- `RB index, n` (30_encoding.md R107), likewise. -/
def rb (index : Index) (n : Nat) : List HostAction := (List.range n).map (readAt index)

/-- The bytes a quoted string stands for, when all its characters are ASCII ones (30_encoding.md R107). -/
def ascii (text : String) : Option (List Byte) :=
  if text.toList.all (fun c => decide (c.toNat < 128)) then
    some (text.toList.map (fun c => BitVec.ofNat 8 c.toNat))
  else none

/-- The dotted form of an address, first byte in bits [31:24] (30_encoding.md R107; 10_state.md R24). -/
def dotted (a0 a1 a2 a3 : Byte) : Word := a0 ++ a1 ++ a2 ++ a3

/-- `CSUMOF src, dst` (30_encoding.md R108). -/
def csumOf (src dst : Word) : List HostAction := [wr .csSrc src, wr .csDst dst, command .csum]

/-- `RECV remote` (30_encoding.md R108). -/
def recv (remote : Word) : List HostAction := [wr .rxRemote remote, command .rx]

/-- `SEND sport, daddr, dport` (30_encoding.md R108). -/
def send (sport : Half) (daddr : Word) (dport : Half) : List HostAction :=
  [wr .txSport (sport.setWidth 32), wr .txDaddr daddr, wr .txDport (dport.setWidth 32), command .tx]

/-- `SENDRAW sport, daddr, dport, bytes` = `BUFINIT |bytes|` ; `WB dp, bytes` ; `SEND sport, daddr, dport`
(30_encoding.md R108; 45_egress.md R206). DESIGN CHOICE (log entry 11): with more than 65535 bytes `BUFINIT |bytes|`
is no command (R106), the spec gives the line no meaning, and it has no expansion here. -/
def sendRaw (sport : Half) (daddr : Word) (dport : Half) (bytes : List Byte) : Option (List HostAction) :=
  if bytes.length ≤ 65535 then
    some (command (.bufinit (BitVec.ofNat 16 bytes.length)) :: wb (.dpPlus 0) bytes ++ send sport daddr dport)
  else none

end Sys2Proof.Machine
end

