-- ==== Sys2Proof/Safety.lean ====
section
/-! DEFINITION. What every reachable state of UDPCE satisfies, in the terms the statements use: the
invariants of 10_state.md R34, R36, R38, R39 and 43_port_registry.md R174, the canonical forms of the data,
and the fields of an event record (10_state.md R41 to R43). -/

namespace Sys2Proof.Machine

/-- The buffer invariant `dp + len <= BUF_CAP` (10_state.md R34). -/
abbrev State.BufferOk (s : State) : Prop := s.dp + s.len ≤ s.cfg.bufCap

/-- `MEM` is in its canonical form and lists no byte outside `0 .. BUF_CAP-1` (10_state.md R33). -/
abbrev State.MemOk (s : State) : Prop := s.mem.wf = true ∧ s.mem.within s.cfg.bufCap = true

/-- The port table is a map of 16-bit ports with at most `PT_CAP` entries (10_state.md R36;
43_port_registry.md R174). -/
abbrev State.TableOk (s : State) : Prop := s.pt.wf = true ∧ s.pt.length ≤ s.cfg.ptCap

/-- `PADDED` is 0 whenever the engine is idle (10_state.md R39) and `SAVE` has 12 bytes (R38). -/
abbrev State.CellsOk (s : State) : Prop := s.padded = false ∧ s.save.length = 12

/-- `FAULT` is `F_NONE` exactly when the outcome is not `O_FAULT` (10_state.md R26; 60_exceptions.md R226). -/
abbrev State.StatusOk (s : State) : Prop := s.fault = .fNone ↔ s.outcome ≠ .oFault

/-- `LK_RESULT` is the word of some answer of the table: bits [30:8] are 0, and `HID` is 0 without `HIT`
(10_state.md R32). -/
abbrev State.LkResultOk (s : State) : Prop :=
  s.lkResult.extractLsb' 8 23 = 0#23 ∧ (s.lkResult.extractLsb' 31 1 = 0#1 → s.lkResult = 0x00000000#32)

/-- The fields an event record always has: lengths that agree, 4-byte addresses, the configured constants,
and a sent datagram whose `total_length` field is its length (10_state.md R41 to R43; 45_egress.md R202). -/
def Event.ok (p : Params) : Event → Bool
  | .deliver _ payload length srcAddr _ => length == payload.length && srcAddr.length == 4
  | .unreach packet srcAddr reason =>
    decide (p.ipHdrSize + 8 ≤ packet.length) && srcAddr.length == 4 && reason == p.unreachReason
  | .netsend packet dstAddr protocol =>
    decide (8 ≤ packet.length) && dstAddr.length == 4 && protocol == p.protoId &&
      (be16 (packet.getD 4 0x00#8) (packet.getD 5 0x00#8)).toNat == packet.length

/-- A packet with bytes 6 and 7, its `checksum` field, replaced by 0x00 (44_ingress.md R183 `D0`;
45_egress.md R202 `packet0`). -/
def withZeroChecksum (packet : List Byte) : List Byte := (packet.set 6 0x00#8).set 7 0x00#8

/-- `T(s)`, the ordinary integer sum of the big-endian words of a byte sequence (42_checksum.md R153). -/
def wordTotal : List Byte → Nat
  | b0 :: b1 :: t => (be16 b0 b1).toNat + wordTotal t
  | _ => 0

/-- The packet has the room a checksum over it needs: `IP_HDR_SIZE` bytes in front and, for an odd length,
one byte behind (42_checksum.md R156; 44_ingress.md R189). -/
abbrev State.HasSumRoom (s : State) : Prop := s.cfg.ipHdrSize ≤ s.dp ∧ ¬ s.lacksPadRoom

/-- Every event of the trace has the fields of its kind. -/
abbrev State.TraceOk (s : State) : Prop := s.trace.all (Event.ok s.cfg) = true

/-- What a host action brings from outside is a content `MEM` and `SAVE` can have. -/
def HostAction.ok (p : Params) : HostAction → Bool
  | .reset _ save => save.length == 12
  | .resetBusy mem _ save => mem.wf && mem.within p.bufCap && save.length == 12
  | .writeWord _ _ | .readWord _ | .writeByte _ _ | .readByte _ | .writeByteDp _ _ | .readByteDp _ | .pollStatus => true

/-- Every host action to come is one the host can do. -/
abbrev State.HostOk (s : State) : Prop := s.host.all (HostAction.ok s.cfg) = true

/-- The invariant of UDPCE: what holds after reset and after every step. -/
abbrev State.Inv (s : State) : Prop :=
  s.cfg.Valid ∧ s.BufferOk ∧ s.MemOk ∧ s.TableOk ∧ s.CellsOk ∧ s.StatusOk ∧ s.LkResultOk ∧ s.TraceOk ∧ s.HostOk

/-- No host action lands during the pending command: the next one to come is neither a reset during it nor a read
of `STATUS` during it. -/
abbrev State.NothingLands (s : State) : Prop := ∀ a rest, s.host = a :: rest → a.lands = false

end Sys2Proof.Machine
end

