-- ==== Sys2Proof/Certificates/Slice0/Obligations.lean ====
section
/-! DEFINITION. The statements for the provers, from the numbered rules of spec/. A statement about a command
gives its whole next state as the state before it with the fields that change, so that every field not named
is unchanged; where `MEM` changes it gives every byte of `MEM` after the command. -/

open Sys2Proof Sys2Proof.Machine

/-! ### Encodings -/

/-- Every command's word decodes to that command, with every operand at every value (30_encoding.md section 2,
R95 to R101). -/
def Obligations.DecodeOfEncode : Prop := ∀ i : Instr, decode (encode i) = .command i

/-- A word that decodes to a command is that command's word: no two words mean one command and no bit of a
legal word is dropped (30_encoding.md section 2, R95 to R101). -/
def Obligations.EncodeOfDecode : Prop := ∀ (w : Word) (i : Instr), decode w = .command i → encode i = w

/-- 30_encoding.md R101 and R103: the command of every word, by its opcode, the bits it may use and its fields; a
word that sets another bit is illegal, and so is one with a reserved opcode, whatever its other bits; an illegal
word executes as a fault. -/
def Obligations.DecoderFollowsUsedBits : Prop :=
  ∀ w : Word,
    (∀ op i, (op, i) ∈ [(0x0#4, Instr.nop), (0x1#4, .csum), (0x5#4, .rx), (0x6#4, .tx), (0xC#4, .hdrrd), (0xD#4, .hdrwr)] →
      w.extractLsb' 0 4 = op →
      decode w = if w &&& ~~~0x0000000F#32 = 0#32 then .command i else .illegal .unusedBits) ∧
    (∀ op mk, (op, mk) ∈ [(0x3#4, Instr.closePort), (0x4#4, .lookup), (0x7#4, .bufinit), (0x8#4, .push), (0x9#4, .pop),
        (0xA#4, .padd), (0xB#4, .padr)] →
      w.extractLsb' 0 4 = op →
      decode w = if w &&& ~~~0xFFFF000F#32 = 0#32 then .command (mk (w.extractLsb' 16 16)) else .illegal .unusedBits) ∧
    (w.extractLsb' 0 4 = 0x2#4 →
      decode w = if w &&& ~~~0xFFFFFF0F#32 = 0#32 then .command (.openPort (w.extractLsb' 16 16) (w.extractLsb' 8 8))
        else .illegal .unusedBits) ∧
    (w.extractLsb' 0 4 = 0xE#4 ∨ w.extractLsb' 0 4 = 0xF#4 → decode w = .illegal .reservedOpcode) ∧
    (∀ why s, decode w = .illegal why →
      runCommand w s = .next { s with cmd := none, outcome := .oFault, fault := .fIllegal })

/-- Words written out from the spec's encodings, one for each format and reserved case (30_encoding.md section 2;
95_test_vectors.md 2.5). -/
def Obligations.WrittenOutWordsDecode : Prop :=
  decode 0x00000000#32 = .command .nop ∧ decode 0x00000001#32 = .command .csum ∧
  decode 0x00350702#32 = .command (.openPort 53#16 7#8) ∧ decode 0x00350003#32 = .command (.closePort 53#16) ∧
  decode 0x00000005#32 = .command .rx ∧ decode 0x00000006#32 = .command .tx ∧
  decode 0x07C00007#32 = .command (.bufinit 1984#16) ∧ decode 0x0000000D#32 = .command .hdrwr ∧
  decode 0x0000000E#32 = .illegal .reservedOpcode ∧ decode 0x00350712#32 = .illegal .unusedBits

/-! ### The step, `CMD`, `STATUS` -/

/-- A pending command word that decodes to a command is run by the next step: the step is `exec` of it
(10_state.md R25; the engine moves before the host, 20_memory.md R74), unless a host action lands during it: a
reset, or a read of `STATUS`. -/
def Obligations.StepRunsDecodedCommand : Prop :=
  ∀ (s : State) (w : Word) (i : Instr),
    s.cmd = some w → s.NothingLands → decode w = .command i → step s = exec i s

/-- 60_exceptions.md R227: an illegal word faults with `F_ILLEGAL`, code 1, whatever the state, and nothing but
`STATUS` changes. -/
def Obligations.IllegalWordFaults : Prop :=
  faultBits .fIllegal = 1#4 ∧
  ∀ (s : State) (w : Word),
    s.cmd = some w → s.NothingLands → legalWord w = false →
      step s = .next { s with cmd := none, outcome := .oFault, fault := .fIllegal }

/-- 10_state.md R25: a host write of `w` to `CMD` while idle makes the engine execute `w` as it decodes in the step
that follows, and it is the only way a command comes to be pending. -/
def Obligations.OnlyCmdWriteStartsCommand : Prop :=
  (∀ (s : State) (w : Word) (rest : List HostAction),
    s.cmd = none → s.host = .writeWord 0 w :: rest →
      step s = .next { s with host := rest, cmd := some w } ∧
      (({ s with host := rest } : State).NothingLands →
        (∀ i, decode w = .command i →
          step { s with host := rest, cmd := some w } = exec i { s with host := rest, cmd := some w }) ∧
        (∀ why, decode w = .illegal why →
          step { s with host := rest, cmd := some w } =
            .next { s with host := rest, cmd := none, outcome := .oFault, fault := .fIllegal }))) ∧
  (∀ s t : State, s.cmd = none → step s = .next t → t.cmd ≠ none →
    ∃ w rest, s.host = .writeWord 0 w :: rest ∧ t.cmd = some w)

/-- The idle engine with no host action to come stays as it is: nothing executes until the host writes `CMD`
(70_reset_and_hazards.md R250, R267). -/
def Obligations.IdleEngineStays : Prop :=
  ∀ s : State, s.cmd = none → s.host = [] → step s = .next s

/-- 10_state.md R26, the fields of `STATUS` as the host reads it: `OUTCOME` in [3:0], `FAULT` in [7:4], zero in
[30:8], `BUSY` in [31], which is 1 exactly while a command is pending. -/
def Obligations.StatusWordFields : Prop :=
  ∀ s : State,
    (readReg s .status).extractLsb' 0 4 = outcomeBits s.outcome ∧
    (readReg s .status).extractLsb' 4 4 = faultBits s.fault ∧
    (readReg s .status).extractLsb' 8 23 = 0#23 ∧
    ((readReg s .status).extractLsb' 31 1 = 1#1 ↔ s.cmd ≠ none)

/-- A read of `STATUS` during a command has `BUSY` = 1 and the codes of the command before it, and changes nothing
in the block: the command is still pending (10_state.md R26; 20_memory.md R66, R74). -/
def Obligations.StatusPollDuringCommand : Prop :=
  ∀ (s : State) (w : Word) (rest : List HostAction), s.cmd = some w → s.host = .pollStatus :: rest →
    step s = .next { s with host := rest, replies := s.replies ++ [readReg s .status] } ∧
    (readReg s .status).extractLsb' 31 1 = 1#1 ∧ (readReg s .status).extractLsb' 0 4 = outcomeBits s.outcome ∧
    (readReg s .status).extractLsb' 4 4 = faultBits s.fault

/-! ### Reset -/

/-- 10_state.md R45 and 70_reset_and_hazards.md R251: what reset leaves, for every configuration and every
content of `MEM`, `ACC` and `SAVE`, which the spec leaves unspecified. -/
def Obligations.ResetLeavesTheSpecValues : Prop :=
  ∀ (p : Params) (mem0 : Memory) (acc0 : Half) (save0 : List Byte), p.Valid →
    let s := State.resetWith p mem0 acc0 save0
    s.cmd = none ∧ s.outcome = .oNone ∧ s.fault = .fNone ∧ readReg s .status = 0x00000000#32 ∧
    (∀ r, r ∈ [Reg.localAddr, .csSrc, .csDst, .csum, .rxRemote, .txDaddr, .txSport, .txDport, .hSport, .hDport,
      .hLen, .hCsum, .bufLen, .lkResult] → readReg s r = 0x00000000#32) ∧
    s.dp = p.bufHeadroom ∧ (readReg s .bufDp).toNat = p.bufHeadroom ∧ s.len = 0 ∧
    (∀ a, s.mem.readByte a = mem0.readByte a) ∧ (∀ port, s.pt.handler port = none) ∧ s.padded = false ∧ s.trace = []

/-- 70_reset_and_hazards.md R250: reset during a command abandons it, with no outcome and no event; reset while
idle does not write `MEM` (R252); either way every piece of state has its reset value. (That the content of `MEM`
after an abandoned command is free is the model's choice, log entry 8; so is it that the list of host actions has an
action for each of the two resets, and that the one meant to land during a command is a reset while idle when none is
pending, log entry 3.) -/
def Obligations.ResetActionResets : Prop :=
  (∀ (s : State) (w : Word) (mem : Memory) (acc : Half) (save : List Byte) (rest : List HostAction),
    s.cmd = some w → s.host = .resetBusy mem acc save :: rest →
      step s = .next { State.resetWith s.cfg mem acc save with host := rest, replies := s.replies }) ∧
  (∀ (s : State) (acc : Half) (save : List Byte) (rest : List HostAction),
    s.cmd = none → s.host = .reset acc save :: rest →
      step s = .next { State.resetWith s.cfg s.mem acc save with host := rest, replies := s.replies }) ∧
  (∀ (s : State) (mem : Memory) (acc : Half) (save : List Byte) (rest : List HostAction),
    s.cmd = none → s.host = .resetBusy mem acc save :: rest →
      step s = .next { State.resetWith s.cfg s.mem acc save with host := rest, replies := s.replies })

/-! ### The host's windows -/

/-- 10_state.md R22 and R23: a host write of a register and what every register then reads. A 32-bit RW register
takes the value, a 16-bit RW register its low 16 bits, an RO register ignores it, `CMD` reads 0; no other
register changes, but that a write of `CMD` raises `BUSY` in `STATUS`; `MEM`, `PT`, `dp`, `len` and the trace
are not touched. -/
def Obligations.RegisterWriteThenRead : Prop :=
  ∀ (s : State) (r : Reg) (v : Word) (rest : List HostAction),
    s.cmd = none → s.host = .writeWord (offsetOf r) v :: rest →
    ∃ t, step s = .next t ∧ t.host = rest ∧ t.mem = s.mem ∧ t.pt = s.pt ∧ t.trace = s.trace ∧
      t.dp = s.dp ∧ t.len = s.len ∧ t.outcome = s.outcome ∧ t.fault = s.fault ∧ t.replies = s.replies ∧
      (r ∈ [Reg.localAddr, .csSrc, .csDst, .rxRemote, .txDaddr] → readReg t r = v) ∧
      (r ∈ [Reg.txSport, .txDport, .hSport, .hDport, .hLen, .hCsum] → readReg t r = v &&& 0x0000FFFF#32) ∧
      (r ∈ [Reg.status, .csum, .bufDp, .bufLen, .lkResult] → readReg t r = readReg s r) ∧
      (readReg t .cmd = 0x00000000#32) ∧ (r = .cmd → t.cmd = some v) ∧ (r ≠ .cmd → t.cmd = none) ∧
      (∀ r', r' ≠ r → (r ≠ .cmd ∨ r' ≠ .status) → readReg t r' = readReg s r')

/-- A host read returns the register or the byte, or 0 at an offset that is neither, be it a 32-bit or a byte read, and
changes nothing in the block (20_memory.md R60, R61, R66, R67; 10_state.md R23). While the engine is idle the read of
`STATUS` that the list of host actions has for a pending command (log entry 3, the model's choice) is a read of
`STATUS` like any other. -/
def Obligations.HostReadsChangeNothing : Prop :=
  ∀ (s : State) (rest : List HostAction), s.cmd = none →
    (∀ r, s.host = .readWord (offsetOf r) :: rest →
      step s = .next { s with host := rest, replies := s.replies ++ [readReg s r] }) ∧
    (∀ off, (∀ r, off ≠ offsetOf r) → (off < 0x10000 ∨ 0x10000 + s.cfg.bufCap ≤ off) →
      s.host = .readWord off :: rest ∨ s.host = .readByte off :: rest →
      step s = .next { s with host := rest, replies := s.replies ++ [0x00000000#32] }) ∧
    (∀ i, i < s.cfg.bufCap → s.host = .readByte (0x10000 + i) :: rest →
      step s = .next { s with host := rest, replies := s.replies ++ [(s.mem.readByte i).setWidth 32] }) ∧
    (s.host = .pollStatus :: rest →
      step s = .next { s with host := rest, replies := s.replies ++ [readReg s .status] })

/-- A host write through the buffer window replaces the byte and nothing else; at an offset that is neither a register
nor in the window, beyond it among them, a write is ignored, be it a 32-bit or a byte write (20_memory.md R61, R67;
10_state.md R23). -/
def Obligations.HostWritesOnlyItsByte : Prop :=
  ∀ (s : State) (b : Byte) (v : Word) (rest : List HostAction), s.cmd = none →
    (∀ i, i < s.cfg.bufCap → s.host = .writeByte (0x10000 + i) b :: rest →
      ∃ t, step s = .next t ∧ t = { s with host := rest, mem := t.mem } ∧
        ∀ a, t.mem.readByte a = if a = i then b else s.mem.readByte a) ∧
    (∀ off, (∀ r, off ≠ offsetOf r) → (off < 0x10000 ∨ 0x10000 + s.cfg.bufCap ≤ off) →
      s.host = .writeWord off v :: rest ∨ s.host = .writeByte off b :: rest → step s = .next { s with host := rest })

/-- A host access at `dp+k` or `dp-k` uses the value of `BUF_DP` at that moment, and is the access through the buffer
window at that index (30_encoding.md R107). An index below 0, for which the spec names no byte, is ignored by a write
and reads 0: the model's choice, log entry 10. -/
def Obligations.DpIndexedAccess : Prop :=
  ∀ (s : State) (k : Int) (b : Byte) (rest : List HostAction), s.cmd = none →
    (∀ i : Nat, (s.dp : Int) + k = i →
      (s.host = .writeByteDp k b :: rest → ∃ t, step s = .next t ∧ t = { s with host := rest, mem := t.mem } ∧
        ∀ a, t.mem.readByte a = if a = i ∧ i < s.cfg.bufCap then b else s.mem.readByte a) ∧
      (s.host = .readByteDp k :: rest → step s = .next { s with
        host := rest
        replies := s.replies ++ [if i < s.cfg.bufCap then (s.mem.readByte i).setWidth 32 else 0x00000000#32] })) ∧
    ((s.dp : Int) + k < 0 →
      (s.host = .writeByteDp k b :: rest → step s = .next { s with host := rest }) ∧
      (s.host = .readByteDp k :: rest →
        step s = .next { s with host := rest, replies := s.replies ++ [0x00000000#32] }))

/-- A byte access in the register window. An offset that the table of 10_state.md R22 does not list reads as 0 and
ignores writes (R23), an RO register ignores the write (R22), `CMD` reads 0 (R22) and no command starts (R25: a write
of a 32-bit word is the only way). Which bits a byte carries is a property of the bus (R23), so that an RW register
then holds a value, and a register is read as a byte, that is left free is the model's choice, log entry 7; the write
changes no other piece of state, and the read none (20_memory.md R66). -/
def Obligations.ByteAccessInRegisterWindow : Prop :=
  ∀ (s : State) (off : Nat) (b : Byte) (rest : List HostAction), s.cmd = none → off < 0x44 →
    (s.host = .writeByte off b :: rest →
      ((∀ r, off ≠ offsetOf r) → step s = .next { s with host := rest }) ∧
      (∀ r, off = offsetOf r → r ∈ [Reg.cmd, .status, .csum, .bufDp, .bufLen, .lkResult] →
        step s = .next { s with host := rest }) ∧
      (∀ r, off = offsetOf r → r ∈ [Reg.localAddr, .csSrc, .csDst, .rxRemote, .txDaddr, .txSport, .txDport, .hSport,
          .hDport, .hLen, .hCsum] → ∃ v, step s = .next (writeReg { s with host := rest } r v))) ∧
    (s.host = .readByte off :: rest →
      ((∀ r, off ≠ offsetOf r) → step s = .next { s with host := rest, replies := s.replies ++ [0x00000000#32] }) ∧
      (off = offsetOf .cmd → step s = .next { s with host := rest, replies := s.replies ++ [0x00000000#32] }) ∧
      (∀ r, off = offsetOf r → ∃ b' : Byte,
        step s = .next { s with host := rest, replies := s.replies ++ [b'.setWidth 32] }))

/-- A 32-bit access at index `i` of the buffer window, which is accessed one byte at a time (20_memory.md R60). The
spec states no result for it: that it runs, that the write leaves free values in the at most four bytes of the window
from index `i` on and nothing else changed, and that the read returns a free word, is the model's choice, log entry 7.
The read has no side effect (20_memory.md R66). -/
def Obligations.WideAccessInBufferWindow : Prop :=
  ∀ (s : State) (i : Nat) (v : Word) (rest : List HostAction), s.cmd = none → i < s.cfg.bufCap →
    (s.host = .writeWord (0x10000 + i) v :: rest →
      ∃ t, step s = .next t ∧ t = { s with host := rest, mem := t.mem } ∧
        ∀ a, (a < i ∨ i + 4 ≤ a ∨ s.cfg.bufCap ≤ a) → t.mem.readByte a = s.mem.readByte a) ∧
    (s.host = .readWord (0x10000 + i) :: rest →
      ∃ w, step s = .next { s with host := rest, replies := s.replies ++ [w] })

/-! ### The packet buffer -/

/-- 40_control_and_buffer_ops.md R121, R122, R123, R124 and R126: NOP, BUFINIT, PUSH, POP and PADR, with the word,
the next state when the room is there, and the `F_ROOM` fault when it is not. `MEM` is not written. -/
def Obligations.WindowCommands : Prop :=
  encode .nop = 0x00000000#32 ∧
  ∀ (s : State) (n : Half),
    exec .nop s = .next { s with cmd := none, outcome := .oOk, fault := .fNone } ∧
    encode (.bufinit n) = n ++ 0x0007#16 ∧
    (s.cfg.bufHeadroom + n.toNat ≤ s.cfg.bufCap → exec (.bufinit n) s =
      .next { s with cmd := none, outcome := .oOk, fault := .fNone, dp := s.cfg.bufHeadroom, len := n.toNat }) ∧
    (s.cfg.bufCap < s.cfg.bufHeadroom + n.toNat → exec (.bufinit n) s =
      .next { s with cmd := none, outcome := .oFault, fault := .fRoom }) ∧
    encode (.push n) = n ++ 0x0008#16 ∧
    (n.toNat ≤ s.dp → exec (.push n) s =
      .next { s with cmd := none, outcome := .oOk, fault := .fNone, dp := s.dp - n.toNat, len := s.len + n.toNat }) ∧
    (s.dp < n.toNat → exec (.push n) s = .next { s with cmd := none, outcome := .oFault, fault := .fRoom }) ∧
    encode (.pop n) = n ++ 0x0009#16 ∧
    (n.toNat ≤ s.len → exec (.pop n) s =
      .next { s with cmd := none, outcome := .oOk, fault := .fNone, dp := s.dp + n.toNat, len := s.len - n.toNat }) ∧
    (s.len < n.toNat → exec (.pop n) s = .next { s with cmd := none, outcome := .oFault, fault := .fRoom }) ∧
    encode (.padr n) = n ++ 0x000B#16 ∧
    (n.toNat ≤ s.len → exec (.padr n) s =
      .next { s with cmd := none, outcome := .oOk, fault := .fNone, len := s.len - n.toNat }) ∧
    (s.len < n.toNat → exec (.padr n) s = .next { s with cmd := none, outcome := .oFault, fault := .fRoom })

/-- 40_control_and_buffer_ops.md R125: PADD n writes `n` zero bytes behind the packet and no other byte, and
lengthens the packet; without the tailroom it faults `F_ROOM`. -/
def Obligations.PaddAppendsZeros : Prop :=
  ∀ (s : State) (n : Half),
    encode (.padd n) = n ++ 0x000A#16 ∧
    (s.dp + s.len + n.toNat ≤ s.cfg.bufCap → ∃ t, exec (.padd n) s = .next t ∧
      t = { s with cmd := none, outcome := .oOk, fault := .fNone, len := s.len + n.toNat, mem := t.mem } ∧
      ∀ a, t.mem.readByte a =
        if s.dp + s.len ≤ a ∧ a < s.dp + s.len + n.toNat then 0x00#8 else s.mem.readByte a) ∧
    (s.cfg.bufCap < s.dp + s.len + n.toNat → exec (.padd n) s =
      .next { s with cmd := none, outcome := .oFault, fault := .fRoom })

/-- 40_control_and_buffer_ops.md R127, the laws of the primitives: (a) which write `MEM`; (b) a push then a pop of
the same size is the identity; (c) a push then a pop of less is a push of the difference; (d) a pad then its
removal is the identity on `dp`, `len` and zeroes the bytes; (e) each keeps the buffer invariant. -/
def Obligations.PrimitiveLaws : Prop :=
  (∀ (s t : State) (n : Half) (i : Instr), i ∈ [Instr.push n, .pop n, .padr n, .bufinit n, .nop] →
    exec i s = .next t → t.mem = s.mem) ∧
  (∀ (s t : State) (n : Half) (a : Nat), exec (.padd n) s = .next t →
    ¬ (s.dp + s.len ≤ a ∧ a < s.dp + s.len + n.toNat) → t.mem.readByte a = s.mem.readByte a) ∧
  (∀ (s : State) (n : Nat), n ≤ s.dp → bufPop (bufPush s n) n = s) ∧
  (∀ (s : State) (n m : Nat), m ≤ n → n ≤ s.dp → bufPop (bufPush s n) m = bufPush s (n - m) ∧
    (bufPush s (n - m)).dp = s.dp - (n - m) ∧ (bufPush s (n - m)).len = s.len + (n - m)) ∧
  (∀ (s : State) (n : Nat), (padRemove (padAdd s n) n).dp = s.dp ∧ (padRemove (padAdd s n) n).len = s.len ∧
    ∀ a, s.dp + s.len ≤ a → a < s.dp + s.len + n → (padRemove (padAdd s n) n).mem.readByte a = 0x00#8) ∧
  (∀ (s t : State) (n : Half) (i : Instr), i ∈ [Instr.push n, .pop n, .padr n, .padd n, .bufinit n] → s.BufferOk →
    exec i s = .next t → t.BufferOk)

/-! ### Header record -/

/-- 41_header_ops.md R141: HDRRD reads the four big-endian fields of the first 8 bytes into the header record and
changes nothing else; a packet of fewer than 8 bytes faults `F_SHORT`. -/
def Obligations.HdrrdParsesHeader : Prop :=
  encode .hdrrd = 0x0000000C#32 ∧
  ∀ s : State,
    (8 ≤ s.len → s.BufferOk → exec .hdrrd s =
      .next { s with
        cmd := none, outcome := .oOk, fault := .fNone
        hSport := be16 (s.mem.readByte s.dp) (s.mem.readByte (s.dp + 1))
        hDport := be16 (s.mem.readByte (s.dp + 2)) (s.mem.readByte (s.dp + 3))
        hLen := be16 (s.mem.readByte (s.dp + 4)) (s.mem.readByte (s.dp + 5))
        hCsum := be16 (s.mem.readByte (s.dp + 6)) (s.mem.readByte (s.dp + 7)) }) ∧
    (s.len < 8 → exec .hdrrd s = .next { s with cmd := none, outcome := .oFault, fault := .fShort })

/-- 41_header_ops.md R142: HDRWR writes the header record, big-endian, over exactly the first 8 bytes of the
packet and changes nothing else; a packet of fewer than 8 bytes faults `F_SHORT`. -/
def Obligations.HdrwrBuildsHeader : Prop :=
  encode .hdrwr = 0x0000000D#32 ∧
  ∀ s : State,
    (8 ≤ s.len → s.BufferOk → ∃ t, exec .hdrwr s = .next t ∧
      t = { s with cmd := none, outcome := .oOk, fault := .fNone, mem := t.mem } ∧
      ∀ a, t.mem.readByte a =
        if s.dp ≤ a ∧ a < s.dp + 8 then (headerBytes s.hSport s.hDport s.hLen s.hCsum).getD (a - s.dp) 0x00#8
        else s.mem.readByte a) ∧
    (s.len < 8 → exec .hdrwr s = .next { s with cmd := none, outcome := .oFault, fault := .fShort })

/-- 41_header_ops.md R143: HDRWR then HDRRD leaves the record unchanged, HDRRD then HDRWR leaves `MEM` unchanged,
for every value of every field; and the two directions of the byte-order conversion lose nothing. -/
def Obligations.HeaderRoundTrip : Prop :=
  (∀ s : State, 8 ≤ s.len → s.BufferOk →
    (∃ t u, exec .hdrwr s = .next t ∧ exec .hdrrd t = .next u ∧ u.hSport = s.hSport ∧ u.hDport = s.hDport ∧
      u.hLen = s.hLen ∧ u.hCsum = s.hCsum) ∧
    (∃ t u, exec .hdrrd s = .next t ∧ exec .hdrwr t = .next u ∧ ∀ a, u.mem.readByte a = s.mem.readByte a)) ∧
  (∀ v : Half, be16 (hi8 v) (lo8 v) = v) ∧ (∀ a b : Byte, [hi8 (be16 a b), lo8 (be16 a b)] = [a, b])

/-! ### Port table -/

/-- 43_port_registry.md R171: OPEN creates or overwrites the entry of its port and of no other, and fails, with
`PT` unchanged and no fault, exactly when the port is absent and the table full. -/
def Obligations.OpenRegistersHandler : Prop :=
  ∀ (s : State) (port : Half) (hid : Byte),
    encode (.openPort port hid) = port ++ hid ++ 0x02#8 ∧
    (s.pt.handler port = none ∧ s.pt.length = s.cfg.ptCap → exec (.openPort port hid) s =
      .next { s with cmd := none, outcome := .oOpenFail, fault := .fNone }) ∧
    (¬ (s.pt.handler port = none ∧ s.pt.length = s.cfg.ptCap) → ∃ t, exec (.openPort port hid) s = .next t ∧
      t = { s with cmd := none, outcome := .oOk, fault := .fNone, pt := t.pt } ∧
      (∀ q, t.pt.handler q = if q = port then some hid else s.pt.handler q) ∧
      (s.pt.wf = true → t.pt.length = if s.pt.handler port = none then s.pt.length + 1 else s.pt.length))

/-- 43_port_registry.md R172: CLOSE removes the entry of its port and no other, and is no error when there is
none; afterwards the table has one entry less when the entry existed. -/
def Obligations.CloseRemovesHandler : Prop :=
  ∀ (s : State) (port : Half),
    encode (.closePort port) = port ++ 0x0003#16 ∧
    ∃ t, exec (.closePort port) s = .next t ∧
      t = { s with cmd := none, outcome := .oOk, fault := .fNone, pt := t.pt } ∧
      (∀ q, t.pt.handler q = if q = port then none else s.pt.handler q) ∧
      (s.pt.wf = true → t.pt.length + (if s.pt.handler port = none then 0 else 1) = s.pt.length)

/-- 43_port_registry.md R173: LOOKUP puts `HIT` and the handler id, or 0, into `LK_RESULT` and changes nothing
else but `STATUS`. -/
def Obligations.LookupReadsTable : Prop :=
  ∀ (s : State) (port : Half),
    encode (.lookup port) = port ++ 0x0004#16 ∧
    (s.pt.handler port = none → exec (.lookup port) s =
      .next { s with cmd := none, outcome := .oOk, fault := .fNone, lkResult := 0x00000000#32 }) ∧
    (∀ hid, s.pt.handler port = some hid → exec (.lookup port) s =
      .next { s with cmd := none, outcome := .oOk, fault := .fNone, lkResult := 1#1 ++ 0#23 ++ hid })

/-- Opening a port twice leaves the second handler, never the first, and closing an opened port leaves none
(43_port_registry.md R171, R172; 95_test_vectors.md T7, T8). -/
def Obligations.OverwriteAndClose : Prop :=
  ∀ (s : State) (port : Half) (h1 h2 : Byte),
    ¬ (s.pt.handler port = none ∧ s.pt.length = s.cfg.ptCap) →
    ∃ t u v, exec (.openPort port h1) s = .next t ∧ exec (.openPort port h2) t = .next u ∧
      exec (.closePort port) u = .next v ∧ t.outcome = .oOk ∧ u.outcome = .oOk ∧ v.outcome = .oOk ∧
      t.pt.handler port = some h1 ∧ u.pt.handler port = some h2 ∧ v.pt.handler port = none

/-! ### The checksum -/

/-- 42_checksum.md R152: the laws of `oc_add16`, for all 16-bit values, and that the sum does not depend on the
order of the words. -/
def Obligations.AdderLaws : Prop :=
  (∀ a b, ocAdd16 a b = ocAdd16 b a) ∧ (∀ a b c, ocAdd16 (ocAdd16 a b) c = ocAdd16 a (ocAdd16 b c)) ∧
  (∀ ws vs : List (Byte × Byte), ws.Perm vs →
    ocSum (ws.flatMap fun w => [w.1, w.2]) = ocSum (vs.flatMap fun w => [w.1, w.2])) ∧
  (∀ a, ocAdd16 a 0x0000#16 = a) ∧ (∀ a, a ≠ 0x0000#16 → ocAdd16 a 0xFFFF#16 = a) ∧
  ocAdd16 0x0000#16 0xFFFF#16 = 0xFFFF#16 ∧
  (∀ a b, ocAdd16 a b = 0x0000#16 → a = 0x0000#16 ∧ b = 0x0000#16) ∧ (∀ a, ocAdd16 a (~~~a) = 0xFFFF#16)

/-- The closed form of the sum modulo 65535, and when it takes its two extreme values (42_checksum.md R153). -/
def Obligations.SumClosedForm : Prop :=
  ∀ l : List Byte, l.length % 2 = 0 →
    (ocSum l).toNat = (if wordTotal l = 0 then 0 else (wordTotal l - 1) % 65535 + 1) ∧
    (ocSum l = 0x0000#16 ↔ ∀ b ∈ l, b = 0x00#8) ∧
    (ocSum l = 0xFFFF#16 ↔ 0 < wordTotal l ∧ wordTotal l % 65535 = 0)

/-- 42_checksum.md R159: a checksum over at least 8 bytes is never 0xFFFF, and is 0x0000 exactly when the total
of the input's words is a multiple of 65535; with the rule's example. -/
def Obligations.ChecksumNeverAllOnes : Prop :=
  (∀ (p : Byte) (src dst data : List Byte), src.length = 4 → dst.length = 4 → 8 ≤ data.length → data.length ≤ 65535 →
    checksum p src dst data ≠ 0xFFFF#16 ∧
    (checksum p src dst data = 0x0000#16 ↔ wordTotal (csumInput p src dst data) % 65535 = 0)) ∧
  checksum 0x11#8 [0#8, 0#8, 0#8, 0#8] [0#8, 0#8, 0#8, 0#8]
    [0x00#8, 0x00#8, 0x00#8, 0x00#8, 0x00#8, 0x0A#8, 0x00#8, 0x00#8, 0xFF#8, 0xDA#8] = 0x0000#16

/-- Swapping the two addresses does not change the checksum (42_checksum.md R160). -/
def Obligations.ChecksumAddressSwap : Prop :=
  ∀ (p : Byte) (a b data : List Byte), a.length = 4 → b.length = 4 → checksum p a b data = checksum p b a data

/-- A change of exactly one bit of the packet, or of one bit of the source or the destination address, changes
the checksum (42_checksum.md R162). -/
def Obligations.SingleBitChangesChecksum : Prop :=
  ∀ (p : Byte) (src dst data : List Byte) (i k : Nat), src.length = 4 → dst.length = 4 → k < 8 →
    (i < data.length → checksum p src dst (data.set i (data.getD i 0x00#8 ^^^ (1#8 <<< k))) ≠ checksum p src dst data) ∧
    (i < 4 → checksum p (src.set i (src.getD i 0x00#8 ^^^ (1#8 <<< k))) dst data ≠ checksum p src dst data) ∧
    (i < 4 → checksum p src (dst.set i (dst.getD i 0x00#8 ^^^ (1#8 <<< k))) data ≠ checksum p src dst data)

/-- 42_checksum.md R157, for the command CSUM: the in-place algorithm leaves the pure function's value in `CSUM`,
`dp`, `len` and every byte of `MEM` as they were but a zero behind an odd-length packet, `PADDED` 0, `ACC` the
complement of `CSUM`, `SAVE` the 12 bytes in front of the packet, and nothing else changed but `STATUS`. -/
def Obligations.CsumEndState : Prop :=
  ∀ s : State, s.cfg.Valid → s.BufferOk → s.padded = false → 8 ≤ s.len → s.HasSumRoom →
    ∃ t, exec .csum s = .next t ∧
      t = { s with
        cmd := none, outcome := .oOk, fault := .fNone
        csum := checksum s.cfg.protoId (addrBytes s.csSrc) (addrBytes s.csDst) s.data
        acc := ~~~checksum s.cfg.protoId (addrBytes s.csSrc) (addrBytes s.csDst) s.data
        save := s.mem.readBytes (s.dp - 12) 12
        mem := t.mem } ∧
      (∀ a, t.mem.readByte a = if s.len % 2 = 1 ∧ a = s.dp + s.len then 0x00#8 else s.mem.readByte a) ∧
      t.data = s.data

/-! ### Faults and priority -/

/-- 60_exceptions.md R229: CSUM, HDRRD and HDRWR with a packet of fewer than 8 bytes fault with `F_SHORT`, code 3,
whatever the room; RX and TX never raise it. -/
def Obligations.ShortPacketFaults : Prop :=
  faultBits .fShort = 3#4 ∧
  ∀ (s : State), (∀ i, i ∈ [Instr.csum, .hdrrd, .hdrwr] → s.len < 8 →
      exec i s = .next { s with cmd := none, outcome := .oFault, fault := .fShort }) ∧
    (∀ i t, i ∈ [Instr.rx, .tx] → exec i s = .next t → t.fault ≠ .fShort)

/-- 60_exceptions.md R228: `F_ROOM`, code 2, and the conditions under which each command raises it: exactly
these, and it raises nothing else in their place. -/
def Obligations.RoomFaults : Prop :=
  faultBits .fRoom = 2#4 ∧
  ∀ (s : State) (n : Half),
    let room : Result := .next { s with cmd := none, outcome := .oFault, fault := .fRoom }
    (s.cfg.bufHeadroom + n.toNat > s.cfg.bufCap ↔ exec (.bufinit n) s = room) ∧
    (n.toNat > s.dp ↔ exec (.push n) s = room) ∧ (n.toNat > s.len ↔ exec (.pop n) s = room) ∧
    (s.dp + s.len + n.toNat > s.cfg.bufCap ↔ exec (.padd n) s = room) ∧ (n.toNat > s.len ↔ exec (.padr n) s = room) ∧
    (8 ≤ s.len → ((s.dp < s.cfg.ipHdrSize ∨ s.lacksPadRoom) ↔ exec .csum s = room)) ∧
    (8 ≤ s.len → ((s.dp < s.cfg.ipHdrSize ∨ s.lacksPadRoom) ↔ exec .rx s = room)) ∧
    ((s.dp < 8 + s.cfg.ipHdrSize ∨ s.lacksPadRoom) ↔ exec .tx s = room)

/-- 60_exceptions.md R233 and R226: the state after a faulting command, a legal or an illegal word, is the state
before it, but for `STATUS`, which holds `O_FAULT` and a fault code other than `F_NONE` with `BUSY` cleared. -/
def Obligations.FaultChangesOnlyStatus : Prop :=
  ∀ (w : Word) (s t : State), runCommand w s = .next t → t.outcome = .oFault →
    t.fault ≠ .fNone ∧ t = { s with cmd := none, outcome := .oFault, fault := t.fault }

/-- With a packet that does not lie inside `MEM`, a state no run reaches, the commands that would reach `MEM` stop
by name when no fault of the spec comes first (10_state.md R34, 00_scope.md R12; the model's choice, log entry
6). -/
def Obligations.BrokenBufferStops : Prop :=
  ∀ s : State, ¬ s.BufferOk →
    (8 ≤ s.len → exec .hdrrd s = .fault .bufferRange ∧ exec .hdrwr s = .fault .bufferRange) ∧
    (8 ≤ s.len → s.HasSumRoom → exec .csum s = .fault .bufferRange ∧ exec .rx s = .fault .bufferRange) ∧
    (8 + s.cfg.ipHdrSize ≤ s.dp → ¬ s.lacksPadRoom → exec .tx s = .fault .bufferRange)

/-! ### RX -/

/-- 44_ingress.md R182: RX of a packet of fewer than 8 bytes ends `O_DROP_SHORT`, whatever the room, and changes
nothing but `STATUS`; no event is emitted. -/
def Obligations.RxDropsShort : Prop :=
  ∀ s : State, s.len < 8 → exec .rx s = .next { s with cmd := none, outcome := .oDropShort, fault := .fNone }

/-- 44_ingress.md R183: the checksum is recomputed over the datagram with its `checksum` field zeroed. When it
differs from the stored one, RX ends `O_DROP_CSUM` with the field left zero, the stored value in `H_CSUM`, the
recomputed one in `CSUM`, and no event; a stored 0xFFFF always differs. When it is the stored one, RX does not
drop the datagram and the bytes of the packet are as received. -/
def Obligations.RxDropsCorrupt : Prop :=
  ∀ s : State, s.cfg.Valid → s.BufferOk → s.padded = false → 8 ≤ s.len → s.HasSumRoom →
    let fresh := checksum s.cfg.protoId (addrBytes s.rxRemote) (addrBytes s.localAddr) (withZeroChecksum s.data)
    (fresh ≠ rd16 s 6 → ∃ t, exec .rx s = .next t ∧
      t = { s with
        cmd := none, outcome := .oDropCsum, fault := .fNone
        hCsum := rd16 s 6, csum := fresh, acc := ~~~fresh, save := s.mem.readBytes (s.dp - 12) 12
        mem := t.mem } ∧
      ∀ a, t.mem.readByte a =
        if a = s.dp + 6 ∨ a = s.dp + 7 ∨ (s.len % 2 = 1 ∧ a = s.dp + s.len) then 0x00#8 else s.mem.readByte a) ∧
    (rd16 s 6 = 0xFFFF#16 → fresh ≠ rd16 s 6) ∧
    (fresh = rd16 s 6 → ∃ t, exec .rx s = .next t ∧ (t.outcome = .oUnreachable ∨ t.outcome = .oDelivered) ∧
      ∀ a, t.mem.readByte a = if s.len % 2 = 1 ∧ a = s.dp + s.len then 0x00#8 else s.mem.readByte a)

/-- 44_ingress.md R184: a datagram whose checksum matches, for a port with no handler, ends `O_UNREACHABLE`: the
region in front is re-attached and one `EV_UNREACH` carries it and the datagram as received, the remote address
and the reason code. -/
def Obligations.RxMissNotifies : Prop :=
  ∀ s : State, s.cfg.Valid → s.BufferOk → s.padded = false → 8 ≤ s.len → s.HasSumRoom →
    checksum s.cfg.protoId (addrBytes s.rxRemote) (addrBytes s.localAddr) (withZeroChecksum s.data) = rd16 s 6 →
    s.pt.handler (rd16 s 2) = none →
    ∃ t, exec .rx s = .next t ∧
      t = { s with
        cmd := none, outcome := .oUnreachable, fault := .fNone
        hCsum := rd16 s 6, hDport := rd16 s 2, csum := rd16 s 6, acc := ~~~rd16 s 6
        save := s.mem.readBytes (s.dp - 12) 12
        dp := s.dp - s.cfg.ipHdrSize, len := s.len + s.cfg.ipHdrSize
        trace := s.trace ++ [.unreach (s.mem.readBytes (s.dp - s.cfg.ipHdrSize) (s.cfg.ipHdrSize + s.len))
          (addrBytes s.rxRemote) s.cfg.unreachReason]
        mem := t.mem } ∧
      ∀ a, t.mem.readByte a = if s.len % 2 = 1 ∧ a = s.dp + s.len then 0x00#8 else s.mem.readByte a

/-- 44_ingress.md R185: a datagram whose checksum matches, for a port with a handler, ends `O_DELIVERED`: the
header is removed and one `EV_DELIVER` carries the handler id, the payload, its length, the remote address and
the source port. -/
def Obligations.RxHitDelivers : Prop :=
  ∀ (s : State) (hid : Byte), s.cfg.Valid → s.BufferOk → s.padded = false → 8 ≤ s.len → s.HasSumRoom →
    checksum s.cfg.protoId (addrBytes s.rxRemote) (addrBytes s.localAddr) (withZeroChecksum s.data) = rd16 s 6 →
    s.pt.handler (rd16 s 2) = some hid →
    ∃ t, exec .rx s = .next t ∧
      t = { s with
        cmd := none, outcome := .oDelivered, fault := .fNone
        hCsum := rd16 s 6, hDport := rd16 s 2, hSport := rd16 s 0, csum := rd16 s 6, acc := ~~~rd16 s 6
        save := s.mem.readBytes (s.dp - 12) 12
        dp := s.dp + 8, len := s.len - 8
        trace := s.trace ++ [.deliver hid (s.mem.readBytes (s.dp + 8) (s.len - 8)) (s.len - 8)
          (addrBytes s.rxRemote) (rd16 s 0)]
        mem := t.mem } ∧
      ∀ a, t.mem.readByte a = if s.len % 2 = 1 ∧ a = s.dp + s.len then 0x00#8 else s.mem.readByte a

/-- Flipping any single bit of a datagram that RX accepts, header, `checksum` field and payload alike, makes RX
drop it: no handler invocation and no unreachable notification (44_ingress.md R188; 95_test_vectors.md T6). -/
def Obligations.CorruptionIsDropped : Prop :=
  ∀ (s t : State) (i k : Nat), s.cfg.Valid → s.BufferOk → s.padded = false → i < s.len → k < 8 →
    exec .rx s = .next t → (t.outcome = .oDelivered ∨ t.outcome = .oUnreachable) →
    ∃ u, exec .rx { s with mem := s.mem.writeByte (s.dp + i) (s.mem.readByte (s.dp + i) ^^^ (1#8 <<< k)) } = .next u ∧
      u.outcome = .oDropCsum ∧ u.trace = s.trace

/-- 44_ingress.md R187: the registers RX writes, by outcome; `H_LEN`, `LK_RESULT`, `RX_REMOTE`, `LOCAL_ADDR` and
`PT` never. -/
def Obligations.RxWritesListedRegisters : Prop :=
  ∀ s t : State, s.cfg.Valid → s.padded = false → exec .rx s = .next t →
    t.hLen = s.hLen ∧ t.lkResult = s.lkResult ∧ t.rxRemote = s.rxRemote ∧ t.localAddr = s.localAddr ∧ t.pt = s.pt ∧
    t.csSrc = s.csSrc ∧ t.csDst = s.csDst ∧ t.txSport = s.txSport ∧ t.txDport = s.txDport ∧ t.txDaddr = s.txDaddr ∧
    (t.outcome = .oDropShort ∨ t.outcome = .oFault → t.hCsum = s.hCsum ∧ t.csum = s.csum) ∧
    (t.outcome ≠ .oUnreachable → t.outcome ≠ .oDelivered → t.hDport = s.hDport ∧ t.dp = s.dp ∧ t.len = s.len) ∧
    (t.outcome ≠ .oDelivered → t.hSport = s.hSport) ∧
    (t.outcome = .oUnreachable ∨ t.outcome = .oDelivered ∨ t.outcome = .oDropCsum ∨ t.outcome = .oDropShort ∨
      t.outcome = .oFault)

/-! ### TX -/

/-- 45_egress.md R201: TX puts the header in front of the payload, with the ports, the total length and the
checksum over header and payload, and hands the datagram over in one `EV_NETSEND`; the payload and every other
byte are unchanged but a zero behind an odd-length packet. Without the room it faults `F_ROOM`. -/
def Obligations.TxSendsDatagram : Prop :=
  encode .tx = 0x00000006#32 ∧
  ∀ s : State,
    (s.dp < 8 + s.cfg.ipHdrSize ∨ s.lacksPadRoom → exec .tx s =
      .next { s with cmd := none, outcome := .oFault, fault := .fRoom }) ∧
    (s.cfg.Valid → s.BufferOk → s.padded = false → 8 + s.cfg.ipHdrSize ≤ s.dp → ¬ s.lacksPadRoom →
      let total : Half := BitVec.ofNat 16 (s.len + 8)
      let sum := checksum s.cfg.protoId (addrBytes s.localAddr) (addrBytes s.txDaddr)
        (headerBytes s.txSport s.txDport total 0x0000#16 ++ s.data)
      let header := headerBytes s.txSport s.txDport total sum
      total.toNat = s.len + 8 ∧
      ∃ t, exec .tx s = .next t ∧
        t = { s with
          cmd := none, outcome := .oSent, fault := .fNone
          hSport := s.txSport, hDport := s.txDport, hLen := total, hCsum := sum, csum := sum, acc := ~~~sum
          save := s.mem.readBytes (s.dp - 20) 12
          dp := s.dp - 8, len := s.len + 8
          trace := s.trace ++ [.netsend (header ++ s.data) (addrBytes s.txDaddr) s.cfg.protoId]
          mem := t.mem } ∧
        ∀ a, t.mem.readByte a =
          if s.dp - 8 ≤ a ∧ a < s.dp then header.getD (a - (s.dp - 8)) 0x00#8
          else if s.len % 2 = 1 ∧ a = s.dp + s.len then 0x00#8
          else s.mem.readByte a)

/-- 45_egress.md R202: in the packet TX hands over, the `total_length` field is the packet's length and the
`checksum` field the checksum of the packet with that field zero. -/
def Obligations.TxGuarantee : Prop :=
  ∀ s t : State, s.cfg.Valid → s.BufferOk → s.padded = false → exec .tx s = .next t → t.outcome = .oSent →
    ∃ packet, t.trace = s.trace ++ [.netsend packet (addrBytes s.txDaddr) s.cfg.protoId] ∧
      packet.length = s.len + 8 ∧
      (be16 (packet.getD 4 0x00#8) (packet.getD 5 0x00#8)).toNat = packet.length ∧
      be16 (packet.getD 6 0x00#8) (packet.getD 7 0x00#8) =
        checksum s.cfg.protoId (addrBytes s.localAddr) (addrBytes s.txDaddr) (withZeroChecksum packet)

/-- 45_egress.md R205: a datagram sent by one unit is never dropped as corrupt by a unit with the same protocol
identifier whose remote address is the sender's local address and whose local address is the sender's target,
given that it holds the packet and has room. -/
def Obligations.SendReceiveRoundTrip : Prop :=
  ∀ (s t r : State) (packet : List Byte), s.cfg.Valid → s.BufferOk → s.padded = false →
    exec .tx s = .next t → t.trace = s.trace ++ [.netsend packet (addrBytes s.txDaddr) s.cfg.protoId] →
    r.cfg.Valid → r.BufferOk → r.padded = false → r.cfg.protoId = s.cfg.protoId → r.HasSumRoom →
    r.data = packet → r.rxRemote = s.localAddr → r.localAddr = s.txDaddr →
    ∃ u, exec .rx r = .next u ∧ (u.outcome = .oDelivered ∨ u.outcome = .oUnreachable)

/-- TX of a buffer prepared with BUFINIT always sends, but for an odd length that fills the buffer to its last
byte (45_egress.md R206; 70_reset_and_hazards.md R261). -/
def Obligations.TxAfterBufinitSends : Prop :=
  ∀ (s : State) (n : Half), s.cfg.Valid → s.padded = false → s.cfg.bufHeadroom + n.toNat ≤ s.cfg.bufCap →
    ∃ t u, exec (.bufinit n) s = .next t ∧ exec .tx t = .next u ∧
      (¬ (n.toNat % 2 = 1 ∧ s.cfg.bufHeadroom + n.toNat = s.cfg.bufCap) → u.outcome = .oSent) ∧
      (n.toNat % 2 = 1 ∧ s.cfg.bufHeadroom + n.toNat = s.cfg.bufCap → u.outcome = .oFault ∧ u.fault = .fRoom)

/-! ### The whole machine -/

/-- Any command, with any operands, in any state with a packet inside `MEM`, completes in one step with `BUSY`
cleared (70_reset_and_hazards.md R266, R271). -/
def Obligations.EveryCommandCompletes : Prop :=
  ∀ (i : Instr) (s : State), s.BufferOk → ∃ t, exec i s = .next t ∧ t.cmd = none

/-- The outcomes each command can end with, and their codes (60_exceptions.md R220). -/
def Obligations.OutcomesOfCommands : Prop :=
  (outcomeBits .oNone = 0#4 ∧ outcomeBits .oOk = 1#4 ∧ outcomeBits .oDropShort = 2#4 ∧ outcomeBits .oDropCsum = 3#4 ∧
    outcomeBits .oUnreachable = 4#4 ∧ outcomeBits .oDelivered = 5#4 ∧ outcomeBits .oSent = 6#4 ∧
    outcomeBits .oOpenFail = 7#4 ∧ outcomeBits .oFault = 8#4) ∧
  ∀ (i : Instr) (s t : State), exec i s = .next t →
    (t.outcome = .oFault ↔ t.fault ≠ .fNone) ∧
    match i with
    | .rx => t.outcome ∈ [OutcomeCode.oDropShort, .oDropCsum, .oUnreachable, .oDelivered, .oFault]
    | .tx => t.outcome ∈ [OutcomeCode.oSent, .oFault]
    | .openPort _ _ => t.outcome ∈ [OutcomeCode.oOk, .oOpenFail]
    | .nop | .closePort _ | .lookup _ => t.outcome = .oOk
    | _ => t.outcome ∈ [OutcomeCode.oOk, .oFault]

/-- A command emits at most one event: `EV_DELIVER` by RX on `O_DELIVERED`, `EV_UNREACH` by RX on
`O_UNREACHABLE`, `EV_NETSEND` by TX on `O_SENT`, and no other command and no other outcome emits anything
(60_exceptions.md R232). -/
def Obligations.AtMostOneEvent : Prop :=
  ∀ (i : Instr) (s t : State), exec i s = .next t →
    (t.trace = s.trace ∧ t.outcome ∉ [OutcomeCode.oDelivered, .oUnreachable, .oSent]) ∨
    (i = .rx ∧ t.outcome = .oDelivered ∧ ∃ hid payload n addr port,
      t.trace = s.trace ++ [.deliver hid payload n addr port]) ∨
    (i = .rx ∧ t.outcome = .oUnreachable ∧ ∃ packet addr reason, t.trace = s.trace ++ [.unreach packet addr reason]) ∨
    (i = .tx ∧ t.outcome = .oSent ∧ ∃ packet addr protocol, t.trace = s.trace ++ [.netsend packet addr protocol])

/-- The "written by" column of the register table: which commands can change each register and the port table; no
command writes a host register, and the parameters, the host's actions to come and its replies are not a
command's to change (10_state.md R22, R27 to R32; 43_port_registry.md R174). -/
def Obligations.RegistersWrittenBy : Prop :=
  ∀ (i : Instr) (s t : State), s.cfg.Valid → s.padded = false → exec i s = .next t →
    t.localAddr = s.localAddr ∧ t.csSrc = s.csSrc ∧ t.csDst = s.csDst ∧ t.rxRemote = s.rxRemote ∧
    t.txDaddr = s.txDaddr ∧ t.txSport = s.txSport ∧ t.txDport = s.txDport ∧
    t.cfg = s.cfg ∧ t.host = s.host ∧ t.replies = s.replies ∧
    (i ∉ [Instr.csum, .rx, .tx] → t.csum = s.csum ∧ t.acc = s.acc ∧ t.save = s.save) ∧
    (i ∉ [Instr.hdrrd, .rx, .tx] → t.hSport = s.hSport ∧ t.hDport = s.hDport ∧ t.hCsum = s.hCsum) ∧
    (i ∉ [Instr.hdrrd, .tx] → t.hLen = s.hLen) ∧
    ((∀ n, i ∉ [Instr.bufinit n, .push n, .pop n, .rx, .tx]) → t.dp = s.dp) ∧
    ((∀ n, i ∉ [Instr.bufinit n, .push n, .pop n, .padd n, .padr n, .rx, .tx]) → t.len = s.len) ∧
    ((∀ port, i ≠ .lookup port) → t.lkResult = s.lkResult) ∧
    ((∀ port hid, i ≠ .openPort port hid) → (∀ port, i ≠ .closePort port) → t.pt = s.pt) ∧
    t.padded = false

/-- The bytes of `MEM` each command can change (20_memory.md R65, the "writes" column). -/
def Obligations.CommandFootprint : Prop :=
  ∀ (i : Instr) (s t : State) (a : Nat), s.cfg.Valid → s.padded = false → exec i s = .next t →
    t.mem.readByte a ≠ s.mem.readByte a →
    match i with
    | .padd n => s.dp + s.len ≤ a ∧ a < s.dp + s.len + n.toNat
    | .hdrwr => s.dp ≤ a ∧ a < s.dp + 8
    | .csum => s.len % 2 = 1 ∧ a = s.dp + s.len
    | .rx => (t.outcome = .oDropCsum ∧ (a = s.dp + 6 ∨ a = s.dp + 7)) ∨ (s.len % 2 = 1 ∧ a = s.dp + s.len)
    | .tx => (s.dp - 8 ≤ a ∧ a < s.dp) ∨ (s.len % 2 = 1 ∧ a = s.dp + s.len)
    | _ => False

/-- `ACC` and `SAVE` are unobservable: two states that differ only in them take the same step, and the states after
it differ in nothing else; where the one stops, the other stops the same way (10_state.md R37, R38, R45; 70_reset_and_hazards.md R253). -/
def Obligations.AccAndSaveAreUnobservable : Prop :=
  ∀ (s : State) (acc : Half) (save : List Byte),
    (∀ t, step s = .next t → ∃ acc' save', step { s with acc := acc, save := save } =
      .next { t with acc := acc', save := save' }) ∧
    (∀ f, step s = .fault f → step { s with acc := acc, save := save } = .fault f)

/-- The invariant holds at reset, for every configuration and every content of `MEM` and `SAVE` that such a block
can have (10_state.md R34, R36, R39, R45; 43_port_registry.md R174). -/
def Obligations.ResetMeetsInvariant : Prop :=
  State.reset.Inv ∧
  ∀ (p : Params) (mem0 : Memory) (acc0 : Half) (save0 : List Byte),
    p.Valid → mem0.wf = true → mem0.within p.bufCap = true → save0.length = 12 →
      (State.resetWith p mem0 acc0 save0).Inv

/-- Every step keeps the invariant: the buffer invariant, the canonical form and range of `MEM`, the port table a
map within its capacity, `PADDED` 0 and `SAVE` 12 bytes, `FAULT` and `OUTCOME` in agreement, the reserved bits
of `LK_RESULT` 0, the fields of every event of the trace (10_state.md R32, R34, R36, R39 to R43;
43_port_registry.md R174). -/
def Obligations.StepKeepsInvariant : Prop :=
  ∀ s t : State, s.Inv → step s = .next t → t.Inv ∧ t.cfg = s.cfg

/-- From a state that meets the invariant every step answers a next state, and no state at all makes a step refuse. A
step with a command pending does one of three things: the command completes with an outcome and `BUSY` falls (R266,
R271); or a reset that lands abandons it, with no outcome and no event (R250); or the host reads `STATUS` and it stays
pending (70_reset_and_hazards.md R250, R266, R271; 20_memory.md R74; log entry 3 says how the last two land). -/
def Obligations.StepNeverStuck : Prop :=
  (∀ (s : State) (r : Refusal), step s ≠ .refused r) ∧
  ∀ s : State, s.Inv →
    (∃ t, step s = .next t) ∧
    (s.cmd ≠ none → ∃ t, step s = .next t ∧
      ((s.NothingLands ∧ t.cmd = none ∧ t.outcome ≠ .oNone) ∨
        (∃ mem acc save, s.host = .resetBusy mem acc save :: t.host ∧ t.cmd = none ∧ t.outcome = .oNone ∧
          t.trace = []) ∨
        (s.host = .pollStatus :: t.host ∧ t.cmd = s.cmd ∧ t.mem = s.mem)))
end

