-- ==== Sys2Proof/Laws/Bits.lean ====
section
/-! SUPPORT. Bit fields as numbers: concatenation, extraction, and masks that pick a range of bits. -/

namespace Sys2Proof

/-- A concatenation as a number. -/
theorem append_toNat {n m : Nat} (a : BitVec n) (b : BitVec m) : (a ++ b).toNat = a.toNat * 2 ^ m + b.toNat := by
  rw [BitVec.toNat_append, Nat.shiftLeft_eq, Nat.mul_comm, ← Nat.two_pow_add_eq_or_of_lt b.isLt]

/-- A field as a number. -/
theorem field_toNat {n : Nat} (a : BitVec n) (lo k : Nat) : (a.extractLsb' lo k).toNat = a.toNat / 2 ^ lo % 2 ^ k := by
  rw [BitVec.extractLsb'_toNat, Nat.shiftRight_eq_div_pow]

theorem encodeZ_toNat (op : BitVec 4) : (encodeZ op).toNat = op.toNat := by
  have := op.isLt
  simp only [encodeZ, BitVec.toNat_setWidth]
  omega

theorem encodeN_toNat (op : BitVec 4) (imm : Half) : (encodeN op imm).toNat = imm.toNat * 2 ^ 16 + op.toNat := by
  have := op.isLt
  simp only [encodeN, append_toNat, BitVec.toNat_ofNat]
  omega

theorem encodeO_toNat (op : BitVec 4) (imm : Half) (hid : Byte) :
    (encodeO op imm hid).toNat = imm.toNat * 2 ^ 16 + hid.toNat * 256 + op.toNat := by
  have := op.isLt
  simp only [encodeO, append_toNat, BitVec.toNat_ofNat]
  omega

/-- A word sets no bit of a mask of the bits `lo` to `lo + k - 1` exactly when that field of it is 0. -/
theorem and_mask_eq_zero (w mask : Word) (lo k : Nat) (hk : lo + k ≤ 32)
    (hmask : ∀ i : Fin 32, mask.getLsbD i = decide (lo ≤ i.val ∧ i.val < lo + k)) :
    w &&& mask = 0#32 ↔ w.extractLsb' lo k = 0#k := by
  constructor
  · intro h
    refine BitVec.eq_of_getLsbD_eq (fun i hi => ?_)
    have hbit := congrArg (fun x => x.getLsbD (lo + i)) h
    have hin : decide (lo ≤ lo + i ∧ lo + i < lo + k) = true := decide_eq_true (by omega)
    simp only [BitVec.getLsbD_and, BitVec.getLsbD_zero, hmask ⟨lo + i, by omega⟩, hin] at hbit
    simpa [hi] using hbit
  · intro h
    refine BitVec.eq_of_getLsbD_eq (fun i hi => ?_)
    simp only [BitVec.getLsbD_and, BitVec.getLsbD_zero, hmask ⟨i, hi⟩]
    by_cases hin : lo ≤ i ∧ i < lo + k
    · have hbit := congrArg (fun x => x.getLsbD (i - lo)) h
      have hlt : i - lo < k := by omega
      simp only [BitVec.getLsbD_extractLsb', BitVec.getLsbD_zero, show lo + (i - lo) = i by omega] at hbit
      simp [hlt] at hbit
      simp [hbit]
    · simp [hin]

end Sys2Proof
end

