-- ==== Sys2Proof/Laws/Memory.lean ====
section
/-! SUPPORT. What the operations on sorted tables and on `MEM` do: a read after a write, the frame of a write,
and that every operation keeps the canonical form. -/

namespace Sys2Proof.Machine

/-! ### Sorted tables -/

theorem lookupCell_insertCell (m : List Host.Cell) (a : Nat) (b : Byte) (x : Nat) :
    lookupCell (insertCell m a b) x = if a = x then some b else lookupCell m x := by
  induction m with
  | nil => rfl
  | cons c t ih =>
    obtain ⟨k, v⟩ := c
    rcases Nat.lt_trichotomy a k with h | h | h
    · simp [insertCell, h, lookupCell]
    · subst h
      by_cases hx : a = x <;> simp [insertCell, lookupCell, hx]
    · have h1 : ¬ a < k := by omega
      have h2 : a ≠ k := by omega
      by_cases hk : k = x
      · subst hk; simp [insertCell, h1, h2, lookupCell]
      · simp [insertCell, h1, h2, lookupCell, hk, ih]

theorem lookupCell_eraseCell (m : List Host.Cell) (a x : Nat) :
    lookupCell (eraseCell m a) x = if a = x then none else lookupCell m x := by
  induction m with
  | nil => simp [eraseCell, lookupCell]
  | cons c t ih =>
    obtain ⟨k, v⟩ := c
    simp only [eraseCell] at ih ⊢
    by_cases hk : k = a <;> by_cases hx : a = x <;> by_cases hkx : k = x <;>
      simp_all [lookupCell]

theorem mem_insertCell {m : List Host.Cell} {a : Nat} {b : Byte} {c : Host.Cell} (h : c ∈ insertCell m a b) :
    c = (a, b) ∨ c ∈ m := by
  induction m with
  | nil => exact .inl (by simpa [insertCell] using h)
  | cons d t ih =>
    obtain ⟨k, v⟩ := d
    simp only [insertCell] at h
    split at h
    · rcases List.mem_cons.1 h with h | h
      · exact .inl h
      · exact .inr h
    · split at h
      · rcases List.mem_cons.1 h with h | h
        · exact .inl h
        · exact .inr (List.mem_cons_of_mem _ h)
      · rcases List.mem_cons.1 h with h | h
        · exact .inr (h ▸ List.mem_cons_self)
        · rcases ih h with h | h
          · exact .inl h
          · exact .inr (List.mem_cons_of_mem _ h)

theorem mem_eraseCell {m : List Host.Cell} {a : Nat} {c : Host.Cell} (h : c ∈ eraseCell m a) : c ∈ m :=
  (List.mem_filter.1 h).1

theorem risingKeys_iff (m : List Host.Cell) : risingKeys m = true ↔ m.Pairwise (fun x y => x.1 < y.1) := by
  simp [risingKeys]

theorem risingKeys_insertCell {m : List Host.Cell} (h : risingKeys m = true) (a : Nat) (b : Byte) :
    risingKeys (insertCell m a b) = true := by
  rw [risingKeys_iff] at h ⊢
  induction m with
  | nil => simp [insertCell]
  | cons c t ih =>
    obtain ⟨k, v⟩ := c
    obtain ⟨hk, ht⟩ := List.pairwise_cons.1 h
    simp only [insertCell]
    split
    · rename_i hak
      refine List.pairwise_cons.2 ⟨fun d hd => ?_, h⟩
      rcases List.mem_cons.1 hd with rfl | hd
      · exact hak
      · exact Nat.lt_trans hak (hk d hd)
    · split
      · rename_i hak
        exact List.pairwise_cons.2 ⟨fun d hd => by have := hk d hd; simp only at this ⊢; omega, ht⟩
      · refine List.pairwise_cons.2 ⟨fun d hd => ?_, ih ht⟩
        rcases mem_insertCell hd with rfl | hd
        · simp only; omega
        · exact hk d hd

theorem risingKeys_eraseCell {m : List Host.Cell} (h : risingKeys m = true) (a : Nat) :
    risingKeys (eraseCell m a) = true := by
  rw [risingKeys_iff] at h ⊢
  exact h.filter _

theorem length_eraseCell_le (m : List Host.Cell) (a : Nat) : (eraseCell m a).length ≤ m.length :=
  List.length_filter_le _ _

/-- Listing nothing for a key takes its entry away when it has one. -/
theorem length_eraseCell (m : List Host.Cell) (a : Nat) (h : risingKeys m = true) :
    (eraseCell m a).length + (if lookupCell m a = none then 0 else 1) = m.length := by
  rw [risingKeys_iff] at h
  induction m with
  | nil => rfl
  | cons c t ih =>
    obtain ⟨k, v⟩ := c
    obtain ⟨hk, ht⟩ := List.pairwise_cons.1 h
    have ih := ih ht
    by_cases e : k = a
    · subst e
      have hrest : eraseCell t k = t := List.filter_eq_self.2 (fun d hd => by have := hk d hd; simp at this ⊢; omega)
      have hhead : eraseCell ((k, v) :: t) k = eraseCell t k := by simp [eraseCell]
      rw [hhead, hrest]
      simp [lookupCell]
    · simp only [eraseCell] at ih ⊢
      simp [lookupCell, e] at ih ⊢
      omega

/-- A key that is already listed keeps the number of entries; a new one adds an entry. -/
theorem length_insertCell (m : List Host.Cell) (a : Nat) (b : Byte) (h : risingKeys m = true) :
    (insertCell m a b).length = if lookupCell m a = none then m.length + 1 else m.length := by
  rw [risingKeys_iff] at h
  induction m with
  | nil => rfl
  | cons c t ih =>
    obtain ⟨k, v⟩ := c
    obtain ⟨hk, ht⟩ := List.pairwise_cons.1 h
    have above : ∀ (l : List Host.Cell), (∀ d ∈ l, a < d.1) → lookupCell l a = none := by
      intro l hl
      induction l with
      | nil => rfl
      | cons d l ihl =>
        obtain ⟨x, y⟩ := d
        have : a < x := hl (x, y) List.mem_cons_self
        simp only [lookupCell]
        rw [if_neg (by omega)]
        exact ihl (fun d hd => hl d (List.mem_cons_of_mem _ hd))
    rcases Nat.lt_trichotomy a k with hak | hak | hak
    · have hnone : lookupCell ((k, v) :: t) a = none := by
        refine above _ (fun d hd => ?_)
        rcases List.mem_cons.1 hd with rfl | hd
        · exact hak
        · exact Nat.lt_trans hak (hk d hd)
      rw [hnone]
      simp [insertCell, hak]
    · subst hak
      simp [insertCell, lookupCell]
    · have h1 : ¬ a < k := by omega
      have h2 : a ≠ k := by omega
      have h3 : k ≠ a := by omega
      simp only [insertCell, h1, h2, if_false, lookupCell, h3, List.length_cons, ih ht]
      split <;> rfl

/-- In a table of rising keys a key's entry is what the lookup finds. -/
theorem lookupCell_of_mem {m : List Host.Cell} (h : risingKeys m = true) {a : Nat} {b : Byte} (hm : (a, b) ∈ m) :
    lookupCell m a = some b := by
  rw [risingKeys_iff] at h
  induction m with
  | nil => simp at hm
  | cons c t ih =>
    obtain ⟨k, v⟩ := c
    obtain ⟨hk, ht⟩ := List.pairwise_cons.1 h
    rcases List.mem_cons.1 hm with hm | hm
    · obtain ⟨rfl, rfl⟩ := Prod.mk.inj hm
      simp [lookupCell]
    · have : k < a := hk _ hm
      simp only [lookupCell]
      rw [if_neg (by omega)]
      exact ih ht hm

theorem mem_of_lookupCell {m : List Host.Cell} {a : Nat} {b : Byte} (h : lookupCell m a = some b) : (a, b) ∈ m := by
  induction m with
  | nil => simp [lookupCell] at h
  | cons c t ih =>
    obtain ⟨k, v⟩ := c
    simp only [lookupCell] at h
    split at h
    · rename_i hk
      cases h
      exact hk ▸ List.mem_cons_self
    · exact List.mem_cons_of_mem _ (ih h)

/-! ### One byte of `MEM` -/

/-- A byte after a write: the written byte at its index, every other byte as before. -/
theorem Memory.readByte_writeByte (m : Memory) (a : Nat) (b : Byte) (x : Nat) :
    (m.writeByte a b).readByte x = if x = a then b else m.readByte x := by
  unfold Memory.writeByte Memory.readByte
  split
  · rename_i hb
    rw [lookupCell_eraseCell]
    by_cases hx : x = a
    · simp [hx, hb]
    · simp [hx, Ne.symm hx]
  · rw [lookupCell_insertCell]
    by_cases hx : x = a
    · simp [hx]
    · simp [hx, Ne.symm hx]

@[simp] theorem Memory.readByte_writeByte_same (m : Memory) (a : Nat) (b : Byte) :
    (m.writeByte a b).readByte a = b := by simp [Memory.readByte_writeByte]

theorem Memory.readByte_writeByte_other (m : Memory) {a x : Nat} (b : Byte) (h : x ≠ a) :
    (m.writeByte a b).readByte x = m.readByte x := by simp [Memory.readByte_writeByte, h]

theorem Memory.wf_iff (m : Memory) :
    m.wf = true ↔ risingKeys m = true ∧ ∀ c ∈ m, c.2 ≠ Memory.unlisted := by
  simp [Memory.wf, List.all_eq_true]

theorem Memory.within_iff (m : Memory) (cap : Nat) : m.within cap = true ↔ ∀ c ∈ m, c.1 < cap := by
  simp [Memory.within, List.all_eq_true]

theorem Memory.writeByte_wf {m : Memory} (h : m.wf = true) (a : Nat) (b : Byte) : (m.writeByte a b).wf = true := by
  rw [Memory.wf_iff] at h ⊢
  unfold Memory.writeByte
  split
  · exact ⟨risingKeys_eraseCell h.1 a, fun c hc => h.2 c (mem_eraseCell hc)⟩
  · rename_i hb
    refine ⟨risingKeys_insertCell h.1 a b, fun c hc => ?_⟩
    rcases mem_insertCell hc with rfl | hc
    · exact hb
    · exact h.2 c hc

theorem Memory.writeByte_within {m : Memory} {cap : Nat} (h : m.within cap = true) {a : Nat} (ha : a < cap) (b : Byte) :
    (m.writeByte a b).within cap = true := by
  rw [Memory.within_iff] at h ⊢
  unfold Memory.writeByte
  split
  · exact fun c hc => h c (mem_eraseCell hc)
  · intro c hc
    rcases mem_insertCell hc with rfl | hc
    · exact ha
    · exact h c hc

/-- `MEM` at reset is in canonical form. -/
theorem reset_mem_wf : State.reset.mem.wf = true := rfl

/-- Two contents in canonical form with the same bytes are the same data. -/
theorem Memory.ext {m m' : Memory} (h : m.wf = true) (h' : m'.wf = true)
    (hr : ∀ a, m.readByte a = m'.readByte a) : m = m' := by
  rw [Memory.wf_iff] at h h'
  have look : ∀ {m : Memory}, (∀ c ∈ m, c.2 ≠ Memory.unlisted) → ∀ a b, lookupCell m a = some b ↔
      (m.readByte a = b ∧ b ≠ Memory.unlisted) := by
    intro m hm a b
    unfold Memory.readByte
    cases hl : lookupCell m a with
    | none =>
      constructor
      · intro hc; cases hc
      · rintro ⟨hb, hne⟩
        exact absurd hb.symm hne
    | some v =>
      have := hm _ (mem_of_lookupCell hl)
      constructor
      · intro hc; cases hc; exact ⟨rfl, this⟩
      · rintro ⟨hb, -⟩
        exact congrArg some hb
  have same : ∀ c : Host.Cell, c ∈ m ↔ c ∈ m' := by
    rintro ⟨a, b⟩
    constructor <;> intro hc
    · have := (look h.2 a b).1 (lookupCell_of_mem h.1 hc)
      rw [hr] at this
      exact mem_of_lookupCell ((look h'.2 a b).2 this)
    · have := (look h'.2 a b).1 (lookupCell_of_mem h'.1 hc)
      rw [← hr] at this
      exact mem_of_lookupCell ((look h.2 a b).2 this)
  have hp := (risingKeys_iff m).1 h.1
  have hp' := (risingKeys_iff m').1 h'.1
  have hn : m.Nodup := hp.imp (fun hxy heq => by rw [heq] at hxy; exact Nat.lt_irrefl _ hxy)
  have hn' : m'.Nodup := hp'.imp (fun hxy heq => by rw [heq] at hxy; exact Nat.lt_irrefl _ hxy)
  have perm := (List.perm_ext_iff_of_nodup hn hn').2 same
  exact perm.eq_of_pairwise (fun a b _ _ hab hba => absurd (Nat.lt_trans hab hba) (Nat.lt_irrefl _)) hp hp'

/-! ### Sequences of bytes -/

@[simp] theorem Memory.length_readBytes (m : Memory) (a n : Nat) : (m.readBytes a n).length = n := by
  induction n generalizing a with
  | zero => rfl
  | succ n ih => simp [Memory.readBytes, ih]

theorem Memory.getElem?_readBytes (m : Memory) (a n i : Nat) :
    (m.readBytes a n)[i]? = if i < n then some (m.readByte (a + i)) else none := by
  induction n generalizing a i with
  | zero => simp [Memory.readBytes]
  | succ n ih =>
    cases i with
    | zero => simp [Memory.readBytes]
    | succ i =>
      simp only [Memory.readBytes, List.getElem?_cons_succ, ih, Nat.add_lt_add_iff_right]
      rw [show a + 1 + i = a + (i + 1) by omega]

theorem Memory.readBytes_congr {m m' : Memory} {a n : Nat}
    (h : ∀ i, i < n → m.readByte (a + i) = m'.readByte (a + i)) : m.readBytes a n = m'.readBytes a n := by
  refine List.ext_getElem? (fun i => ?_)
  rw [Memory.getElem?_readBytes, Memory.getElem?_readBytes]
  split
  · rename_i hi; rw [h i hi]
  · rfl

theorem Memory.readBytes_append (m : Memory) (a n k : Nat) :
    m.readBytes a (n + k) = m.readBytes a n ++ m.readBytes (a + n) k := by
  induction n generalizing a with
  | zero => simp [Memory.readBytes]
  | succ n ih =>
    rw [show n + 1 + k = (n + k) + 1 by omega]
    simp only [Memory.readBytes, ih, List.cons_append]
    rw [show a + 1 + n = a + (n + 1) by omega]

/-- A byte after `MemWrite`: inside the written bytes the byte of the sequence, outside the old byte. -/
theorem Memory.readByte_writeBytes (m : Memory) (a : Nat) (l : List Byte) (x : Nat) :
    (m.writeBytes a l).readByte x = if a ≤ x ∧ x < a + l.length then l.getD (x - a) 0x00#8 else m.readByte x := by
  induction l generalizing m a with
  | nil =>
    have : ¬ (a ≤ x ∧ x < a) := by omega
    simp [Memory.writeBytes, this]
  | cons b l ih =>
    simp only [Memory.writeBytes, ih, Memory.readByte_writeByte, List.length_cons]
    by_cases h : a = x
    · subst h
      simp
    · by_cases h2 : a + 1 ≤ x ∧ x < a + 1 + l.length
      · have h3 : a ≤ x ∧ x < a + (l.length + 1) := by omega
        rw [if_pos h2, if_pos h3, show x - a = (x - (a + 1)) + 1 by omega, List.getD_cons_succ]
      · have h3 : ¬ (a ≤ x ∧ x < a + (l.length + 1)) := by omega
        have h4 : x ≠ a := fun h' => h h'.symm
        rw [if_neg h2, if_neg h3, if_neg h4]

theorem Memory.writeBytes_wf {m : Memory} (h : m.wf = true) (a : Nat) (l : List Byte) :
    (m.writeBytes a l).wf = true := by
  induction l generalizing m a with
  | nil => exact h
  | cons b l ih => exact ih (Memory.writeByte_wf h a b) (a + 1)

theorem Memory.writeBytes_within {m : Memory} {cap : Nat} (h : m.within cap = true) {a : Nat} (l : List Byte)
    (ha : a + l.length ≤ cap) : (m.writeBytes a l).within cap = true := by
  induction l generalizing m a with
  | nil => exact h
  | cons b l ih =>
    simp only [List.length_cons] at ha
    exact ih (Memory.writeByte_within h (by omega) b) (by omega)

/-- What was just written is what is read. -/
theorem Memory.readBytes_writeBytes_same (m : Memory) (a : Nat) (l : List Byte) :
    (m.writeBytes a l).readBytes a l.length = l := by
  refine List.ext_getElem? (fun i => ?_)
  rw [Memory.getElem?_readBytes]
  split
  · rename_i hi
    rw [Memory.readByte_writeBytes, if_pos (by omega), show a + i - a = i by omega,
      List.getD_eq_getElem?_getD, List.getElem?_eq_getElem hi]
    rfl
  · rename_i hi
    exact (List.getElem?_eq_none (by omega)).symm

/-- Bytes apart from the written ones are read as before. -/
theorem Memory.readBytes_writeBytes_apart (m : Memory) (a : Nat) (l : List Byte) (x n : Nat)
    (h : x + n ≤ a ∨ a + l.length ≤ x) : (m.writeBytes a l).readBytes x n = m.readBytes x n := by
  refine Memory.readBytes_congr (fun i hi => ?_)
  rw [Memory.readByte_writeBytes, if_neg (by omega)]

end Sys2Proof.Machine
end

