-- ==== Sys2Proof/Laws/State.lean ====
section
/-! SUPPORT. What each named update of the state does to each field: one lemma per field per update, true
by `rfl`, so that no proof unfolds a record update. -/

namespace Sys2Proof.Machine

variable (s : State)

/-! ### `setMem` -/

@[simp] theorem setMem_cfg (m : Memory) : (setMem s m).cfg = s.cfg := rfl
@[simp] theorem setMem_cmd (m : Memory) : (setMem s m).cmd = s.cmd := rfl
@[simp] theorem setMem_outcome (m : Memory) : (setMem s m).outcome = s.outcome := rfl
@[simp] theorem setMem_fault (m : Memory) : (setMem s m).fault = s.fault := rfl
@[simp] theorem setMem_localAddr (m : Memory) : (setMem s m).localAddr = s.localAddr := rfl
@[simp] theorem setMem_csSrc (m : Memory) : (setMem s m).csSrc = s.csSrc := rfl
@[simp] theorem setMem_csDst (m : Memory) : (setMem s m).csDst = s.csDst := rfl
@[simp] theorem setMem_csum (m : Memory) : (setMem s m).csum = s.csum := rfl
@[simp] theorem setMem_rxRemote (m : Memory) : (setMem s m).rxRemote = s.rxRemote := rfl
@[simp] theorem setMem_txDaddr (m : Memory) : (setMem s m).txDaddr = s.txDaddr := rfl
@[simp] theorem setMem_txSport (m : Memory) : (setMem s m).txSport = s.txSport := rfl
@[simp] theorem setMem_txDport (m : Memory) : (setMem s m).txDport = s.txDport := rfl
@[simp] theorem setMem_hSport (m : Memory) : (setMem s m).hSport = s.hSport := rfl
@[simp] theorem setMem_hDport (m : Memory) : (setMem s m).hDport = s.hDport := rfl
@[simp] theorem setMem_hLen (m : Memory) : (setMem s m).hLen = s.hLen := rfl
@[simp] theorem setMem_hCsum (m : Memory) : (setMem s m).hCsum = s.hCsum := rfl
@[simp] theorem setMem_dp (m : Memory) : (setMem s m).dp = s.dp := rfl
@[simp] theorem setMem_len (m : Memory) : (setMem s m).len = s.len := rfl
@[simp] theorem setMem_lkResult (m : Memory) : (setMem s m).lkResult = s.lkResult := rfl
@[simp] theorem setMem_mem (m : Memory) : (setMem s m).mem = m := rfl
@[simp] theorem setMem_pt (m : Memory) : (setMem s m).pt = s.pt := rfl
@[simp] theorem setMem_acc (m : Memory) : (setMem s m).acc = s.acc := rfl
@[simp] theorem setMem_save (m : Memory) : (setMem s m).save = s.save := rfl
@[simp] theorem setMem_padded (m : Memory) : (setMem s m).padded = s.padded := rfl
@[simp] theorem setMem_trace (m : Memory) : (setMem s m).trace = s.trace := rfl
@[simp] theorem setMem_host (m : Memory) : (setMem s m).host = s.host := rfl
@[simp] theorem setMem_replies (m : Memory) : (setMem s m).replies = s.replies := rfl

/-! ### `setWindow` -/

@[simp] theorem setWindow_cfg (a n : Nat) : (setWindow s a n).cfg = s.cfg := rfl
@[simp] theorem setWindow_cmd (a n : Nat) : (setWindow s a n).cmd = s.cmd := rfl
@[simp] theorem setWindow_outcome (a n : Nat) : (setWindow s a n).outcome = s.outcome := rfl
@[simp] theorem setWindow_fault (a n : Nat) : (setWindow s a n).fault = s.fault := rfl
@[simp] theorem setWindow_localAddr (a n : Nat) : (setWindow s a n).localAddr = s.localAddr := rfl
@[simp] theorem setWindow_csSrc (a n : Nat) : (setWindow s a n).csSrc = s.csSrc := rfl
@[simp] theorem setWindow_csDst (a n : Nat) : (setWindow s a n).csDst = s.csDst := rfl
@[simp] theorem setWindow_csum (a n : Nat) : (setWindow s a n).csum = s.csum := rfl
@[simp] theorem setWindow_rxRemote (a n : Nat) : (setWindow s a n).rxRemote = s.rxRemote := rfl
@[simp] theorem setWindow_txDaddr (a n : Nat) : (setWindow s a n).txDaddr = s.txDaddr := rfl
@[simp] theorem setWindow_txSport (a n : Nat) : (setWindow s a n).txSport = s.txSport := rfl
@[simp] theorem setWindow_txDport (a n : Nat) : (setWindow s a n).txDport = s.txDport := rfl
@[simp] theorem setWindow_hSport (a n : Nat) : (setWindow s a n).hSport = s.hSport := rfl
@[simp] theorem setWindow_hDport (a n : Nat) : (setWindow s a n).hDport = s.hDport := rfl
@[simp] theorem setWindow_hLen (a n : Nat) : (setWindow s a n).hLen = s.hLen := rfl
@[simp] theorem setWindow_hCsum (a n : Nat) : (setWindow s a n).hCsum = s.hCsum := rfl
@[simp] theorem setWindow_dp (a n : Nat) : (setWindow s a n).dp = a := rfl
@[simp] theorem setWindow_len (a n : Nat) : (setWindow s a n).len = n := rfl
@[simp] theorem setWindow_lkResult (a n : Nat) : (setWindow s a n).lkResult = s.lkResult := rfl
@[simp] theorem setWindow_mem (a n : Nat) : (setWindow s a n).mem = s.mem := rfl
@[simp] theorem setWindow_pt (a n : Nat) : (setWindow s a n).pt = s.pt := rfl
@[simp] theorem setWindow_acc (a n : Nat) : (setWindow s a n).acc = s.acc := rfl
@[simp] theorem setWindow_save (a n : Nat) : (setWindow s a n).save = s.save := rfl
@[simp] theorem setWindow_padded (a n : Nat) : (setWindow s a n).padded = s.padded := rfl
@[simp] theorem setWindow_trace (a n : Nat) : (setWindow s a n).trace = s.trace := rfl
@[simp] theorem setWindow_host (a n : Nat) : (setWindow s a n).host = s.host := rfl
@[simp] theorem setWindow_replies (a n : Nat) : (setWindow s a n).replies = s.replies := rfl

/-! ### `setCsum` -/

@[simp] theorem setCsum_cfg (v : Half) : (setCsum s v).cfg = s.cfg := rfl
@[simp] theorem setCsum_cmd (v : Half) : (setCsum s v).cmd = s.cmd := rfl
@[simp] theorem setCsum_outcome (v : Half) : (setCsum s v).outcome = s.outcome := rfl
@[simp] theorem setCsum_fault (v : Half) : (setCsum s v).fault = s.fault := rfl
@[simp] theorem setCsum_localAddr (v : Half) : (setCsum s v).localAddr = s.localAddr := rfl
@[simp] theorem setCsum_csSrc (v : Half) : (setCsum s v).csSrc = s.csSrc := rfl
@[simp] theorem setCsum_csDst (v : Half) : (setCsum s v).csDst = s.csDst := rfl
@[simp] theorem setCsum_csum (v : Half) : (setCsum s v).csum = v := rfl
@[simp] theorem setCsum_rxRemote (v : Half) : (setCsum s v).rxRemote = s.rxRemote := rfl
@[simp] theorem setCsum_txDaddr (v : Half) : (setCsum s v).txDaddr = s.txDaddr := rfl
@[simp] theorem setCsum_txSport (v : Half) : (setCsum s v).txSport = s.txSport := rfl
@[simp] theorem setCsum_txDport (v : Half) : (setCsum s v).txDport = s.txDport := rfl
@[simp] theorem setCsum_hSport (v : Half) : (setCsum s v).hSport = s.hSport := rfl
@[simp] theorem setCsum_hDport (v : Half) : (setCsum s v).hDport = s.hDport := rfl
@[simp] theorem setCsum_hLen (v : Half) : (setCsum s v).hLen = s.hLen := rfl
@[simp] theorem setCsum_hCsum (v : Half) : (setCsum s v).hCsum = s.hCsum := rfl
@[simp] theorem setCsum_dp (v : Half) : (setCsum s v).dp = s.dp := rfl
@[simp] theorem setCsum_len (v : Half) : (setCsum s v).len = s.len := rfl
@[simp] theorem setCsum_lkResult (v : Half) : (setCsum s v).lkResult = s.lkResult := rfl
@[simp] theorem setCsum_mem (v : Half) : (setCsum s v).mem = s.mem := rfl
@[simp] theorem setCsum_pt (v : Half) : (setCsum s v).pt = s.pt := rfl
@[simp] theorem setCsum_acc (v : Half) : (setCsum s v).acc = s.acc := rfl
@[simp] theorem setCsum_save (v : Half) : (setCsum s v).save = s.save := rfl
@[simp] theorem setCsum_padded (v : Half) : (setCsum s v).padded = s.padded := rfl
@[simp] theorem setCsum_trace (v : Half) : (setCsum s v).trace = s.trace := rfl
@[simp] theorem setCsum_host (v : Half) : (setCsum s v).host = s.host := rfl
@[simp] theorem setCsum_replies (v : Half) : (setCsum s v).replies = s.replies := rfl

/-! ### `setRecord` -/

@[simp] theorem setRecord_cfg (a b c d : Half) : (setRecord s a b c d).cfg = s.cfg := rfl
@[simp] theorem setRecord_cmd (a b c d : Half) : (setRecord s a b c d).cmd = s.cmd := rfl
@[simp] theorem setRecord_outcome (a b c d : Half) : (setRecord s a b c d).outcome = s.outcome := rfl
@[simp] theorem setRecord_fault (a b c d : Half) : (setRecord s a b c d).fault = s.fault := rfl
@[simp] theorem setRecord_localAddr (a b c d : Half) : (setRecord s a b c d).localAddr = s.localAddr := rfl
@[simp] theorem setRecord_csSrc (a b c d : Half) : (setRecord s a b c d).csSrc = s.csSrc := rfl
@[simp] theorem setRecord_csDst (a b c d : Half) : (setRecord s a b c d).csDst = s.csDst := rfl
@[simp] theorem setRecord_csum (a b c d : Half) : (setRecord s a b c d).csum = s.csum := rfl
@[simp] theorem setRecord_rxRemote (a b c d : Half) : (setRecord s a b c d).rxRemote = s.rxRemote := rfl
@[simp] theorem setRecord_txDaddr (a b c d : Half) : (setRecord s a b c d).txDaddr = s.txDaddr := rfl
@[simp] theorem setRecord_txSport (a b c d : Half) : (setRecord s a b c d).txSport = s.txSport := rfl
@[simp] theorem setRecord_txDport (a b c d : Half) : (setRecord s a b c d).txDport = s.txDport := rfl
@[simp] theorem setRecord_hSport (a b c d : Half) : (setRecord s a b c d).hSport = a := rfl
@[simp] theorem setRecord_hDport (a b c d : Half) : (setRecord s a b c d).hDport = b := rfl
@[simp] theorem setRecord_hLen (a b c d : Half) : (setRecord s a b c d).hLen = c := rfl
@[simp] theorem setRecord_hCsum (a b c d : Half) : (setRecord s a b c d).hCsum = d := rfl
@[simp] theorem setRecord_dp (a b c d : Half) : (setRecord s a b c d).dp = s.dp := rfl
@[simp] theorem setRecord_len (a b c d : Half) : (setRecord s a b c d).len = s.len := rfl
@[simp] theorem setRecord_lkResult (a b c d : Half) : (setRecord s a b c d).lkResult = s.lkResult := rfl
@[simp] theorem setRecord_mem (a b c d : Half) : (setRecord s a b c d).mem = s.mem := rfl
@[simp] theorem setRecord_pt (a b c d : Half) : (setRecord s a b c d).pt = s.pt := rfl
@[simp] theorem setRecord_acc (a b c d : Half) : (setRecord s a b c d).acc = s.acc := rfl
@[simp] theorem setRecord_save (a b c d : Half) : (setRecord s a b c d).save = s.save := rfl
@[simp] theorem setRecord_padded (a b c d : Half) : (setRecord s a b c d).padded = s.padded := rfl
@[simp] theorem setRecord_trace (a b c d : Half) : (setRecord s a b c d).trace = s.trace := rfl
@[simp] theorem setRecord_host (a b c d : Half) : (setRecord s a b c d).host = s.host := rfl
@[simp] theorem setRecord_replies (a b c d : Half) : (setRecord s a b c d).replies = s.replies := rfl

/-! ### `setTable` -/

@[simp] theorem setTable_cfg (t : PortTable) : (setTable s t).cfg = s.cfg := rfl
@[simp] theorem setTable_cmd (t : PortTable) : (setTable s t).cmd = s.cmd := rfl
@[simp] theorem setTable_outcome (t : PortTable) : (setTable s t).outcome = s.outcome := rfl
@[simp] theorem setTable_fault (t : PortTable) : (setTable s t).fault = s.fault := rfl
@[simp] theorem setTable_localAddr (t : PortTable) : (setTable s t).localAddr = s.localAddr := rfl
@[simp] theorem setTable_csSrc (t : PortTable) : (setTable s t).csSrc = s.csSrc := rfl
@[simp] theorem setTable_csDst (t : PortTable) : (setTable s t).csDst = s.csDst := rfl
@[simp] theorem setTable_csum (t : PortTable) : (setTable s t).csum = s.csum := rfl
@[simp] theorem setTable_rxRemote (t : PortTable) : (setTable s t).rxRemote = s.rxRemote := rfl
@[simp] theorem setTable_txDaddr (t : PortTable) : (setTable s t).txDaddr = s.txDaddr := rfl
@[simp] theorem setTable_txSport (t : PortTable) : (setTable s t).txSport = s.txSport := rfl
@[simp] theorem setTable_txDport (t : PortTable) : (setTable s t).txDport = s.txDport := rfl
@[simp] theorem setTable_hSport (t : PortTable) : (setTable s t).hSport = s.hSport := rfl
@[simp] theorem setTable_hDport (t : PortTable) : (setTable s t).hDport = s.hDport := rfl
@[simp] theorem setTable_hLen (t : PortTable) : (setTable s t).hLen = s.hLen := rfl
@[simp] theorem setTable_hCsum (t : PortTable) : (setTable s t).hCsum = s.hCsum := rfl
@[simp] theorem setTable_dp (t : PortTable) : (setTable s t).dp = s.dp := rfl
@[simp] theorem setTable_len (t : PortTable) : (setTable s t).len = s.len := rfl
@[simp] theorem setTable_lkResult (t : PortTable) : (setTable s t).lkResult = s.lkResult := rfl
@[simp] theorem setTable_mem (t : PortTable) : (setTable s t).mem = s.mem := rfl
@[simp] theorem setTable_pt (t : PortTable) : (setTable s t).pt = t := rfl
@[simp] theorem setTable_acc (t : PortTable) : (setTable s t).acc = s.acc := rfl
@[simp] theorem setTable_save (t : PortTable) : (setTable s t).save = s.save := rfl
@[simp] theorem setTable_padded (t : PortTable) : (setTable s t).padded = s.padded := rfl
@[simp] theorem setTable_trace (t : PortTable) : (setTable s t).trace = s.trace := rfl
@[simp] theorem setTable_host (t : PortTable) : (setTable s t).host = s.host := rfl
@[simp] theorem setTable_replies (t : PortTable) : (setTable s t).replies = s.replies := rfl

/-! ### `setLkResult` -/

@[simp] theorem setLkResult_cfg (v : Word) : (setLkResult s v).cfg = s.cfg := rfl
@[simp] theorem setLkResult_cmd (v : Word) : (setLkResult s v).cmd = s.cmd := rfl
@[simp] theorem setLkResult_outcome (v : Word) : (setLkResult s v).outcome = s.outcome := rfl
@[simp] theorem setLkResult_fault (v : Word) : (setLkResult s v).fault = s.fault := rfl
@[simp] theorem setLkResult_localAddr (v : Word) : (setLkResult s v).localAddr = s.localAddr := rfl
@[simp] theorem setLkResult_csSrc (v : Word) : (setLkResult s v).csSrc = s.csSrc := rfl
@[simp] theorem setLkResult_csDst (v : Word) : (setLkResult s v).csDst = s.csDst := rfl
@[simp] theorem setLkResult_csum (v : Word) : (setLkResult s v).csum = s.csum := rfl
@[simp] theorem setLkResult_rxRemote (v : Word) : (setLkResult s v).rxRemote = s.rxRemote := rfl
@[simp] theorem setLkResult_txDaddr (v : Word) : (setLkResult s v).txDaddr = s.txDaddr := rfl
@[simp] theorem setLkResult_txSport (v : Word) : (setLkResult s v).txSport = s.txSport := rfl
@[simp] theorem setLkResult_txDport (v : Word) : (setLkResult s v).txDport = s.txDport := rfl
@[simp] theorem setLkResult_hSport (v : Word) : (setLkResult s v).hSport = s.hSport := rfl
@[simp] theorem setLkResult_hDport (v : Word) : (setLkResult s v).hDport = s.hDport := rfl
@[simp] theorem setLkResult_hLen (v : Word) : (setLkResult s v).hLen = s.hLen := rfl
@[simp] theorem setLkResult_hCsum (v : Word) : (setLkResult s v).hCsum = s.hCsum := rfl
@[simp] theorem setLkResult_dp (v : Word) : (setLkResult s v).dp = s.dp := rfl
@[simp] theorem setLkResult_len (v : Word) : (setLkResult s v).len = s.len := rfl
@[simp] theorem setLkResult_lkResult (v : Word) : (setLkResult s v).lkResult = v := rfl
@[simp] theorem setLkResult_mem (v : Word) : (setLkResult s v).mem = s.mem := rfl
@[simp] theorem setLkResult_pt (v : Word) : (setLkResult s v).pt = s.pt := rfl
@[simp] theorem setLkResult_acc (v : Word) : (setLkResult s v).acc = s.acc := rfl
@[simp] theorem setLkResult_save (v : Word) : (setLkResult s v).save = s.save := rfl
@[simp] theorem setLkResult_padded (v : Word) : (setLkResult s v).padded = s.padded := rfl
@[simp] theorem setLkResult_trace (v : Word) : (setLkResult s v).trace = s.trace := rfl
@[simp] theorem setLkResult_host (v : Word) : (setLkResult s v).host = s.host := rfl
@[simp] theorem setLkResult_replies (v : Word) : (setLkResult s v).replies = s.replies := rfl

/-! ### `setSave` -/

@[simp] theorem setSave_cfg (b : List Byte) : (setSave s b).cfg = s.cfg := rfl
@[simp] theorem setSave_cmd (b : List Byte) : (setSave s b).cmd = s.cmd := rfl
@[simp] theorem setSave_outcome (b : List Byte) : (setSave s b).outcome = s.outcome := rfl
@[simp] theorem setSave_fault (b : List Byte) : (setSave s b).fault = s.fault := rfl
@[simp] theorem setSave_localAddr (b : List Byte) : (setSave s b).localAddr = s.localAddr := rfl
@[simp] theorem setSave_csSrc (b : List Byte) : (setSave s b).csSrc = s.csSrc := rfl
@[simp] theorem setSave_csDst (b : List Byte) : (setSave s b).csDst = s.csDst := rfl
@[simp] theorem setSave_csum (b : List Byte) : (setSave s b).csum = s.csum := rfl
@[simp] theorem setSave_rxRemote (b : List Byte) : (setSave s b).rxRemote = s.rxRemote := rfl
@[simp] theorem setSave_txDaddr (b : List Byte) : (setSave s b).txDaddr = s.txDaddr := rfl
@[simp] theorem setSave_txSport (b : List Byte) : (setSave s b).txSport = s.txSport := rfl
@[simp] theorem setSave_txDport (b : List Byte) : (setSave s b).txDport = s.txDport := rfl
@[simp] theorem setSave_hSport (b : List Byte) : (setSave s b).hSport = s.hSport := rfl
@[simp] theorem setSave_hDport (b : List Byte) : (setSave s b).hDport = s.hDport := rfl
@[simp] theorem setSave_hLen (b : List Byte) : (setSave s b).hLen = s.hLen := rfl
@[simp] theorem setSave_hCsum (b : List Byte) : (setSave s b).hCsum = s.hCsum := rfl
@[simp] theorem setSave_dp (b : List Byte) : (setSave s b).dp = s.dp := rfl
@[simp] theorem setSave_len (b : List Byte) : (setSave s b).len = s.len := rfl
@[simp] theorem setSave_lkResult (b : List Byte) : (setSave s b).lkResult = s.lkResult := rfl
@[simp] theorem setSave_mem (b : List Byte) : (setSave s b).mem = s.mem := rfl
@[simp] theorem setSave_pt (b : List Byte) : (setSave s b).pt = s.pt := rfl
@[simp] theorem setSave_acc (b : List Byte) : (setSave s b).acc = s.acc := rfl
@[simp] theorem setSave_save (b : List Byte) : (setSave s b).save = b := rfl
@[simp] theorem setSave_padded (b : List Byte) : (setSave s b).padded = s.padded := rfl
@[simp] theorem setSave_trace (b : List Byte) : (setSave s b).trace = s.trace := rfl
@[simp] theorem setSave_host (b : List Byte) : (setSave s b).host = s.host := rfl
@[simp] theorem setSave_replies (b : List Byte) : (setSave s b).replies = s.replies := rfl

/-! ### `setAcc` -/

@[simp] theorem setAcc_cfg (v : Half) : (setAcc s v).cfg = s.cfg := rfl
@[simp] theorem setAcc_cmd (v : Half) : (setAcc s v).cmd = s.cmd := rfl
@[simp] theorem setAcc_outcome (v : Half) : (setAcc s v).outcome = s.outcome := rfl
@[simp] theorem setAcc_fault (v : Half) : (setAcc s v).fault = s.fault := rfl
@[simp] theorem setAcc_localAddr (v : Half) : (setAcc s v).localAddr = s.localAddr := rfl
@[simp] theorem setAcc_csSrc (v : Half) : (setAcc s v).csSrc = s.csSrc := rfl
@[simp] theorem setAcc_csDst (v : Half) : (setAcc s v).csDst = s.csDst := rfl
@[simp] theorem setAcc_csum (v : Half) : (setAcc s v).csum = s.csum := rfl
@[simp] theorem setAcc_rxRemote (v : Half) : (setAcc s v).rxRemote = s.rxRemote := rfl
@[simp] theorem setAcc_txDaddr (v : Half) : (setAcc s v).txDaddr = s.txDaddr := rfl
@[simp] theorem setAcc_txSport (v : Half) : (setAcc s v).txSport = s.txSport := rfl
@[simp] theorem setAcc_txDport (v : Half) : (setAcc s v).txDport = s.txDport := rfl
@[simp] theorem setAcc_hSport (v : Half) : (setAcc s v).hSport = s.hSport := rfl
@[simp] theorem setAcc_hDport (v : Half) : (setAcc s v).hDport = s.hDport := rfl
@[simp] theorem setAcc_hLen (v : Half) : (setAcc s v).hLen = s.hLen := rfl
@[simp] theorem setAcc_hCsum (v : Half) : (setAcc s v).hCsum = s.hCsum := rfl
@[simp] theorem setAcc_dp (v : Half) : (setAcc s v).dp = s.dp := rfl
@[simp] theorem setAcc_len (v : Half) : (setAcc s v).len = s.len := rfl
@[simp] theorem setAcc_lkResult (v : Half) : (setAcc s v).lkResult = s.lkResult := rfl
@[simp] theorem setAcc_mem (v : Half) : (setAcc s v).mem = s.mem := rfl
@[simp] theorem setAcc_pt (v : Half) : (setAcc s v).pt = s.pt := rfl
@[simp] theorem setAcc_acc (v : Half) : (setAcc s v).acc = v := rfl
@[simp] theorem setAcc_save (v : Half) : (setAcc s v).save = s.save := rfl
@[simp] theorem setAcc_padded (v : Half) : (setAcc s v).padded = s.padded := rfl
@[simp] theorem setAcc_trace (v : Half) : (setAcc s v).trace = s.trace := rfl
@[simp] theorem setAcc_host (v : Half) : (setAcc s v).host = s.host := rfl
@[simp] theorem setAcc_replies (v : Half) : (setAcc s v).replies = s.replies := rfl

/-! ### `setPadded` -/

@[simp] theorem setPadded_cfg (b : Bool) : (setPadded s b).cfg = s.cfg := rfl
@[simp] theorem setPadded_cmd (b : Bool) : (setPadded s b).cmd = s.cmd := rfl
@[simp] theorem setPadded_outcome (b : Bool) : (setPadded s b).outcome = s.outcome := rfl
@[simp] theorem setPadded_fault (b : Bool) : (setPadded s b).fault = s.fault := rfl
@[simp] theorem setPadded_localAddr (b : Bool) : (setPadded s b).localAddr = s.localAddr := rfl
@[simp] theorem setPadded_csSrc (b : Bool) : (setPadded s b).csSrc = s.csSrc := rfl
@[simp] theorem setPadded_csDst (b : Bool) : (setPadded s b).csDst = s.csDst := rfl
@[simp] theorem setPadded_csum (b : Bool) : (setPadded s b).csum = s.csum := rfl
@[simp] theorem setPadded_rxRemote (b : Bool) : (setPadded s b).rxRemote = s.rxRemote := rfl
@[simp] theorem setPadded_txDaddr (b : Bool) : (setPadded s b).txDaddr = s.txDaddr := rfl
@[simp] theorem setPadded_txSport (b : Bool) : (setPadded s b).txSport = s.txSport := rfl
@[simp] theorem setPadded_txDport (b : Bool) : (setPadded s b).txDport = s.txDport := rfl
@[simp] theorem setPadded_hSport (b : Bool) : (setPadded s b).hSport = s.hSport := rfl
@[simp] theorem setPadded_hDport (b : Bool) : (setPadded s b).hDport = s.hDport := rfl
@[simp] theorem setPadded_hLen (b : Bool) : (setPadded s b).hLen = s.hLen := rfl
@[simp] theorem setPadded_hCsum (b : Bool) : (setPadded s b).hCsum = s.hCsum := rfl
@[simp] theorem setPadded_dp (b : Bool) : (setPadded s b).dp = s.dp := rfl
@[simp] theorem setPadded_len (b : Bool) : (setPadded s b).len = s.len := rfl
@[simp] theorem setPadded_lkResult (b : Bool) : (setPadded s b).lkResult = s.lkResult := rfl
@[simp] theorem setPadded_mem (b : Bool) : (setPadded s b).mem = s.mem := rfl
@[simp] theorem setPadded_pt (b : Bool) : (setPadded s b).pt = s.pt := rfl
@[simp] theorem setPadded_acc (b : Bool) : (setPadded s b).acc = s.acc := rfl
@[simp] theorem setPadded_save (b : Bool) : (setPadded s b).save = s.save := rfl
@[simp] theorem setPadded_padded (b : Bool) : (setPadded s b).padded = b := rfl
@[simp] theorem setPadded_trace (b : Bool) : (setPadded s b).trace = s.trace := rfl
@[simp] theorem setPadded_host (b : Bool) : (setPadded s b).host = s.host := rfl
@[simp] theorem setPadded_replies (b : Bool) : (setPadded s b).replies = s.replies := rfl

/-! ### `emit` -/

@[simp] theorem emit_cfg (e : Event) : (emit s e).cfg = s.cfg := rfl
@[simp] theorem emit_cmd (e : Event) : (emit s e).cmd = s.cmd := rfl
@[simp] theorem emit_outcome (e : Event) : (emit s e).outcome = s.outcome := rfl
@[simp] theorem emit_fault (e : Event) : (emit s e).fault = s.fault := rfl
@[simp] theorem emit_localAddr (e : Event) : (emit s e).localAddr = s.localAddr := rfl
@[simp] theorem emit_csSrc (e : Event) : (emit s e).csSrc = s.csSrc := rfl
@[simp] theorem emit_csDst (e : Event) : (emit s e).csDst = s.csDst := rfl
@[simp] theorem emit_csum (e : Event) : (emit s e).csum = s.csum := rfl
@[simp] theorem emit_rxRemote (e : Event) : (emit s e).rxRemote = s.rxRemote := rfl
@[simp] theorem emit_txDaddr (e : Event) : (emit s e).txDaddr = s.txDaddr := rfl
@[simp] theorem emit_txSport (e : Event) : (emit s e).txSport = s.txSport := rfl
@[simp] theorem emit_txDport (e : Event) : (emit s e).txDport = s.txDport := rfl
@[simp] theorem emit_hSport (e : Event) : (emit s e).hSport = s.hSport := rfl
@[simp] theorem emit_hDport (e : Event) : (emit s e).hDport = s.hDport := rfl
@[simp] theorem emit_hLen (e : Event) : (emit s e).hLen = s.hLen := rfl
@[simp] theorem emit_hCsum (e : Event) : (emit s e).hCsum = s.hCsum := rfl
@[simp] theorem emit_dp (e : Event) : (emit s e).dp = s.dp := rfl
@[simp] theorem emit_len (e : Event) : (emit s e).len = s.len := rfl
@[simp] theorem emit_lkResult (e : Event) : (emit s e).lkResult = s.lkResult := rfl
@[simp] theorem emit_mem (e : Event) : (emit s e).mem = s.mem := rfl
@[simp] theorem emit_pt (e : Event) : (emit s e).pt = s.pt := rfl
@[simp] theorem emit_acc (e : Event) : (emit s e).acc = s.acc := rfl
@[simp] theorem emit_save (e : Event) : (emit s e).save = s.save := rfl
@[simp] theorem emit_padded (e : Event) : (emit s e).padded = s.padded := rfl
@[simp] theorem emit_trace (e : Event) : (emit s e).trace = s.trace ++ [e] := rfl
@[simp] theorem emit_host (e : Event) : (emit s e).host = s.host := rfl
@[simp] theorem emit_replies (e : Event) : (emit s e).replies = s.replies := rfl

/-! ### `finish` -/

@[simp] theorem finish_cfg (o : OutcomeCode) : (finish s o).cfg = s.cfg := rfl
@[simp] theorem finish_cmd (o : OutcomeCode) : (finish s o).cmd = none := rfl
@[simp] theorem finish_outcome (o : OutcomeCode) : (finish s o).outcome = o := rfl
@[simp] theorem finish_fault (o : OutcomeCode) : (finish s o).fault = .fNone := rfl
@[simp] theorem finish_localAddr (o : OutcomeCode) : (finish s o).localAddr = s.localAddr := rfl
@[simp] theorem finish_csSrc (o : OutcomeCode) : (finish s o).csSrc = s.csSrc := rfl
@[simp] theorem finish_csDst (o : OutcomeCode) : (finish s o).csDst = s.csDst := rfl
@[simp] theorem finish_csum (o : OutcomeCode) : (finish s o).csum = s.csum := rfl
@[simp] theorem finish_rxRemote (o : OutcomeCode) : (finish s o).rxRemote = s.rxRemote := rfl
@[simp] theorem finish_txDaddr (o : OutcomeCode) : (finish s o).txDaddr = s.txDaddr := rfl
@[simp] theorem finish_txSport (o : OutcomeCode) : (finish s o).txSport = s.txSport := rfl
@[simp] theorem finish_txDport (o : OutcomeCode) : (finish s o).txDport = s.txDport := rfl
@[simp] theorem finish_hSport (o : OutcomeCode) : (finish s o).hSport = s.hSport := rfl
@[simp] theorem finish_hDport (o : OutcomeCode) : (finish s o).hDport = s.hDport := rfl
@[simp] theorem finish_hLen (o : OutcomeCode) : (finish s o).hLen = s.hLen := rfl
@[simp] theorem finish_hCsum (o : OutcomeCode) : (finish s o).hCsum = s.hCsum := rfl
@[simp] theorem finish_dp (o : OutcomeCode) : (finish s o).dp = s.dp := rfl
@[simp] theorem finish_len (o : OutcomeCode) : (finish s o).len = s.len := rfl
@[simp] theorem finish_lkResult (o : OutcomeCode) : (finish s o).lkResult = s.lkResult := rfl
@[simp] theorem finish_mem (o : OutcomeCode) : (finish s o).mem = s.mem := rfl
@[simp] theorem finish_pt (o : OutcomeCode) : (finish s o).pt = s.pt := rfl
@[simp] theorem finish_acc (o : OutcomeCode) : (finish s o).acc = s.acc := rfl
@[simp] theorem finish_save (o : OutcomeCode) : (finish s o).save = s.save := rfl
@[simp] theorem finish_padded (o : OutcomeCode) : (finish s o).padded = s.padded := rfl
@[simp] theorem finish_trace (o : OutcomeCode) : (finish s o).trace = s.trace := rfl
@[simp] theorem finish_host (o : OutcomeCode) : (finish s o).host = s.host := rfl
@[simp] theorem finish_replies (o : OutcomeCode) : (finish s o).replies = s.replies := rfl

/-! ### `raiseFault` -/

@[simp] theorem raiseFault_cfg (f : FaultCode) : (raiseFault s f).cfg = s.cfg := rfl
@[simp] theorem raiseFault_cmd (f : FaultCode) : (raiseFault s f).cmd = none := rfl
@[simp] theorem raiseFault_outcome (f : FaultCode) : (raiseFault s f).outcome = .oFault := rfl
@[simp] theorem raiseFault_fault (f : FaultCode) : (raiseFault s f).fault = f := rfl
@[simp] theorem raiseFault_localAddr (f : FaultCode) : (raiseFault s f).localAddr = s.localAddr := rfl
@[simp] theorem raiseFault_csSrc (f : FaultCode) : (raiseFault s f).csSrc = s.csSrc := rfl
@[simp] theorem raiseFault_csDst (f : FaultCode) : (raiseFault s f).csDst = s.csDst := rfl
@[simp] theorem raiseFault_csum (f : FaultCode) : (raiseFault s f).csum = s.csum := rfl
@[simp] theorem raiseFault_rxRemote (f : FaultCode) : (raiseFault s f).rxRemote = s.rxRemote := rfl
@[simp] theorem raiseFault_txDaddr (f : FaultCode) : (raiseFault s f).txDaddr = s.txDaddr := rfl
@[simp] theorem raiseFault_txSport (f : FaultCode) : (raiseFault s f).txSport = s.txSport := rfl
@[simp] theorem raiseFault_txDport (f : FaultCode) : (raiseFault s f).txDport = s.txDport := rfl
@[simp] theorem raiseFault_hSport (f : FaultCode) : (raiseFault s f).hSport = s.hSport := rfl
@[simp] theorem raiseFault_hDport (f : FaultCode) : (raiseFault s f).hDport = s.hDport := rfl
@[simp] theorem raiseFault_hLen (f : FaultCode) : (raiseFault s f).hLen = s.hLen := rfl
@[simp] theorem raiseFault_hCsum (f : FaultCode) : (raiseFault s f).hCsum = s.hCsum := rfl
@[simp] theorem raiseFault_dp (f : FaultCode) : (raiseFault s f).dp = s.dp := rfl
@[simp] theorem raiseFault_len (f : FaultCode) : (raiseFault s f).len = s.len := rfl
@[simp] theorem raiseFault_lkResult (f : FaultCode) : (raiseFault s f).lkResult = s.lkResult := rfl
@[simp] theorem raiseFault_mem (f : FaultCode) : (raiseFault s f).mem = s.mem := rfl
@[simp] theorem raiseFault_pt (f : FaultCode) : (raiseFault s f).pt = s.pt := rfl
@[simp] theorem raiseFault_acc (f : FaultCode) : (raiseFault s f).acc = s.acc := rfl
@[simp] theorem raiseFault_save (f : FaultCode) : (raiseFault s f).save = s.save := rfl
@[simp] theorem raiseFault_padded (f : FaultCode) : (raiseFault s f).padded = s.padded := rfl
@[simp] theorem raiseFault_trace (f : FaultCode) : (raiseFault s f).trace = s.trace := rfl
@[simp] theorem raiseFault_host (f : FaultCode) : (raiseFault s f).host = s.host := rfl
@[simp] theorem raiseFault_replies (f : FaultCode) : (raiseFault s f).replies = s.replies := rfl

/-! ### `bufPush` -/

@[simp] theorem bufPush_cfg (n : Nat) : (bufPush s n).cfg = s.cfg := rfl
@[simp] theorem bufPush_cmd (n : Nat) : (bufPush s n).cmd = s.cmd := rfl
@[simp] theorem bufPush_outcome (n : Nat) : (bufPush s n).outcome = s.outcome := rfl
@[simp] theorem bufPush_fault (n : Nat) : (bufPush s n).fault = s.fault := rfl
@[simp] theorem bufPush_localAddr (n : Nat) : (bufPush s n).localAddr = s.localAddr := rfl
@[simp] theorem bufPush_csSrc (n : Nat) : (bufPush s n).csSrc = s.csSrc := rfl
@[simp] theorem bufPush_csDst (n : Nat) : (bufPush s n).csDst = s.csDst := rfl
@[simp] theorem bufPush_csum (n : Nat) : (bufPush s n).csum = s.csum := rfl
@[simp] theorem bufPush_rxRemote (n : Nat) : (bufPush s n).rxRemote = s.rxRemote := rfl
@[simp] theorem bufPush_txDaddr (n : Nat) : (bufPush s n).txDaddr = s.txDaddr := rfl
@[simp] theorem bufPush_txSport (n : Nat) : (bufPush s n).txSport = s.txSport := rfl
@[simp] theorem bufPush_txDport (n : Nat) : (bufPush s n).txDport = s.txDport := rfl
@[simp] theorem bufPush_hSport (n : Nat) : (bufPush s n).hSport = s.hSport := rfl
@[simp] theorem bufPush_hDport (n : Nat) : (bufPush s n).hDport = s.hDport := rfl
@[simp] theorem bufPush_hLen (n : Nat) : (bufPush s n).hLen = s.hLen := rfl
@[simp] theorem bufPush_hCsum (n : Nat) : (bufPush s n).hCsum = s.hCsum := rfl
@[simp] theorem bufPush_dp (n : Nat) : (bufPush s n).dp = s.dp - n := rfl
@[simp] theorem bufPush_len (n : Nat) : (bufPush s n).len = s.len + n := rfl
@[simp] theorem bufPush_lkResult (n : Nat) : (bufPush s n).lkResult = s.lkResult := rfl
@[simp] theorem bufPush_mem (n : Nat) : (bufPush s n).mem = s.mem := rfl
@[simp] theorem bufPush_pt (n : Nat) : (bufPush s n).pt = s.pt := rfl
@[simp] theorem bufPush_acc (n : Nat) : (bufPush s n).acc = s.acc := rfl
@[simp] theorem bufPush_save (n : Nat) : (bufPush s n).save = s.save := rfl
@[simp] theorem bufPush_padded (n : Nat) : (bufPush s n).padded = s.padded := rfl
@[simp] theorem bufPush_trace (n : Nat) : (bufPush s n).trace = s.trace := rfl
@[simp] theorem bufPush_host (n : Nat) : (bufPush s n).host = s.host := rfl
@[simp] theorem bufPush_replies (n : Nat) : (bufPush s n).replies = s.replies := rfl

/-! ### `bufPop` -/

@[simp] theorem bufPop_cfg (n : Nat) : (bufPop s n).cfg = s.cfg := rfl
@[simp] theorem bufPop_cmd (n : Nat) : (bufPop s n).cmd = s.cmd := rfl
@[simp] theorem bufPop_outcome (n : Nat) : (bufPop s n).outcome = s.outcome := rfl
@[simp] theorem bufPop_fault (n : Nat) : (bufPop s n).fault = s.fault := rfl
@[simp] theorem bufPop_localAddr (n : Nat) : (bufPop s n).localAddr = s.localAddr := rfl
@[simp] theorem bufPop_csSrc (n : Nat) : (bufPop s n).csSrc = s.csSrc := rfl
@[simp] theorem bufPop_csDst (n : Nat) : (bufPop s n).csDst = s.csDst := rfl
@[simp] theorem bufPop_csum (n : Nat) : (bufPop s n).csum = s.csum := rfl
@[simp] theorem bufPop_rxRemote (n : Nat) : (bufPop s n).rxRemote = s.rxRemote := rfl
@[simp] theorem bufPop_txDaddr (n : Nat) : (bufPop s n).txDaddr = s.txDaddr := rfl
@[simp] theorem bufPop_txSport (n : Nat) : (bufPop s n).txSport = s.txSport := rfl
@[simp] theorem bufPop_txDport (n : Nat) : (bufPop s n).txDport = s.txDport := rfl
@[simp] theorem bufPop_hSport (n : Nat) : (bufPop s n).hSport = s.hSport := rfl
@[simp] theorem bufPop_hDport (n : Nat) : (bufPop s n).hDport = s.hDport := rfl
@[simp] theorem bufPop_hLen (n : Nat) : (bufPop s n).hLen = s.hLen := rfl
@[simp] theorem bufPop_hCsum (n : Nat) : (bufPop s n).hCsum = s.hCsum := rfl
@[simp] theorem bufPop_dp (n : Nat) : (bufPop s n).dp = s.dp + n := rfl
@[simp] theorem bufPop_len (n : Nat) : (bufPop s n).len = s.len - n := rfl
@[simp] theorem bufPop_lkResult (n : Nat) : (bufPop s n).lkResult = s.lkResult := rfl
@[simp] theorem bufPop_mem (n : Nat) : (bufPop s n).mem = s.mem := rfl
@[simp] theorem bufPop_pt (n : Nat) : (bufPop s n).pt = s.pt := rfl
@[simp] theorem bufPop_acc (n : Nat) : (bufPop s n).acc = s.acc := rfl
@[simp] theorem bufPop_save (n : Nat) : (bufPop s n).save = s.save := rfl
@[simp] theorem bufPop_padded (n : Nat) : (bufPop s n).padded = s.padded := rfl
@[simp] theorem bufPop_trace (n : Nat) : (bufPop s n).trace = s.trace := rfl
@[simp] theorem bufPop_host (n : Nat) : (bufPop s n).host = s.host := rfl
@[simp] theorem bufPop_replies (n : Nat) : (bufPop s n).replies = s.replies := rfl

/-! ### `padRemove` -/

@[simp] theorem padRemove_cfg (n : Nat) : (padRemove s n).cfg = s.cfg := rfl
@[simp] theorem padRemove_cmd (n : Nat) : (padRemove s n).cmd = s.cmd := rfl
@[simp] theorem padRemove_outcome (n : Nat) : (padRemove s n).outcome = s.outcome := rfl
@[simp] theorem padRemove_fault (n : Nat) : (padRemove s n).fault = s.fault := rfl
@[simp] theorem padRemove_localAddr (n : Nat) : (padRemove s n).localAddr = s.localAddr := rfl
@[simp] theorem padRemove_csSrc (n : Nat) : (padRemove s n).csSrc = s.csSrc := rfl
@[simp] theorem padRemove_csDst (n : Nat) : (padRemove s n).csDst = s.csDst := rfl
@[simp] theorem padRemove_csum (n : Nat) : (padRemove s n).csum = s.csum := rfl
@[simp] theorem padRemove_rxRemote (n : Nat) : (padRemove s n).rxRemote = s.rxRemote := rfl
@[simp] theorem padRemove_txDaddr (n : Nat) : (padRemove s n).txDaddr = s.txDaddr := rfl
@[simp] theorem padRemove_txSport (n : Nat) : (padRemove s n).txSport = s.txSport := rfl
@[simp] theorem padRemove_txDport (n : Nat) : (padRemove s n).txDport = s.txDport := rfl
@[simp] theorem padRemove_hSport (n : Nat) : (padRemove s n).hSport = s.hSport := rfl
@[simp] theorem padRemove_hDport (n : Nat) : (padRemove s n).hDport = s.hDport := rfl
@[simp] theorem padRemove_hLen (n : Nat) : (padRemove s n).hLen = s.hLen := rfl
@[simp] theorem padRemove_hCsum (n : Nat) : (padRemove s n).hCsum = s.hCsum := rfl
@[simp] theorem padRemove_dp (n : Nat) : (padRemove s n).dp = s.dp := rfl
@[simp] theorem padRemove_len (n : Nat) : (padRemove s n).len = s.len - n := rfl
@[simp] theorem padRemove_lkResult (n : Nat) : (padRemove s n).lkResult = s.lkResult := rfl
@[simp] theorem padRemove_mem (n : Nat) : (padRemove s n).mem = s.mem := rfl
@[simp] theorem padRemove_pt (n : Nat) : (padRemove s n).pt = s.pt := rfl
@[simp] theorem padRemove_acc (n : Nat) : (padRemove s n).acc = s.acc := rfl
@[simp] theorem padRemove_save (n : Nat) : (padRemove s n).save = s.save := rfl
@[simp] theorem padRemove_padded (n : Nat) : (padRemove s n).padded = s.padded := rfl
@[simp] theorem padRemove_trace (n : Nat) : (padRemove s n).trace = s.trace := rfl
@[simp] theorem padRemove_host (n : Nat) : (padRemove s n).host = s.host := rfl
@[simp] theorem padRemove_replies (n : Nat) : (padRemove s n).replies = s.replies := rfl

/-! ### `padAdd` -/

@[simp] theorem padAdd_cfg (n : Nat) : (padAdd s n).cfg = s.cfg := rfl
@[simp] theorem padAdd_cmd (n : Nat) : (padAdd s n).cmd = s.cmd := rfl
@[simp] theorem padAdd_outcome (n : Nat) : (padAdd s n).outcome = s.outcome := rfl
@[simp] theorem padAdd_fault (n : Nat) : (padAdd s n).fault = s.fault := rfl
@[simp] theorem padAdd_localAddr (n : Nat) : (padAdd s n).localAddr = s.localAddr := rfl
@[simp] theorem padAdd_csSrc (n : Nat) : (padAdd s n).csSrc = s.csSrc := rfl
@[simp] theorem padAdd_csDst (n : Nat) : (padAdd s n).csDst = s.csDst := rfl
@[simp] theorem padAdd_csum (n : Nat) : (padAdd s n).csum = s.csum := rfl
@[simp] theorem padAdd_rxRemote (n : Nat) : (padAdd s n).rxRemote = s.rxRemote := rfl
@[simp] theorem padAdd_txDaddr (n : Nat) : (padAdd s n).txDaddr = s.txDaddr := rfl
@[simp] theorem padAdd_txSport (n : Nat) : (padAdd s n).txSport = s.txSport := rfl
@[simp] theorem padAdd_txDport (n : Nat) : (padAdd s n).txDport = s.txDport := rfl
@[simp] theorem padAdd_hSport (n : Nat) : (padAdd s n).hSport = s.hSport := rfl
@[simp] theorem padAdd_hDport (n : Nat) : (padAdd s n).hDport = s.hDport := rfl
@[simp] theorem padAdd_hLen (n : Nat) : (padAdd s n).hLen = s.hLen := rfl
@[simp] theorem padAdd_hCsum (n : Nat) : (padAdd s n).hCsum = s.hCsum := rfl
@[simp] theorem padAdd_dp (n : Nat) : (padAdd s n).dp = s.dp := rfl
@[simp] theorem padAdd_len (n : Nat) : (padAdd s n).len = s.len + n := rfl
@[simp] theorem padAdd_lkResult (n : Nat) : (padAdd s n).lkResult = s.lkResult := rfl
@[simp] theorem padAdd_mem (n : Nat) : (padAdd s n).mem = s.mem.writeBytes (s.dp + s.len) (List.replicate n 0x00#8) := rfl
@[simp] theorem padAdd_pt (n : Nat) : (padAdd s n).pt = s.pt := rfl
@[simp] theorem padAdd_acc (n : Nat) : (padAdd s n).acc = s.acc := rfl
@[simp] theorem padAdd_save (n : Nat) : (padAdd s n).save = s.save := rfl
@[simp] theorem padAdd_padded (n : Nat) : (padAdd s n).padded = s.padded := rfl
@[simp] theorem padAdd_trace (n : Nat) : (padAdd s n).trace = s.trace := rfl
@[simp] theorem padAdd_host (n : Nat) : (padAdd s n).host = s.host := rfl
@[simp] theorem padAdd_replies (n : Nat) : (padAdd s n).replies = s.replies := rfl

/-! ### `takeAction` -/

@[simp] theorem takeAction_cfg (l : List HostAction) : (takeAction s l).cfg = s.cfg := rfl
@[simp] theorem takeAction_cmd (l : List HostAction) : (takeAction s l).cmd = s.cmd := rfl
@[simp] theorem takeAction_outcome (l : List HostAction) : (takeAction s l).outcome = s.outcome := rfl
@[simp] theorem takeAction_fault (l : List HostAction) : (takeAction s l).fault = s.fault := rfl
@[simp] theorem takeAction_localAddr (l : List HostAction) : (takeAction s l).localAddr = s.localAddr := rfl
@[simp] theorem takeAction_csSrc (l : List HostAction) : (takeAction s l).csSrc = s.csSrc := rfl
@[simp] theorem takeAction_csDst (l : List HostAction) : (takeAction s l).csDst = s.csDst := rfl
@[simp] theorem takeAction_csum (l : List HostAction) : (takeAction s l).csum = s.csum := rfl
@[simp] theorem takeAction_rxRemote (l : List HostAction) : (takeAction s l).rxRemote = s.rxRemote := rfl
@[simp] theorem takeAction_txDaddr (l : List HostAction) : (takeAction s l).txDaddr = s.txDaddr := rfl
@[simp] theorem takeAction_txSport (l : List HostAction) : (takeAction s l).txSport = s.txSport := rfl
@[simp] theorem takeAction_txDport (l : List HostAction) : (takeAction s l).txDport = s.txDport := rfl
@[simp] theorem takeAction_hSport (l : List HostAction) : (takeAction s l).hSport = s.hSport := rfl
@[simp] theorem takeAction_hDport (l : List HostAction) : (takeAction s l).hDport = s.hDport := rfl
@[simp] theorem takeAction_hLen (l : List HostAction) : (takeAction s l).hLen = s.hLen := rfl
@[simp] theorem takeAction_hCsum (l : List HostAction) : (takeAction s l).hCsum = s.hCsum := rfl
@[simp] theorem takeAction_dp (l : List HostAction) : (takeAction s l).dp = s.dp := rfl
@[simp] theorem takeAction_len (l : List HostAction) : (takeAction s l).len = s.len := rfl
@[simp] theorem takeAction_lkResult (l : List HostAction) : (takeAction s l).lkResult = s.lkResult := rfl
@[simp] theorem takeAction_mem (l : List HostAction) : (takeAction s l).mem = s.mem := rfl
@[simp] theorem takeAction_pt (l : List HostAction) : (takeAction s l).pt = s.pt := rfl
@[simp] theorem takeAction_acc (l : List HostAction) : (takeAction s l).acc = s.acc := rfl
@[simp] theorem takeAction_save (l : List HostAction) : (takeAction s l).save = s.save := rfl
@[simp] theorem takeAction_padded (l : List HostAction) : (takeAction s l).padded = s.padded := rfl
@[simp] theorem takeAction_trace (l : List HostAction) : (takeAction s l).trace = s.trace := rfl
@[simp] theorem takeAction_host (l : List HostAction) : (takeAction s l).host = l := rfl
@[simp] theorem takeAction_replies (l : List HostAction) : (takeAction s l).replies = s.replies := rfl

/-! ### `reply` -/

@[simp] theorem reply_cfg (v : Word) : (reply s v).cfg = s.cfg := rfl
@[simp] theorem reply_cmd (v : Word) : (reply s v).cmd = s.cmd := rfl
@[simp] theorem reply_outcome (v : Word) : (reply s v).outcome = s.outcome := rfl
@[simp] theorem reply_fault (v : Word) : (reply s v).fault = s.fault := rfl
@[simp] theorem reply_localAddr (v : Word) : (reply s v).localAddr = s.localAddr := rfl
@[simp] theorem reply_csSrc (v : Word) : (reply s v).csSrc = s.csSrc := rfl
@[simp] theorem reply_csDst (v : Word) : (reply s v).csDst = s.csDst := rfl
@[simp] theorem reply_csum (v : Word) : (reply s v).csum = s.csum := rfl
@[simp] theorem reply_rxRemote (v : Word) : (reply s v).rxRemote = s.rxRemote := rfl
@[simp] theorem reply_txDaddr (v : Word) : (reply s v).txDaddr = s.txDaddr := rfl
@[simp] theorem reply_txSport (v : Word) : (reply s v).txSport = s.txSport := rfl
@[simp] theorem reply_txDport (v : Word) : (reply s v).txDport = s.txDport := rfl
@[simp] theorem reply_hSport (v : Word) : (reply s v).hSport = s.hSport := rfl
@[simp] theorem reply_hDport (v : Word) : (reply s v).hDport = s.hDport := rfl
@[simp] theorem reply_hLen (v : Word) : (reply s v).hLen = s.hLen := rfl
@[simp] theorem reply_hCsum (v : Word) : (reply s v).hCsum = s.hCsum := rfl
@[simp] theorem reply_dp (v : Word) : (reply s v).dp = s.dp := rfl
@[simp] theorem reply_len (v : Word) : (reply s v).len = s.len := rfl
@[simp] theorem reply_lkResult (v : Word) : (reply s v).lkResult = s.lkResult := rfl
@[simp] theorem reply_mem (v : Word) : (reply s v).mem = s.mem := rfl
@[simp] theorem reply_pt (v : Word) : (reply s v).pt = s.pt := rfl
@[simp] theorem reply_acc (v : Word) : (reply s v).acc = s.acc := rfl
@[simp] theorem reply_save (v : Word) : (reply s v).save = s.save := rfl
@[simp] theorem reply_padded (v : Word) : (reply s v).padded = s.padded := rfl
@[simp] theorem reply_trace (v : Word) : (reply s v).trace = s.trace := rfl
@[simp] theorem reply_host (v : Word) : (reply s v).host = s.host := rfl
@[simp] theorem reply_replies (v : Word) : (reply s v).replies = s.replies ++ [v] := rfl

end Sys2Proof.Machine
end

