-- ==== Sys2Proof/Laws/Operands.lean ====
section
/-! SUPPORT. Byte order, header fields, and the lengths of the byte sequences the meanings build. -/

namespace Sys2Proof.Machine

@[simp] theorem be16_hi8_lo8 (v : Half) : be16 (hi8 v) (lo8 v) = v := by
  simp only [be16, hi8, lo8]
  ext i hi
  simp only [BitVec.getElem_append, BitVec.getElem_extractLsb']
  split
  · rw [BitVec.getLsbD_eq_getElem (by omega)]; simp
  · rw [BitVec.getLsbD_eq_getElem (by omega)]; congr 1; omega

@[simp] theorem hi8_be16 (a b : Byte) : hi8 (be16 a b) = a := by
  simp only [be16, hi8]
  ext i hi
  simp only [BitVec.getElem_extractLsb', BitVec.getLsbD_append]
  rw [if_neg (by omega), show 8 + i - 8 = i by omega, BitVec.getLsbD_eq_getElem hi]

@[simp] theorem lo8_be16 (a b : Byte) : lo8 (be16 a b) = b := by
  simp only [be16, lo8]
  ext i hi
  simp only [BitVec.getElem_extractLsb', BitVec.getLsbD_append]
  rw [if_pos (by omega), show 0 + i = i by omega, BitVec.getLsbD_eq_getElem hi]

/-- `be16(b0, b1) = b0 * 256 + b1` (00_scope.md R11). -/
theorem be16_toNat (a b : Byte) : (be16 a b).toNat = a.toNat * 256 + b.toNat := by
  have := b.isLt
  rw [be16, BitVec.toNat_append, Nat.shiftLeft_eq, Nat.mul_comm, ← Nat.two_pow_add_eq_or_of_lt this a.toNat]

@[simp] theorem length_addrBytes (r : Word) : (addrBytes r).length = 4 := rfl

@[simp] theorem length_headerBytes (a b c d : Half) : (headerBytes a b c d).length = 8 := rfl

@[simp] theorem length_pseudo (p : Byte) (src dst : List Byte) (n : Nat) :
    (pseudo p src dst n).length = src.length + dst.length + 4 := by simp [pseudo]; omega

/-! ### `wr16`, `hdr_write` -/

theorem wr16_eq (s : State) (o : Nat) (v : Half) :
    wr16 s o v = setMem s (s.mem.writeBytes (s.dp + o) [hi8 v, lo8 v]) := rfl

/-- `hdr_write()` is one write of the record's image at the front of the packet. -/
theorem hdrWrite_eq (s : State) : hdrWrite s = setMem s (s.mem.writeBytes s.dp (headerBytes s.hSport s.hDport s.hLen s.hCsum)) := by
  simp only [hdrWrite, wr16, setMem, headerBytes, Memory.writeBytes, Nat.add_assoc, Nat.add_zero, Nat.reduceAdd]

theorem readByte_wr16 (s : State) (o : Nat) (v : Half) (x : Nat) :
    (wr16 s o v).mem.readByte x =
      if x = s.dp + o + 1 then lo8 v else if x = s.dp + o then hi8 v else s.mem.readByte x := by
  simp [wr16, Memory.readByte_writeByte]

/-- A header field just placed is read back; a field at another even offset is not disturbed
(41_header_ops.md R143). -/
theorem rd16_wr16_same (s : State) (o : Nat) (v : Half) : rd16 (wr16 s o v) o = v := by
  have h : s.dp + o ≠ s.dp + o + 1 := by omega
  have hd : (wr16 s o v).dp = s.dp := rfl
  simp only [rd16, hd, readByte_wr16, if_true, if_neg h, be16_hi8_lo8]

theorem rd16_wr16_other (s : State) (o o' : Nat) (v : Half) (h : o + 2 ≤ o' ∨ o' + 2 ≤ o) :
    rd16 (wr16 s o v) o' = rd16 s o' := by
  have hd : (wr16 s o v).dp = s.dp := rfl
  simp only [rd16, hd, readByte_wr16]
  rw [if_neg (by omega), if_neg (by omega), if_neg (by omega), if_neg (by omega)]

/-- Placing back what was read changes no byte. -/
theorem readByte_wr16_rd16 (s : State) (o x : Nat) : (wr16 s o (rd16 s o)).mem.readByte x = s.mem.readByte x := by
  rw [readByte_wr16]
  simp only [rd16, hi8_be16, lo8_be16]
  split
  · rename_i h; rw [h]
  · split
    · rename_i h; rw [h]
    · rfl

/-- Every byte after `hdr_write()`. -/
theorem readByte_hdrWrite (s : State) (x : Nat) :
    (hdrWrite s).mem.readByte x =
      if s.dp ≤ x ∧ x < s.dp + 8 then
        (headerBytes s.hSport s.hDport s.hLen s.hCsum).getD (x - s.dp) 0x00#8
      else s.mem.readByte x := by
  rw [hdrWrite_eq, setMem_mem, Memory.readByte_writeBytes, length_headerBytes]

/-! ### `DATA` -/

@[simp] theorem length_data (s : State) : s.data.length = s.len := by simp [State.data]

theorem getElem?_data (s : State) (i : Nat) :
    s.data[i]? = if i < s.len then some (s.mem.readByte (s.dp + i)) else none :=
  Memory.getElem?_readBytes _ _ _ _

end Sys2Proof.Machine
end

