-- ==== Sys2Proof/Laws/Checksum.lean ====
section
/-! SUPPORT. The adder as arithmetic on numbers, and what `csum_inplace` does (42_checksum.md R157), said once
so that no proof unfolds its steps. -/

namespace Sys2Proof.Machine

/-- End-around carry as numbers: `a + b` when that fits 16 bits, else `a + b - 0xFFFF` (42_checksum.md R150). -/
theorem ocAdd16_toNat (a b : Half) :
    (ocAdd16 a b).toNat = if a.toNat + b.toNat ≤ 0xFFFF then a.toNat + b.toNat else a.toNat + b.toNat - 0xFFFF := by
  have ha := a.isLt
  have hb := b.isLt
  simp only [ocAdd16, BitVec.toNat_add, BitVec.toNat_setWidth, BitVec.extractLsb'_toNat,
    Nat.shiftRight_eq_div_pow]
  split <;> omega

/-- The fold of the adder, one word at a time. -/
theorem ocSumFrom_cons (acc : Half) (b0 b1 : Byte) (t : List Byte) :
    ocSumFrom acc (b0 :: b1 :: t) = ocSumFrom (ocAdd16 acc (be16 b0 b1)) t := rfl

/-! ### The steps of `csum_inplace` -/

/-- Where the packet and the bytes in front of it stand once the pseudo-header is overlaid: 12 bytes further
front, by pseudo-header then packet. -/
theorem csumOverlay_eq (s : State) (src dst : List Byte) (h12 : 12 ≤ s.cfg.ipHdrSize) (hdp : s.cfg.ipHdrSize ≤ s.dp) :
    csumOverlay s src dst =
      setMem (setWindow (setSave s (s.mem.readBytes (s.dp - 12) 12)) (s.dp - 12) (s.len + 12))
        (s.mem.writeBytes (s.dp - 12) (pseudo s.cfg.protoId src dst s.len)) := by
  have h1 : s.dp - s.cfg.ipHdrSize + (s.cfg.ipHdrSize - 12) = s.dp - 12 := by omega
  have h2 : s.len + s.cfg.ipHdrSize - (s.cfg.ipHdrSize - 12) = s.len + 12 := by omega
  simp only [csumOverlay, bufPush, bufPop, setWindow, setSave, setMem, h1, h2, Nat.add_sub_cancel]

/-- `MEM` while the sum is taken. -/
def csumMem (s : State) (src dst : List Byte) : Memory :=
  let m := s.mem.writeBytes (s.dp - 12) (pseudo s.cfg.protoId src dst s.len)
  if s.len % 2 = 1 then m.writeBytes (s.dp + s.len) [0x00#8] else m

/-- `MEM` when `csum_inplace` is done. -/
def csumMemAfter (s : State) (src dst : List Byte) : Memory :=
  (csumMem s src dst).writeBytes (s.dp - 12) (s.mem.readBytes (s.dp - 12) 12)

/-- The bytes that are summed are the checksum input of 30_encoding.md R94. -/
theorem csumMem_readBytes (s : State) (src dst : List Byte) (h12 : 12 ≤ s.dp) (hsrc : src.length = 4)
    (hdst : dst.length = 4) :
    (csumMem s src dst).readBytes (s.dp - 12) (s.len + 12 + s.len % 2) = csumInput s.cfg.protoId src dst s.data := by
  have hp : (pseudo s.cfg.protoId src dst s.len).length = 12 := by simp [hsrc, hdst]
  have hdp : s.dp - 12 + 12 = s.dp := by omega
  have front : ∀ m : Memory, m = s.mem.writeBytes (s.dp - 12) (pseudo s.cfg.protoId src dst s.len) →
      m.readBytes (s.dp - 12) (12 + s.len) = pseudo s.cfg.protoId src dst s.len ++ s.data := by
    rintro m rfl
    rw [Memory.readBytes_append, hdp]
    congr 1
    · simpa [hp] using Memory.readBytes_writeBytes_same s.mem (s.dp - 12) (pseudo s.cfg.protoId src dst s.len)
    · exact Memory.readBytes_writeBytes_apart _ _ _ _ _ (.inr (by omega))
  rw [csumInput, length_data]
  by_cases hodd : s.len % 2 = 1
  · simp only [csumMem, hodd, if_true]
    rw [show s.len + 12 + 1 = (12 + s.len) + 1 by omega, Memory.readBytes_append,
      Memory.readBytes_writeBytes_apart _ _ _ _ _ (.inl (by omega)), front _ rfl]
    congr 1
    rw [show s.dp - 12 + (12 + s.len) = s.dp + s.len by omega]
    simpa using Memory.readBytes_writeBytes_same _ (s.dp + s.len) [0x00#8]
  · have h0 : s.len % 2 = 0 := by omega
    simp only [csumMem, h0]
    rw [if_neg (by omega), if_neg (by omega), show s.len + 12 + 0 = 12 + s.len by omega, front _ rfl, List.append_nil]

/-- Every byte of `MEM` when `csum_inplace` is done (42_checksum.md R157c): unchanged, but the byte behind an
odd-length packet is 0. -/
theorem readByte_csumMemAfter (s : State) (src dst : List Byte) (h12 : 12 ≤ s.dp) (hsrc : src.length = 4)
    (hdst : dst.length = 4) (x : Nat) :
    (csumMemAfter s src dst).readByte x =
      if s.len % 2 = 1 ∧ x = s.dp + s.len then 0x00#8 else s.mem.readByte x := by
  have hp : (pseudo s.cfg.protoId src dst s.len).length = 12 := by simp [hsrc, hdst]
  rw [csumMemAfter, Memory.readByte_writeBytes, Memory.length_readBytes]
  by_cases hx : s.dp - 12 ≤ x ∧ x < s.dp - 12 + 12
  · rw [if_pos hx, if_neg (by omega), List.getD_eq_getElem?_getD, Memory.getElem?_readBytes, if_pos (by omega)]
    rw [show s.dp - 12 + (x - (s.dp - 12)) = x by omega]
    rfl
  · rw [if_neg hx, csumMem]
    by_cases hodd : s.len % 2 = 1
    · simp only [hodd, if_true, true_and, Memory.readByte_writeBytes, List.length_singleton, hp]
      by_cases hl : x = s.dp + s.len
      · rw [if_pos (by omega), if_pos hl, hl, Nat.sub_self]; rfl
      · rw [if_neg (by omega), if_neg hx, if_neg hl]
    · simp only [hodd, if_false, false_and, Memory.readByte_writeBytes, hp]
      rw [if_neg hx]

/-- What `csum_inplace` does (42_checksum.md R157): `CSUM`, `ACC` and `SAVE` get the values of the rule, `MEM`
is `csumMemAfter`, and nothing else changes. -/
theorem csumInplace_eq (s : State) (src dst : List Byte) (h12 : 12 ≤ s.cfg.ipHdrSize)
    (hdp : s.cfg.ipHdrSize ≤ s.dp) (hpad : s.padded = false) (hsrc : src.length = 4) (hdst : dst.length = 4) :
    csumInplace s src dst =
      { s with
        save := s.mem.readBytes (s.dp - 12) 12
        acc := ocSum (csumInput s.cfg.protoId src dst s.data)
        csum := checksum s.cfg.protoId src dst s.data
        mem := csumMemAfter s src dst } := by
  have hsum := csumMem_readBytes s src dst (by omega) hsrc hdst
  have hb : s.dp - 12 + 12 = s.dp := by omega
  have hlen : (s.len + 12) % 2 = s.len % 2 := by omega
  have htail : s.dp - 12 + (s.len + 12) = s.dp + s.len := by omega
  rw [checksum, csum16, ← hsum]
  unfold csumInplace
  rw [csumOverlay_eq s src dst h12 hdp]
  by_cases hodd : s.len % 2 = 1
  · simp only [csumMemAfter, csumMem, csumPad, csumAccumulate, csumRestore, padAdd, padRemove, bufPop, setMem, setWindow,
      setSave, setAcc, setPadded, setCsum, State.data, hlen, hodd, if_true, htail, List.replicate_one, hb,
      Nat.add_sub_cancel, ← hpad]
  · have h0 : s.len % 2 = 0 := by omega
    simp only [csumMemAfter, csumMem, csumPad, csumAccumulate, csumRestore, bufPop, setMem, setWindow,
      setSave, setAcc, setCsum, State.data, hlen, h0, hpad, Nat.add_zero]
    simp [hb]

theorem csumMemAfter_wf (s : State) (src dst : List Byte) (h : s.mem.wf = true) : (csumMemAfter s src dst).wf = true := by
  unfold csumMemAfter csumMem
  refine Memory.writeBytes_wf ?_ _ _
  split
  · exact Memory.writeBytes_wf (Memory.writeBytes_wf h _ _) _ _
  · exact Memory.writeBytes_wf h _ _

theorem csumMemAfter_within (s : State) (src dst : List Byte) (cap : Nat) (h : s.mem.within cap = true)
    (h12 : 12 ≤ s.dp) (hsrc : src.length = 4) (hdst : dst.length = 4) (hbuf : s.dp + s.len ≤ cap)
    (hroom : s.len % 2 = 1 → s.dp + s.len + 1 ≤ cap) : (csumMemAfter s src dst).within cap = true := by
  have hp : (pseudo s.cfg.protoId src dst s.len).length = 12 := by simp [hsrc, hdst]
  unfold csumMemAfter csumMem
  refine Memory.writeBytes_within ?_ _ (by simp; omega)
  split
  · rename_i hodd
    exact Memory.writeBytes_within (Memory.writeBytes_within h _ (by omega)) _ (by simpa using hroom hodd)
  · exact Memory.writeBytes_within h _ (by omega)

/-- With `MEM` in canonical form and an even length, `csum_inplace` leaves `MEM` the same data. -/
theorem csumMemAfter_even (s : State) (src dst : List Byte) (h : s.mem.wf = true) (h12 : 12 ≤ s.dp)
    (hsrc : src.length = 4) (hdst : dst.length = 4) (heven : s.len % 2 = 0) : csumMemAfter s src dst = s.mem := by
  refine Memory.ext (csumMemAfter_wf s src dst h) h (fun a => ?_)
  rw [readByte_csumMemAfter s src dst h12 hsrc hdst, if_neg (by omega)]

/-- The packet itself is left as it was (42_checksum.md R157c). -/
theorem data_csumInplace (s : State) (src dst : List Byte) (h12 : 12 ≤ s.cfg.ipHdrSize) (hdp : s.cfg.ipHdrSize ≤ s.dp)
    (hpad : s.padded = false) (hsrc : src.length = 4) (hdst : dst.length = 4) :
    (csumInplace s src dst).data = s.data := by
  rw [csumInplace_eq s src dst h12 hdp hpad hsrc hdst]
  refine Memory.readBytes_congr (fun i (hi : i < s.len) => ?_)
  exact (readByte_csumMemAfter s src dst (by omega) hsrc hdst _).trans (if_neg (fun h => by have := h.2; simp at this; omega))

end Sys2Proof.Machine
end

