-- ==== Sys2Proof/Laws/Ingress.lean ====
section
/-! SUPPORT. What the parts of RX do (44_ingress.md R183 to R185), said once so that no proof unfolds them. -/

namespace Sys2Proof.Machine

/-- The complement of the checksum is the sum `ACC` keeps. -/
theorem ocSum_csumInput (p : Byte) (src dst data : List Byte) :
    ocSum (csumInput p src dst data) = ~~~checksum p src dst data := by
  simp [checksum, csum16]

/-- Zeroing the `checksum` field in `MEM` zeroes it in the packet (44_ingress.md R183 `D0`). -/
theorem data_wr16_zero (s : State) (h : 8 ≤ s.len) : (wr16 s 6 0x0000#16).data = withZeroChecksum s.data := by
  refine List.ext_getElem? (fun i => ?_)
  have hd : (wr16 s 6 0x0000#16).dp = s.dp := rfl
  have hl : (wr16 s 6 0x0000#16).len = s.len := rfl
  rw [getElem?_data, hd, hl, readByte_wr16, withZeroChecksum, List.getElem?_set, List.getElem?_set, List.length_set,
    length_data, getElem?_data]
  by_cases h7 : i = 7
  · subst h7
    rw [if_pos (by omega), if_pos (by omega), if_pos rfl, if_pos (by omega)]
    rfl
  · by_cases h6 : i = 6
    · subst h6
      rw [if_pos (by omega), if_neg (by omega), if_pos (by omega), if_neg (by omega), if_pos rfl, if_pos (by omega)]
      rfl
    · rw [if_neg (Ne.symm h7), if_neg (Ne.symm h6)]
      split
      · rw [if_neg (by omega), if_neg (by omega)]
      · rfl

/-- What steps 2a to 2c of RX do: the stored checksum is in `H_CSUM`, the recomputed one in `CSUM`. -/
theorem rxRecompute_eq (s : State) (h12 : 12 ≤ s.cfg.ipHdrSize) (hdp : s.cfg.ipHdrSize ≤ s.dp)
    (hpad : s.padded = false) (hlen : 8 ≤ s.len) :
    rxRecompute s =
      { s with
        hCsum := rd16 s 6
        save := s.mem.readBytes (s.dp - 12) 12
        acc := ~~~checksum s.cfg.protoId (addrBytes s.rxRemote) (addrBytes s.localAddr) (withZeroChecksum s.data)
        csum := checksum s.cfg.protoId (addrBytes s.rxRemote) (addrBytes s.localAddr) (withZeroChecksum s.data)
        mem := csumMemAfter (wr16 s 6 0x0000#16) (addrBytes s.rxRemote) (addrBytes s.localAddr) } := by
  have hsave : (s.mem.writeBytes (s.dp + 6) [0x00#8, 0x00#8]).readBytes (s.dp - 12) 12 = s.mem.readBytes (s.dp - 12) 12 :=
    Memory.readBytes_writeBytes_apart _ _ _ _ _ (.inl (by omega))
  have key := csumInplace_eq (wr16 (setRecord s s.hSport s.hDport s.hLen (rd16 s 6)) 6 0x0000#16)
    (addrBytes s.rxRemote) (addrBytes s.localAddr) h12 hdp hpad rfl rfl
  have hdata := data_wr16_zero (setRecord s s.hSport s.hDport s.hLen (rd16 s 6)) hlen
  rw [hdata, ocSum_csumInput] at key
  refine key.trans ?_
  have hs : (wr16 (setRecord s s.hSport s.hDport s.hLen (rd16 s 6)) 6 0x0000#16).mem.readBytes (s.dp - 12) 12 =
      s.mem.readBytes (s.dp - 12) 12 := hsave
  simp only [wr16, setRecord, setMem] at hs ⊢
  rw [hs]
  rfl

/-- Every byte after steps 2a to 2c: the `checksum` field is zero, and the byte behind an odd-length packet. -/
theorem readByte_rxRecompute (s : State) (h12 : 12 ≤ s.cfg.ipHdrSize) (hdp : s.cfg.ipHdrSize ≤ s.dp)
    (hpad : s.padded = false) (hlen : 8 ≤ s.len) (x : Nat) :
    (rxRecompute s).mem.readByte x =
      if x = s.dp + 6 ∨ x = s.dp + 7 ∨ (s.len % 2 = 1 ∧ x = s.dp + s.len) then 0x00#8 else s.mem.readByte x := by
  rw [rxRecompute_eq s h12 hdp hpad hlen]
  have hd : (wr16 s 6 0x0000#16).dp = s.dp := rfl
  have hl : (wr16 s 6 0x0000#16).len = s.len := rfl
  rw [readByte_csumMemAfter _ _ _ (by omega) rfl rfl, hd, hl, readByte_wr16]
  by_cases h1 : s.len % 2 = 1 ∧ x = s.dp + s.len
  · rw [if_pos h1, if_pos (.inr (.inr h1))]
  · rw [if_neg h1]
    by_cases h7 : x = s.dp + 7
    · rw [if_pos h7, if_pos (.inr (.inl h7))]
      rfl
    · by_cases h6 : x = s.dp + 6
      · rw [if_neg (by omega), if_pos h6, if_pos (.inl h6)]
        rfl
      · rw [if_neg (by omega), if_neg h6, if_neg (by omega)]

/-- Every byte once the stored checksum is put back (step 2e): all of the packet is as received. -/
theorem readByte_rxRestored (s : State) (h12 : 12 ≤ s.cfg.ipHdrSize) (hdp : s.cfg.ipHdrSize ≤ s.dp)
    (hpad : s.padded = false) (hlen : 8 ≤ s.len) (x : Nat) :
    (wr16 (rxRecompute s) 6 (rxRecompute s).hCsum).mem.readByte x =
      if s.len % 2 = 1 ∧ x = s.dp + s.len then 0x00#8 else s.mem.readByte x := by
  have hc : (rxRecompute s).hCsum = rd16 s 6 := by rw [rxRecompute_eq s h12 hdp hpad hlen]
  have hd : (rxRecompute s).dp = s.dp := by rw [rxRecompute_eq s h12 hdp hpad hlen]
  rw [readByte_wr16, hc, hd, readByte_rxRecompute s h12 hdp hpad hlen, rd16, hi8_be16, lo8_be16]
  by_cases h7 : x = s.dp + 7
  · subst h7
    rw [if_pos (by omega), if_neg (by omega)]
  · by_cases h6 : x = s.dp + 6
    · subst h6
      rw [if_neg (by omega), if_pos (by omega), if_neg (by omega)]
    · rw [if_neg (by omega), if_neg (by omega)]
      by_cases h1 : s.len % 2 = 1 ∧ x = s.dp + s.len
      · rw [if_pos (.inr (.inr h1)), if_pos h1]
      · rw [if_neg (by omega), if_neg h1]

/-- A header field placed inside `MEM` keeps the canonical form. -/
theorem wr16_mem (s : State) (o : Nat) (v : Half) {cap : Nat} (h : s.mem.wf = true ∧ s.mem.within cap = true)
    (ho : s.dp + o + 2 ≤ cap) : (wr16 s o v).mem.wf = true ∧ (wr16 s o v).mem.within cap = true := by
  rw [wr16_eq]
  exact ⟨Memory.writeBytes_wf h.1 _ _, Memory.writeBytes_within h.2 _ (by simpa using ho)⟩

/-- Steps 2a to 2c of RX keep the canonical form of `MEM`. -/
theorem rxRecompute_mem (s : State) (h12 : 12 ≤ s.cfg.ipHdrSize) (hroom : s.HasSumRoom) (hbuf : s.BufferOk)
    (hmem : s.MemOk) (hpad : s.padded = false) (hlen : 8 ≤ s.len) :
    (rxRecompute s).mem.wf = true ∧ (rxRecompute s).mem.within s.cfg.bufCap = true := by
  have hdp := hroom.1
  have hb : s.dp + s.len ≤ s.cfg.bufCap := hbuf
  have hz := wr16_mem s 6 0x0000#16 hmem (by omega)
  rw [rxRecompute_eq s h12 hdp hpad hlen]
  refine ⟨csumMemAfter_wf _ _ _ hz.1, csumMemAfter_within _ _ _ _ hz.2 ?_ rfl rfl hbuf ?_⟩
  · exact Nat.le_trans h12 hdp
  · intro hodd
    change s.len % 2 = 1 at hodd
    change s.dp + s.len + 1 ≤ s.cfg.bufCap
    by_contra hc
    exact hroom.2 ⟨hodd, by omega⟩

/-- What RX does once the checksum matched: it hands the datagram on, to the handler of its destination port or
as unreachable. -/
theorem rxDispatch_cases (s : State) :
    (s.pt.handler (rd16 s 2) = none ∧
      rxDispatch s = rxUnreachable (setRecord s s.hSport (rd16 s 2) s.hLen s.hCsum)) ∨
    (∃ hid, s.pt.handler (rd16 s 2) = some hid ∧
      rxDispatch s = rxDeliver (setRecord s s.hSport (rd16 s 2) s.hLen s.hCsum) hid) := by
  cases h : s.pt.handler (rd16 s 2) with
  | none => exact .inl ⟨rfl, by simp [rxDispatch, h]⟩
  | some hid => exact .inr ⟨hid, rfl, by simp [rxDispatch, h]⟩

/-- RX with the room and the length, in a state whose packet lies inside `MEM`. -/
theorem execRx_of_room (s : State) (hlen : 8 ≤ s.len) (hroom : s.HasSumRoom) (hbuf : s.BufferOk) :
    execRx s = .next (rxCompare (rxRecompute s)) := by
  have := hroom.1
  simp only [execRx, withBuffer]
  rw [if_neg (by omega), if_neg (by omega), if_neg hroom.2, if_pos hbuf]

end Sys2Proof.Machine
end

