-- ==== Sys2Proof/Laws/Egress.lean ====
section
/-! SUPPORT. What the parts of TX do (45_egress.md R201), said once so that no proof unfolds them. -/

namespace Sys2Proof.Machine

/-- The header TX writes first, with checksum zero. -/
def txHeader0 (s : State) : List Byte := headerBytes s.txSport s.txDport (BitVec.ofNat 16 (s.len + 8)) 0x0000#16

/-- The checksum TX computes. -/
def txSum (s : State) : Half :=
  checksum s.cfg.protoId (addrBytes s.localAddr) (addrBytes s.txDaddr) (txHeader0 s ++ s.data)

/-- The header TX leaves in front of the payload. -/
def txHeader (s : State) : List Byte := headerBytes s.txSport s.txDport (BitVec.ofNat 16 (s.len + 8)) (txSum s)

@[simp] theorem length_txHeader0 (s : State) : (txHeader0 s).length = 8 := rfl

@[simp] theorem length_txHeader (s : State) : (txHeader s).length = 8 := rfl

/-- What steps 1 to 3a of TX do. -/
theorem txPopulate_eq (s : State) :
    txPopulate s =
      { s with
        hSport := s.txSport, hDport := s.txDport, hLen := BitVec.ofNat 16 (s.len + 8), hCsum := 0x0000#16
        dp := s.dp - 8, len := s.len + 8
        mem := s.mem.writeBytes (s.dp - 8) (txHeader0 s) } := by
  rw [txPopulate, hdrWrite_eq]
  rfl

/-- A packet whose first 8 bytes have just been written is those bytes and the rest. -/
theorem readBytes_header (m : Memory) (a n : Nat) (l : List Byte) (hl : l.length = 8) (h : 8 ≤ a) :
    (m.writeBytes (a - 8) l).readBytes (a - 8) (n + 8) = l ++ m.readBytes a n := by
  have h1 := Memory.readBytes_writeBytes_same m (a - 8) l
  rw [hl] at h1
  rw [Nat.add_comm n 8, Memory.readBytes_append, h1, show a - 8 + 8 = a by omega,
    Memory.readBytes_writeBytes_apart _ _ _ _ _ (.inr (by omega))]

theorem data_txPopulate (s : State) (h : 8 ≤ s.dp) : (txPopulate s).data = txHeader0 s ++ s.data := by
  rw [txPopulate_eq]
  exact readBytes_header _ _ _ _ rfl h

/-- What TX has done when it hands the packet over. -/
theorem txChecksum_eq (s : State) (h12 : 12 ≤ s.cfg.ipHdrSize) (hdp : 8 + s.cfg.ipHdrSize ≤ s.dp)
    (hpad : s.padded = false) :
    txChecksum (txPopulate s) =
      { s with
        hSport := s.txSport, hDport := s.txDport, hLen := BitVec.ofNat 16 (s.len + 8), hCsum := txSum s
        csum := txSum s, acc := ~~~txSum s, save := s.mem.readBytes (s.dp - 20) 12
        dp := s.dp - 8, len := s.len + 8
        mem := (csumMemAfter (txPopulate s) (addrBytes s.localAddr) (addrBytes s.txDaddr)).writeBytes (s.dp - 8)
          (txHeader s) } := by
  have hdp' : (txPopulate s).dp = s.dp - 8 := by rw [txPopulate_eq]
  have hcfg : (txPopulate s).cfg = s.cfg := by rw [txPopulate_eq]
  have hpad' : (txPopulate s).padded = false := by rw [txPopulate_eq]; exact hpad
  have hl : (txPopulate s).localAddr = s.localAddr := by rw [txPopulate_eq]
  have ht : (txPopulate s).txDaddr = s.txDaddr := by rw [txPopulate_eq]
  have hsave : (txPopulate s).mem.readBytes (s.dp - 8 - 12) 12 = s.mem.readBytes (s.dp - 20) 12 := by
    rw [txPopulate_eq, show s.dp - 8 - 12 = s.dp - 20 by omega]
    exact Memory.readBytes_writeBytes_apart _ _ _ _ _ (.inl (by omega))
  have key := csumInplace_eq (txPopulate s) (addrBytes s.localAddr) (addrBytes s.txDaddr) (by rw [hcfg]; exact h12)
    (by rw [hcfg, hdp']; omega) hpad' rfl rfl
  rw [data_txPopulate s (by omega), ocSum_csumInput, hdp', hcfg, hsave] at key
  rw [txChecksum, hl, ht, key, hdrWrite_eq]
  simp only [setRecord, setMem]
  generalize csumMemAfter (txPopulate s) (addrBytes s.localAddr) (addrBytes s.txDaddr) = m
  rw [txPopulate_eq]
  rfl

/-- Every byte when TX hands the packet over (45_egress.md R203). -/
theorem readByte_txChecksum (s : State) (h12 : 12 ≤ s.cfg.ipHdrSize) (hdp : 8 + s.cfg.ipHdrSize ≤ s.dp)
    (hpad : s.padded = false) (x : Nat) :
    (txChecksum (txPopulate s)).mem.readByte x =
      if s.dp - 8 ≤ x ∧ x < s.dp then (txHeader s).getD (x - (s.dp - 8)) 0x00#8
      else if s.len % 2 = 1 ∧ x = s.dp + s.len then 0x00#8
      else s.mem.readByte x := by
  have hdp' : (txPopulate s).dp = s.dp - 8 := by rw [txPopulate_eq]
  have hlen' : (txPopulate s).len = s.len + 8 := by rw [txPopulate_eq]
  have hh := length_txHeader s
  have hh0 := length_txHeader0 s
  have hmem : (txPopulate s).mem = s.mem.writeBytes (s.dp - 8) (txHeader0 s) := by rw [txPopulate_eq]
  rw [txChecksum_eq s h12 hdp hpad]
  refine (Memory.readByte_writeBytes _ (s.dp - 8) (txHeader s) x).trans ?_
  by_cases h : s.dp - 8 ≤ x ∧ x < s.dp
  · rw [if_pos h, if_pos (by omega)]
  · rw [if_neg h, if_neg (by omega), readByte_csumMemAfter _ _ _ (by omega) rfl rfl, hdp', hlen', hmem,
      Memory.readByte_writeBytes]
    by_cases h2 : s.len % 2 = 1 ∧ x = s.dp + s.len
    · rw [if_pos (by omega), if_pos h2]
    · rw [if_neg (by omega), if_neg (by omega), if_neg h2]

/-- The packet TX hands over. -/
theorem data_txChecksum (s : State) (h12 : 12 ≤ s.cfg.ipHdrSize) (hdp : 8 + s.cfg.ipHdrSize ≤ s.dp)
    (hpad : s.padded = false) : (txChecksum (txPopulate s)).data = txHeader s ++ s.data := by
  have hd : (txChecksum (txPopulate s)).dp = s.dp - 8 := by rw [txChecksum_eq s h12 hdp hpad]
  have hl : (txChecksum (txPopulate s)).len = 8 + s.len := by rw [txChecksum_eq s h12 hdp hpad]; exact Nat.add_comm _ _
  rw [State.data, hd, hl, Memory.readBytes_append]
  congr 1
  · refine List.ext_getElem? (fun i => ?_)
    rw [Memory.getElem?_readBytes]
    split
    · rename_i hi
      rw [readByte_txChecksum s h12 hdp hpad, if_pos (by omega), show s.dp - 8 + i - (s.dp - 8) = i by omega,
        List.getD_eq_getElem?_getD, List.getElem?_eq_getElem (by simpa using hi)]
      rfl
    · rename_i hi
      exact (List.getElem?_eq_none (by simpa using hi)).symm
  · rw [show s.dp - 8 + 8 = s.dp by omega]
    refine Memory.readBytes_congr (fun i hi => ?_)
    rw [readByte_txChecksum s h12 hdp hpad, if_neg (by omega), if_neg (by omega)]

/-- TX keeps the canonical form of `MEM`. -/
theorem txChecksum_mem (s : State) (h12 : 12 ≤ s.cfg.ipHdrSize) (hdp : 8 + s.cfg.ipHdrSize ≤ s.dp)
    (hroom : ¬ s.lacksPadRoom) (hbuf : s.BufferOk) (hmem : s.MemOk) (hpad : s.padded = false) :
    (txChecksum (txPopulate s)).mem.wf = true ∧ (txChecksum (txPopulate s)).mem.within s.cfg.bufCap = true := by
  have hb : s.dp + s.len ≤ s.cfg.bufCap := hbuf
  have hd : (txPopulate s).dp = s.dp - 8 := by rw [txPopulate_eq]
  have hl : (txPopulate s).len = s.len + 8 := by rw [txPopulate_eq]
  have hm : (txPopulate s).mem = s.mem.writeBytes (s.dp - 8) (txHeader0 s) := by rw [txPopulate_eq]
  have hw : (txPopulate s).mem.wf = true := by rw [hm]; exact Memory.writeBytes_wf hmem.1 _ _
  have hi : (txPopulate s).mem.within s.cfg.bufCap = true := by
    rw [hm]
    exact Memory.writeBytes_within hmem.2 _ (by rw [length_txHeader0]; omega)
  rw [txChecksum_eq s h12 hdp hpad]
  refine ⟨Memory.writeBytes_wf (csumMemAfter_wf _ _ _ hw) _ _,
    Memory.writeBytes_within (csumMemAfter_within _ _ _ _ hi ?_ rfl rfl ?_ ?_) _ (by rw [length_txHeader]; omega)⟩
  · omega
  · omega
  · intro hodd
    by_contra hc
    exact hroom ⟨by omega, by omega⟩

/-- TX with the room, in a state whose packet lies inside `MEM`. -/
theorem execTx_of_room (s : State) (hdp : 8 + s.cfg.ipHdrSize ≤ s.dp) (hpad : ¬ s.lacksPadRoom) (hbuf : s.BufferOk) :
    execTx s = .next (txSend (txChecksum (txPopulate s))) := by
  simp only [execTx, withBuffer]
  rw [if_neg (by omega), if_neg hpad, if_pos hbuf]

end Sys2Proof.Machine
end

