-- ==== Sys2Proof/Laws/Exec.lean ====
section
/-! SUPPORT. How a command can end, said once for all commands (40_control_and_buffer_ops.md R120;
60_exceptions.md R226, R233). -/

namespace Sys2Proof.Machine

/-- A command's result: it completes with an outcome other than `O_FAULT`, or raises a fault of the spec in the
state it started from, or stops because the packet lies outside `MEM`. -/
abbrev Ends (s : State) (r : Result) : Prop :=
  (∃ u o, o ≠ .oFault ∧ r = .next (finish u o)) ∨ (∃ f, f ≠ .fNone ∧ r = .next (raiseFault s f)) ∨
    (¬ s.BufferOk ∧ r = .fault .bufferRange)

theorem ends_finish (s u : State) (o : OutcomeCode) (h : o ≠ .oFault) : Ends s (.next (finish u o)) :=
  .inl ⟨u, o, h, rfl⟩

theorem ends_raiseFault (s : State) (f : FaultCode) (h : f ≠ .fNone) : Ends s (.next (raiseFault s f)) :=
  .inr (.inl ⟨f, h, rfl⟩)

theorem ends_withBuffer (s : State) (k : State → Result) (h : s.BufferOk → Ends s (k s)) : Ends s (withBuffer s k) := by
  unfold withBuffer
  split
  · exact h ‹_›
  · exact .inr (.inr ⟨‹_›, rfl⟩)

theorem ends_ite (s : State) {c : Prop} [Decidable c] {a b : Result} (ha : Ends s a) (hb : Ends s b) :
    Ends s (if c then a else b) := by
  split
  · exact ha
  · exact hb

/-- RX past its fault tests completes. -/
theorem rxCompare_ends (s u : State) : Ends s (.next (rxCompare u)) := by
  simp only [rxCompare, rxDispatch]
  split
  · exact ends_finish s _ _ (by decide)
  · split
    · exact ends_finish s _ _ (by decide)
    · exact ends_finish s _ _ (by decide)

/-- Every command ends in one of these ways. -/
theorem exec_ends (i : Instr) (s : State) : Ends s (exec i s) := by
  have ok : ∀ u, Ends s (.next (finish u .oOk)) := fun u => ends_finish s u _ (by decide)
  have room : Ends s (.next (raiseFault s .fRoom)) := ends_raiseFault s _ (by decide)
  have short : Ends s (.next (raiseFault s .fShort)) := ends_raiseFault s _ (by decide)
  cases i with
  | nop => exact ok _
  | csum => exact ends_ite s short (ends_ite s room (ends_ite s room (ends_withBuffer s _ fun _ => ok _)))
  | openPort port hid => exact ends_ite s (ends_finish s _ _ (by decide)) (ok _)
  | closePort port => exact ok _
  | lookup port => exact ok _
  | rx =>
    exact ends_ite s (ends_finish s _ _ (by decide))
      (ends_ite s room (ends_ite s room (ends_withBuffer s _ fun _ => rxCompare_ends s _)))
  | tx => exact ends_ite s room (ends_ite s room (ends_withBuffer s _ fun _ => ends_finish s _ _ (by decide)))
  | bufinit n => exact ends_ite s room (ok _)
  | push n => exact ends_ite s room (ok _)
  | pop n => exact ends_ite s room (ok _)
  | padd n => exact ends_ite s room (ok _)
  | padr n => exact ends_ite s room (ok _)
  | hdrrd => exact ends_ite s short (ends_withBuffer s _ fun _ => ok _)
  | hdrwr => exact ends_ite s short (ends_withBuffer s _ fun _ => ok _)

end Sys2Proof.Machine
end

