-- ==== Sys2Proof/Laws/HostPort.lean ====
section
/-! SUPPORT. Which offset of the device's range is what (20_memory.md R67) and what the host's accesses can do, said once. -/

namespace Sys2Proof.Machine

/-- The offset of a register names that register. -/
@[simp] theorem targetAt_offsetOf (p : Params) (r : Reg) : targetAt p (offsetOf r) = .register r := by
  cases r <;> rfl

/-- Only the offset of a register names it. -/
theorem offsetOf_of_regAt {off : Nat} {r : Reg} (h : regAt off = some r) : off = offsetOf r := by
  unfold regAt at h
  split at h <;> first | (cases h; rfl) | cases h

theorem targetAt_register {p : Params} {off : Nat} {r : Reg} (h : targetAt p off = .register r) : off = offsetOf r := by
  unfold targetAt at h
  split at h
  · split at h
    · rename_i r' hr
      cases h
      exact offsetOf_of_regAt hr
    · cases h
  · split at h <;> cases h

theorem targetAt_bufferByte {p : Params} {off i : Nat} (h : targetAt p off = .bufferByte i) :
    i < p.bufCap ∧ off = 0x10000 + i := by
  unfold targetAt at h
  split at h
  · split at h <;> cases h
  · split at h
    · simp only [Target.bufferByte.injEq] at h
      omega
    · cases h

/-- Byte `i` of the buffer window stands at 0x10000 + `i`. -/
theorem targetAt_window (p : Params) {i : Nat} (h : i < p.bufCap) : targetAt p (0x10000 + i) = .bufferByte i := by
  have h1 : ¬ 0x10000 + i < 0x44 := by omega
  have h2 : 0x10000 ≤ 0x10000 + i ∧ 0x10000 + i < 0x10000 + p.bufCap := by omega
  rw [targetAt, if_neg h1, if_pos h2, Nat.add_sub_cancel_left]

/-- Nothing stands behind the last byte of the buffer window. -/
theorem targetAt_beyond (p : Params) {i : Nat} (h : p.bufCap ≤ i) : targetAt p (0x10000 + i) = .unmapped := by
  have h1 : ¬ 0x10000 + i < 0x44 := by omega
  have h2 : ¬ (0x10000 ≤ 0x10000 + i ∧ 0x10000 + i < 0x10000 + p.bufCap) := by omega
  rw [targetAt, if_neg h1, if_neg h2]

/-- An offset that is no register's and outside the buffer window is a hole or unmapped. -/
theorem targetAt_nothing (p : Params) {off : Nat} (h : ∀ r, off ≠ offsetOf r)
    (hw : off < 0x10000 ∨ 0x10000 + p.bufCap ≤ off) : targetAt p off = .registerHole ∨ targetAt p off = .unmapped := by
  cases ht : targetAt p off with
  | register r => exact absurd (targetAt_register ht) (h r)
  | bufferByte i => have := targetAt_bufferByte ht; omega
  | registerHole => exact .inl rfl
  | unmapped => exact .inr rfl

/-- The register window is the offsets below 0x44. -/
theorem targetAt_low (p : Params) {off : Nat} (h : off < 0x44) :
    (∃ r, targetAt p off = .register r) ∨ targetAt p off = .registerHole := by
  rw [targetAt, if_pos h]
  split
  · exact .inl ⟨_, rfl⟩
  · exact .inr rfl

/-! ### Accesses of another width than their window's -/

@[simp] theorem length_wideBytes (s : State) (i : Nat) (v : Word) : (wideBytes s i v).length = wideSpan s i := by
  simp only [wideBytes, List.length_map, List.length_range]

/-- A 32-bit write in the buffer window changes no byte but the at most four it can reach. -/
theorem writeWide_mem_other (s : State) {i a : Nat} (v : Word) (h : a < i ∨ i + 4 ≤ a ∨ s.cfg.bufCap ≤ a) :
    (writeWide s i v).mem.readByte a = s.mem.readByte a := by
  have hn : ¬ (i ≤ a ∧ a < i + (wideBytes s i v).length) := by
    rw [length_wideBytes, wideSpan]
    omega
  rw [writeWide, setMem_mem, Memory.readByte_writeBytes, if_neg hn]

/-- It keeps the form of `MEM`. -/
theorem writeWide_mem_ok {s : State} {i : Nat} (hi : i < s.cfg.bufCap) (h : s.mem.wf = true)
    (hw : s.mem.within s.cfg.bufCap = true) (v : Word) :
    (writeWide s i v).mem.wf = true ∧ (writeWide s i v).mem.within s.cfg.bufCap = true := by
  have hl : i + (wideBytes s i v).length ≤ s.cfg.bufCap := by
    rw [length_wideBytes, wideSpan]
    omega
  exact ⟨Memory.writeBytes_wf h _ _, Memory.writeBytes_within hw _ hl⟩

/-- All a byte write of a register can do: it leaves everything as it is, or it writes that register, which is not
`CMD`. -/
theorem writeRegByte_cases (s : State) (r : Reg) (off : Nat) (b : Byte) :
    (r = .cmd ∧ writeRegByte s r off b = s) ∨
    (r ≠ .cmd ∧ writeRegByte s r off b = writeReg s r (Config.registerAfterByteWrite off (readReg s r) b)) := by
  by_cases h : r = .cmd
  · exact .inl ⟨h, if_pos h⟩
  · exact .inr ⟨h, if_neg h⟩

/-- Only a write of `CMD` makes a command pending. -/
theorem writeReg_cmd (s : State) {r : Reg} (h : r ≠ .cmd) (v : Word) : (writeReg s r v).cmd = s.cmd := by
  cases r <;> first | rfl | exact absurd rfl h

/-! ### Accesses at an index over `dp` -/

/-- An index over `dp` names the byte at that distance from it, when it is not below 0. -/
theorem dpIndex_eq_some (s : State) (k : Int) (i : Nat) : dpIndex s k = some i ↔ (s.dp : Int) + k = i := by
  simp only [dpIndex]
  split
  · rw [Option.some.injEq]
    omega
  · constructor
    · intro h
      cases h
    · intro h
      omega

theorem dpIndex_eq_none (s : State) (k : Int) : dpIndex s k = none ↔ (s.dp : Int) + k < 0 := by
  simp only [dpIndex]
  split
  · constructor
    · intro h
      cases h
    · intro h
      omega
  · exact iff_of_true rfl (by omega)

/-- All a byte write at `dp+k` can do: it writes that byte when it lies in `MEM`, and nothing otherwise. -/
theorem hostWriteDp_cases (s : State) (k : Int) (b : Byte) :
    (∃ i : Nat, (s.dp : Int) + k = i ∧ i < s.cfg.bufCap ∧ hostWriteDp s k b = .next (setMem s (s.mem.writeByte i b))) ∨
    (((s.dp : Int) + k < 0 ∨ (s.cfg.bufCap : Int) ≤ (s.dp : Int) + k) ∧ hostWriteDp s k b = .next s) := by
  cases h : dpIndex s k with
  | none => exact .inr ⟨.inl ((dpIndex_eq_none s k).1 h), by simp only [hostWriteDp, h]⟩
  | some i =>
    have hi := (dpIndex_eq_some s k i).1 h
    by_cases hc : i < s.cfg.bufCap
    · exact .inl ⟨i, hi, hc, by simp only [hostWriteDp, h, hostWriteByte, targetAt_window _ hc]⟩
    · exact .inr ⟨.inr (by omega), by simp only [hostWriteDp, h, hostWriteByte, targetAt_beyond _ (Nat.not_lt.1 hc)]⟩

/-- All a byte read at `dp+k` can do: it answers that byte when it lies in `MEM`, and 0 otherwise. -/
theorem hostReadDp_cases (s : State) (k : Int) :
    (∃ i : Nat, (s.dp : Int) + k = i ∧ i < s.cfg.bufCap ∧
      hostReadDp s k = .next (reply s ((s.mem.readByte i).setWidth 32))) ∨
    (((s.dp : Int) + k < 0 ∨ (s.cfg.bufCap : Int) ≤ (s.dp : Int) + k) ∧
      hostReadDp s k = .next (reply s 0x00000000#32)) := by
  cases h : dpIndex s k with
  | none => exact .inr ⟨.inl ((dpIndex_eq_none s k).1 h), by simp only [hostReadDp, h]⟩
  | some i =>
    have hi := (dpIndex_eq_some s k i).1 h
    by_cases hc : i < s.cfg.bufCap
    · exact .inl ⟨i, hi, hc, by simp only [hostReadDp, h, hostReadByte, targetAt_window _ hc]⟩
    · exact .inr ⟨.inr (by omega), by simp only [hostReadDp, h, hostReadByte, targetAt_beyond _ (Nat.not_lt.1 hc)]⟩

/-! ### Every host action -/

/-- A host action of an idle engine always answers a next state. -/
theorem hostAct_next (s : State) (a : HostAction) : ∃ t, hostAct s a = .next t := by
  cases a with
  | writeWord off v => simp only [hostAct, hostWriteWord]; split <;> exact ⟨_, rfl⟩
  | readWord off => simp only [hostAct, hostReadWord]; split <;> exact ⟨_, rfl⟩
  | writeByte off b => simp only [hostAct, hostWriteByte]; split <;> exact ⟨_, rfl⟩
  | readByte off => simp only [hostAct, hostReadByte]; split <;> exact ⟨_, rfl⟩
  | writeByteDp k b => rcases hostWriteDp_cases s k b with ⟨_, -, -, h⟩ | ⟨-, h⟩ <;> exact ⟨_, h⟩
  | readByteDp k => rcases hostReadDp_cases s k with ⟨_, -, -, h⟩ | ⟨-, h⟩ <;> exact ⟨_, h⟩
  | reset acc save => exact ⟨_, rfl⟩
  | resetBusy mem acc save => exact ⟨_, rfl⟩
  | pollStatus => exact ⟨_, rfl⟩

end Sys2Proof.Machine
end

