-- ==== Sys2Proof/Laws/PerInstr.lean ====
section
/-! SUPPORT. Statements made for every command, one lemma per constructor of `Instr`: the word of a command is a
legal word by the masks of 30_encoding.md R101, which the encoder does not use. -/

namespace Sys2Proof.Laws

/-- The opcode of a word of format N. -/
theorem encodeN_op (op : BitVec 4) (imm : Half) : (encodeN op imm).extractLsb' 0 4 = op := by
  ext i hi
  simp only [encodeN, BitVec.getElem_extractLsb', BitVec.getLsbD_append, Nat.zero_add, hi, if_true,
    BitVec.getLsbD_eq_getElem hi]

/-- A word of format N sets no bit outside its fields. -/
theorem encodeN_used (op : BitVec 4) (imm : Half) : encodeN op imm &&& ~~~0xFFFF000F#32 = 0#32 := by
  have mask : ∀ i : Fin 32, (~~~0xFFFF000F#32).getLsbD i = decide (4 ≤ i.val ∧ i.val < 16) := by decide
  refine BitVec.eq_of_getLsbD_eq (fun i hi => ?_)
  rw [BitVec.getLsbD_and, mask ⟨i, hi⟩, BitVec.getLsbD_zero, Bool.and_eq_false_iff]
  by_cases h : 4 ≤ i ∧ i < 16
  · left
    have h4 : ¬ i < 4 := by omega
    simp only [encodeN, BitVec.getLsbD_append, h4, if_false]
    split
    · exact BitVec.getLsbD_zero
    · rw [if_pos (by omega)]
      exact BitVec.getLsbD_zero
  · exact .inr (decide_eq_false h)

/-- The opcode of a word of format O. -/
theorem encodeO_op (op : BitVec 4) (imm : Half) (hid : Byte) : (encodeO op imm hid).extractLsb' 0 4 = op := by
  ext i hi
  simp only [encodeO, BitVec.getElem_extractLsb', BitVec.getLsbD_append, Nat.zero_add, hi, if_true,
    BitVec.getLsbD_eq_getElem hi]

/-- A word of format O sets no bit outside its fields. -/
theorem encodeO_used (op : BitVec 4) (imm : Half) (hid : Byte) : encodeO op imm hid &&& ~~~0xFFFFFF0F#32 = 0#32 := by
  have mask : ∀ i : Fin 32, (~~~0xFFFFFF0F#32).getLsbD i = decide (4 ≤ i.val ∧ i.val < 8) := by decide
  refine BitVec.eq_of_getLsbD_eq (fun i hi => ?_)
  rw [BitVec.getLsbD_and, mask ⟨i, hi⟩, BitVec.getLsbD_zero, Bool.and_eq_false_iff]
  by_cases h : 4 ≤ i ∧ i < 8
  · left
    have h4 : ¬ i < 4 := by omega
    simp only [encodeO, BitVec.getLsbD_append, h4, if_false]
    rw [if_pos (by omega)]
    exact BitVec.getLsbD_zero
  · exact .inr (decide_eq_false h)

/-- The family `WellFormedWord`: a command is well formed. -/
def WellFormedWord.Statement (i : Instr) : Prop := i.WellFormed

theorem WellFormedWord.of_encodeN (op : BitVec 4) (imm : Half) (h : usedBits op = some 0xFFFF000F#32) :
    legalWord (encodeN op imm) = true := by
  unfold legalWord
  rw [encodeN_op, h]
  exact beq_iff_eq.2 (encodeN_used op imm)

theorem WellFormedWord.nop : WellFormedWord.Statement .nop := by
  unfold WellFormedWord.Statement
  decide

theorem WellFormedWord.csum : WellFormedWord.Statement .csum := by
  unfold WellFormedWord.Statement
  decide

theorem WellFormedWord.openPort (port : Half) (hid : Byte) : WellFormedWord.Statement (.openPort port hid) := by
  unfold WellFormedWord.Statement Instr.WellFormed legalWord encode
  rw [encodeO_op]
  exact beq_iff_eq.2 (encodeO_used 0x2#4 port hid)

theorem WellFormedWord.closePort (port : Half) : WellFormedWord.Statement (.closePort port) :=
  WellFormedWord.of_encodeN 0x3#4 port rfl

theorem WellFormedWord.lookup (port : Half) : WellFormedWord.Statement (.lookup port) :=
  WellFormedWord.of_encodeN 0x4#4 port rfl

theorem WellFormedWord.rx : WellFormedWord.Statement .rx := by
  unfold WellFormedWord.Statement
  decide

theorem WellFormedWord.tx : WellFormedWord.Statement .tx := by
  unfold WellFormedWord.Statement
  decide

theorem WellFormedWord.bufinit (n : Half) : WellFormedWord.Statement (.bufinit n) :=
  WellFormedWord.of_encodeN 0x7#4 n rfl

theorem WellFormedWord.push (n : Half) : WellFormedWord.Statement (.push n) := WellFormedWord.of_encodeN 0x8#4 n rfl

theorem WellFormedWord.pop (n : Half) : WellFormedWord.Statement (.pop n) := WellFormedWord.of_encodeN 0x9#4 n rfl

theorem WellFormedWord.padd (n : Half) : WellFormedWord.Statement (.padd n) := WellFormedWord.of_encodeN 0xA#4 n rfl

theorem WellFormedWord.padr (n : Half) : WellFormedWord.Statement (.padr n) := WellFormedWord.of_encodeN 0xB#4 n rfl

theorem WellFormedWord.hdrrd : WellFormedWord.Statement .hdrrd := by
  unfold WellFormedWord.Statement
  decide

theorem WellFormedWord.hdrwr : WellFormedWord.Statement .hdrwr := by
  unfold WellFormedWord.Statement
  decide

end Sys2Proof.Laws
end

