-- ==== Sys2Proof/Laws/Registry.lean ====
section
/-! SUPPORT. What the operations on the port table do: the answers after a registration and a removal, and
that both keep the form of the table (43_port_registry.md R174). -/

namespace Sys2Proof.Machine

theorem PortTable.handler_register (t : PortTable) (port : Half) (hid : Byte) (q : Half) :
    (t.register port hid).handler q = if q = port then some hid else t.handler q := by
  simp only [PortTable.register, PortTable.handler, lookupCell_insertCell]
  by_cases h : q = port
  · simp [h]
  · rw [if_neg (fun e => h (BitVec.eq_of_toNat_eq e.symm)), if_neg h]

theorem PortTable.handler_remove (t : PortTable) (port q : Half) :
    (t.remove port).handler q = if q = port then none else t.handler q := by
  simp only [PortTable.remove, PortTable.handler, lookupCell_eraseCell]
  by_cases h : q = port
  · simp [h]
  · rw [if_neg (fun e => h (BitVec.eq_of_toNat_eq e.symm)), if_neg h]

theorem PortTable.wf_iff (t : PortTable) : t.wf = true ↔ risingKeys t = true ∧ ∀ c ∈ t, c.1 < 65536 := by
  simp [PortTable.wf, List.all_eq_true]

theorem PortTable.register_wf {t : PortTable} (h : t.wf = true) (port : Half) (hid : Byte) :
    (t.register port hid).wf = true := by
  rw [PortTable.wf_iff] at h ⊢
  refine ⟨risingKeys_insertCell h.1 _ _, fun c hc => ?_⟩
  rcases mem_insertCell hc with rfl | hc
  · exact port.isLt
  · exact h.2 c hc

theorem PortTable.remove_wf {t : PortTable} (h : t.wf = true) (port : Half) : (t.remove port).wf = true := by
  rw [PortTable.wf_iff] at h ⊢
  exact ⟨risingKeys_eraseCell h.1 _, fun c hc => h.2 c (mem_eraseCell hc)⟩

/-- The number of entries grows by one only when the port was absent (43_port_registry.md R171). -/
theorem PortTable.length_register {t : PortTable} (h : t.wf = true) (port : Half) (hid : Byte) :
    (t.register port hid).length = if t.handler port = none then t.length + 1 else t.length :=
  length_insertCell t port.toNat hid ((PortTable.wf_iff t).1 h).1

/-- The table loses one entry exactly when the port had one (43_port_registry.md R172). -/
theorem PortTable.length_remove {t : PortTable} (h : t.wf = true) (port : Half) :
    (t.remove port).length + (if t.handler port = none then 0 else 1) = t.length :=
  length_eraseCell t port.toNat ((PortTable.wf_iff t).1 h).1

theorem PortTable.length_remove_le (t : PortTable) (port : Half) : (t.remove port).length ≤ t.length :=
  length_eraseCell_le _ _

end Sys2Proof.Machine
end

