-- ==== Sys2Proof/Laws/Step.lean ====
section
/-! SUPPORT. What a step can be, said once: the pending command, a reset that lands during it, or one host
action of an idle engine. -/

namespace Sys2Proof.Machine

/-- With a command pending and no host action to land during it, the step is that command. -/
theorem step_pending {s : State} {w : Word} (h : s.cmd = some w) (hn : s.NothingLands) : step s = runCommand w s := by
  unfold step
  rw [h]
  split
  · rename_i hh
    exact absurd (hn _ _ hh) (by simp [HostAction.lands])
  · rename_i hh
    exact absurd (hn _ _ hh) (by simp [HostAction.lands])
  · rename_i hw _ _
    rw [Option.some.inj hw]
  all_goals simp_all

/-- A reset that lands during the pending command. -/
theorem step_abandon {s : State} {w : Word} {mem : Memory} {acc : Half} {save : List Byte} {rest : List HostAction}
    (h : s.cmd = some w) (hh : s.host = .resetBusy mem acc save :: rest) :
    step s = .next (abandonCommand (takeAction s rest) mem acc save) := by
  simp only [step, h, hh]

/-- A read of `STATUS` during the pending command. -/
theorem step_poll {s : State} {w : Word} {rest : List HostAction} (h : s.cmd = some w) (hh : s.host = .pollStatus :: rest) :
    step s = .next (pollStatus (takeAction s rest)) := by
  simp only [step, h, hh]

/-- An idle engine leaves the step to the host. -/
theorem step_host {s : State} {a : HostAction} {rest : List HostAction} (h : s.cmd = none) (hh : s.host = a :: rest) :
    step s = hostAct (takeAction s rest) a := by
  simp only [step, h, hh]

/-- Everything a step can be. -/
theorem step_cases (s : State) :
    (∃ w, s.cmd = some w ∧ s.NothingLands ∧ step s = runCommand w s) ∨
    (∃ w mem acc save rest, s.cmd = some w ∧ s.host = .resetBusy mem acc save :: rest ∧
      step s = .next (abandonCommand (takeAction s rest) mem acc save)) ∨
    (∃ w rest, s.cmd = some w ∧ s.host = .pollStatus :: rest ∧ step s = .next (pollStatus (takeAction s rest))) ∨
    (s.cmd = none ∧ s.host = [] ∧ step s = .next s) ∨
    (∃ a rest, s.cmd = none ∧ s.host = a :: rest ∧ step s = hostAct (takeAction s rest) a) := by
  cases hc : s.cmd with
  | none =>
    cases hh : s.host with
    | nil => exact .inr (.inr (.inr (.inl ⟨rfl, rfl, by simp only [step, hc, hh, idle]⟩)))
    | cons a rest => exact .inr (.inr (.inr (.inr ⟨a, rest, rfl, rfl, step_host hc hh⟩)))
  | some w =>
    by_cases hn : s.NothingLands
    · exact .inl ⟨w, rfl, hn, step_pending hc hn⟩
    · simp only [State.NothingLands, not_forall, Bool.not_eq_false] at hn
      obtain ⟨a, rest, hh, hl⟩ := hn
      cases a with
      | resetBusy mem acc save => exact .inr (.inl ⟨w, mem, acc, save, rest, rfl, hh, step_abandon hc hh⟩)
      | pollStatus => exact .inr (.inr (.inl ⟨w, rest, rfl, hh, step_poll hc hh⟩))
      | writeWord off v => cases hl
      | readWord off => cases hl
      | writeByte off b => cases hl
      | readByte off => cases hl
      | writeByteDp k b => cases hl
      | readByteDp k => cases hl
      | reset acc save => cases hl

end Sys2Proof.Machine
end

