-- ==== Sys2Proof/Laws/Total.lean ====
section
/-! SUPPORT. The integer total of the words of a byte sequence (42_checksum.md R153): of a concatenation, of a
sequence with one byte replaced, of a checksum input. -/

namespace Sys2Proof.Machine

theorem wordTotal_append (a b : List Byte) (h : a.length % 2 = 0) : wordTotal (a ++ b) = wordTotal a + wordTotal b := by
  match a, h with
  | [], _ => simp [wordTotal]
  | [_], h => simp at h
  | b0 :: b1 :: t, h =>
    have ih := wordTotal_append t b (by simp at h; omega)
    simp only [List.cons_append, wordTotal, ih]
    omega

/-- What a byte counts for at an index: its word's high byte stands at an even one. -/
def byteWeight (i : Nat) : Nat := if i % 2 = 0 then 256 else 1

theorem wordTotal_set (l : List Byte) (i : Nat) (x : Byte) (h : l.length % 2 = 0) (hi : i < l.length) :
    wordTotal (l.set i x) + byteWeight i * (l.getD i 0x00#8).toNat = wordTotal l + byteWeight i * x.toNat := by
  match l, h, i, hi with
  | [_], h, _, _ => simp at h
  | b0 :: b1 :: t, h, 0, hi =>
    simp [wordTotal, be16_toNat, byteWeight]
    omega
  | b0 :: b1 :: t, h, 1, hi =>
    simp [wordTotal, be16_toNat, byteWeight]
    omega
  | b0 :: b1 :: t, h, i + 2, hi =>
    have ih := wordTotal_set t i x (by simp at h; omega) (by simp at hi; omega)
    have hw : byteWeight (i + 2) = byteWeight i := by simp [byteWeight]
    simp only [List.set_cons_succ, wordTotal, List.getD_cons_succ, hw]
    omega

/-- A checksum input has an even length (30_encoding.md R94). -/
theorem csumInput_even (p : Byte) (src dst data : List Byte) (h1 : src.length = 4) (h2 : dst.length = 4) :
    (csumInput p src dst data).length % 2 = 0 := by
  simp only [csumInput, List.length_append, length_pseudo, h1, h2]
  split <;> simp <;> omega

/-- The total of a checksum input, term by term (30_encoding.md R93, R94). -/
theorem wordTotal_csumInput (p : Byte) (src dst data : List Byte) (h1 : src.length = 4) (h2 : dst.length = 4) :
    wordTotal (csumInput p src dst data) =
      wordTotal src + wordTotal dst + p.toNat + (BitVec.ofNat 16 data.length).toNat +
        wordTotal (data ++ (if data.length % 2 = 1 then [0x00#8] else [])) := by
  have hp : wordTotal (pseudo p src dst data.length) =
      wordTotal src + wordTotal dst + p.toNat + (BitVec.ofNat 16 data.length).toNat := by
    rw [pseudo, wordTotal_append _ _ (by simp [h1, h2]), wordTotal_append _ _ (by simp [h1])]
    simp only [wordTotal, be16_hi8_lo8, be16_toNat 0x00#8, BitVec.toNat_ofNat, Nat.zero_mod, Nat.zero_mul]
    omega
  rw [csumInput, List.append_assoc, wordTotal_append _ _ (by simp [h1, h2]), hp]

end Sys2Proof.Machine
end

