-- ==== Sys2Proof/Tests/Slice0.lean ====
section
/-! SUPPORT. The model's own tests: well-formedness refused, words written out from the encodings of
30_encoding.md, one step of every command against 95_test_vectors.md, and for every statement of
Certificates/Slice0/Obligations.lean that has hypotheses a concrete case that meets them. Every expected value
is the spec's. -/

namespace Sys2Proof.Tests

open Sys2Proof Sys2Proof.Machine

/-! ### Small states -/

/-- A packet with these bytes at `dp`. -/
def packetAt (s : State) (dp : Nat) (bytes : List Byte) : State :=
  { s with dp := dp, len := bytes.length, mem := s.mem.writeBytes dp bytes }

/-- From reset: BUFINIT, then the bytes written at `dp` = 64. -/
def start (bytes : List Byte) : State := packetAt State.reset 64 bytes

/-- From reset with a window of `len` bytes at `dp`. -/
def window (dp len : Nat) : State := { State.reset with dp := dp, len := len }

/-- What a field of the next state holds. -/
def after {α : Type} (r : Result) (f : State → α) : Option α :=
  match r with
  | .next s => some (f s)
  | .fault _ => none
  | .refused _ => none

/-- `STATUS` after a step. -/
def status (r : Result) : Option Word := after r statusWord

/-- The packet `PK` of 95_test_vectors.md section 2.8. -/
def pk : List Byte :=
  [0x1F#8, 0x90#8, 0x00#8, 0x35#8, 0x00#8, 0x0D#8, 0x1A#8, 0xE9#8, 0x68#8, 0x65#8, 0x6C#8, 0x6C#8, 0x6F#8]

/-- The network-layer header of the set-up RXSET. -/
def ipHeader : List Byte :=
  [0x45#8, 0x00#8, 0x00#8, 0x21#8, 0x00#8, 0x01#8, 0x00#8, 0x00#8, 0x40#8, 0x11#8, 0xF9#8, 0x77#8, 0xC0#8, 0xA8#8,
    0x00#8, 0x01#8, 0xC0#8, 0xA8#8, 0x00#8, 0x02#8]

/-- The set-up RXSET of 95_test_vectors.md section 2.8. -/
def rxset (table : PortTable) (bytes : List Byte) : State :=
  let s := start bytes
  { s with
    localAddr := 0xC0A80002#32, rxRemote := 0xC0A80001#32, pt := table
    mem := s.mem.writeBytes 44 ipHeader }

/-- The payload of vector V-TX2, ready for TX. -/
def tx2 : State :=
  { start [0x68#8, 0x69#8, 0x21#8, 0x21#8] with
    localAddr := 0x0A000001#32, txDaddr := 0x0A000002#32, txSport := 0xC000#16, txDport := 0x0007#16 }

/-- The payload of vector V-TX1, ready for TX. -/
def tx1 : State :=
  { start [0x68#8, 0x65#8, 0x6C#8, 0x6C#8, 0x6F#8] with
    localAddr := 0xC0A80001#32, txDaddr := 0xC0A80002#32, txSport := 0x1F90#16, txDport := 0x0035#16 }

/-! ### Well-formedness: one ill-formed case for each check -/

/-- The defaults meet 00_scope.md R9, as does the smallest configuration. -/
theorem test_wf_params : Params.default.Valid ∧
    ({ ipHdrSize := 12, protoId := 0x00#8, unreachReason := 0, bufCap := 20, bufHeadroom := 20, ptCap := 1 } : Params).Valid := by
  decide

theorem test_wf_ipHdrSize_short : ¬ { Params.default with ipHdrSize := 11 }.Valid := by decide
theorem test_wf_headroom_short : ¬ { Params.default with bufHeadroom := 27 }.Valid := by decide
theorem test_wf_headroom_beyond : ¬ { Params.default with bufHeadroom := 2049 }.Valid := by decide
theorem test_wf_cap_beyond : ¬ { Params.default with bufCap := 65536 }.Valid := by decide
theorem test_wf_ptCap_zero : ¬ { Params.default with ptCap := 0 }.Valid := by decide
theorem test_wf_ptCap_beyond : ¬ { Params.default with ptCap := 65537 }.Valid := by decide

/-- The illegal words of 95_test_vectors.md 2.5 are no legal words. -/
theorem test_wf_illegal_words :
    legalWord 0x0000000E#32 = false ∧ legalWord 0x0000000F#32 = false ∧ legalWord 0xFFFFFFFF#32 = false ∧
    legalWord 0x00000010#32 = false ∧ legalWord 0x80000000#32 = false ∧ legalWord 0x00000100#32 = false ∧
    legalWord 0x00010001#32 = false ∧ legalWord 0x00000105#32 = false ∧ legalWord 0x00050107#32 = false ∧
    legalWord 0x00350712#32 = false ∧ legalWord 0x00350702#32 = true ∧ legalWord 0x0000000D#32 = true := by decide

/-- The forms of the data: each check refuses a list that breaks it. -/
theorem test_wf_data :
    Memory.wf [(5, 0x01#8), (4, 0x01#8)] = false ∧ Memory.wf [(5, 0x00#8)] = false ∧
    Memory.wf [(4, 0x01#8), (5, 0x01#8)] = true ∧ Memory.within [(20, 0x01#8)] 20 = false ∧
    PortTable.wf [(7, 0x00#8), (7, 0x01#8)] = false ∧ PortTable.wf [(65536, 0x00#8)] = false ∧
    PortTable.wf [(0, 0x00#8), (65535, 0xFF#8)] = true := by decide

/-- Each part of the invariant refuses a state that breaks it. -/
theorem test_wf_state :
    ¬ (window 64 1985).BufferOk ∧ ¬ { State.reset with padded := true }.CellsOk ∧
    ¬ { State.reset with fault := .fRoom }.StatusOk ∧ ¬ { State.reset with lkResult := 0x00000007#32 }.LkResultOk ∧
    ¬ { State.reset with trace := [.deliver 0x07#8 [] 1 [0#8, 0#8, 0#8, 0#8] 0x0000#16] }.TraceOk ∧
    ¬ { State.reset with host := [.reset 0x0000#16 []] }.HostOk := by decide

/-! ### Decoding: words written out from the encodings (30_encoding.md R96 to R100) -/

theorem test_decode_nop : decode 0x00000000#32 = .command .nop := by decide
theorem test_decode_csum : decode 0x00000001#32 = .command .csum := by decide
theorem test_decode_open : decode 0x00350702#32 = .command (.openPort 53#16 7#8) := by decide
theorem test_decode_close : decode 0x00350003#32 = .command (.closePort 53#16) := by decide
theorem test_decode_lookup : decode 0x03ED0004#32 = .command (.lookup 1005#16) := by decide
theorem test_decode_rx : decode 0x00000005#32 = .command .rx := by decide
theorem test_decode_tx : decode 0x00000006#32 = .command .tx := by decide
theorem test_decode_bufinit : decode 0x07C00007#32 = .command (.bufinit 1984#16) := by decide
theorem test_decode_push : decode 0x00410008#32 = .command (.push 65#16) := by decide
theorem test_decode_pop : decode 0x00060009#32 = .command (.pop 6#16) := by decide
theorem test_decode_padd : decode 0x0001000A#32 = .command (.padd 1#16) := by decide
theorem test_decode_padr : decode 0x07C1000B#32 = .command (.padr 1985#16) := by decide
theorem test_decode_hdrrd : decode 0x0000000C#32 = .command .hdrrd := by decide
theorem test_decode_hdrwr : decode 0x0000000D#32 = .command .hdrwr := by decide

/-- The grounds on which a word is refused (95_test_vectors.md 2.5). -/
theorem test_decode_illegal :
    decode 0x0000000E#32 = .illegal .reservedOpcode ∧ decode 0xFFFFFFFF#32 = .illegal .reservedOpcode ∧
    decode 0x00000010#32 = .illegal .unusedBits ∧ decode 0x00050107#32 = .illegal .unusedBits ∧
    decode 0x00350712#32 = .illegal .unusedBits := by decide

/-- The words of the vectors, from the encoder. -/
theorem test_encode :
    encode (.openPort 65535#16 255#8) = 0xFFFFFF02#32 ∧ encode (.closePort 4242#16) = 0x10920003#32 ∧
    encode (.push 64#16) = 0x00400008#32 ∧ encode .hdrrd = 0x0000000C#32 := by decide

/-- A row of the opcode table, as the host asks for it. -/
theorem test_decodeTableWord :
    decodeTableWord 32 0x00350702 = some (.openPort 53#16 7#8) ∧ decodeTableWord 8 0x0D = some .hdrwr ∧
    decodeTableWord 32 0x0000000E = none := by decide

/-- A command line of a script (30_encoding.md R106). -/
theorem test_scriptLine : scriptLine (.openPort 53#16 7#8) = "OPEN 53, 7" := by decide

/-- SENDRAW of V-TX3, expanded as 30_encoding.md R108 says, with the offsets of 10_state.md R22. -/
theorem test_sendRaw :
    sendRaw 0x0000#16 0x00000000#32 0x0000#16 [0xFF#8, 0xDA#8] =
      some [.writeWord 0x00 0x00020007#32, .writeByteDp 0 0xFF#8, .writeByteDp 1 0xDA#8, .writeWord 0x20 0x00000000#32,
        .writeWord 0x1C 0x00000000#32, .writeWord 0x24 0x00000000#32, .writeWord 0x00 0x00000006#32] := by decide

/-- The three forms of an index, and a quoted string (30_encoding.md R107). -/
theorem test_wb_rb :
    wb (.numeral 44) [0x45#8, 0x00#8] = [.writeByte 0x1002C 0x45#8, .writeByte 0x1002D 0x00#8] ∧
    wb (.dpMinus 20) [0x40#8, 0x41#8] = [.writeByteDp (-20) 0x40#8, .writeByteDp (-19) 0x41#8] ∧
    rb (.dpPlus 3) 2 = [.readByteDp 3, .readByteDp 4] ∧ ascii "hi" = some [0x68#8, 0x69#8] := by decide

/-! ### One step of every command (95_test_vectors.md section 2) -/

theorem test_fetch_runs : step (State.reset.withFetchWord 32 0x00050007) = exec (.bufinit 5#16) { State.reset with cmd := some 0x00050007#32 } := by
  rfl

theorem test_illegal_faults : status (step (State.reset.withFetchWord 32 0x00350712)) = some 0x00000018#32 := by decide

theorem test_nop : status (execNop { State.reset with outcome := .oDropCsum }) = some 0x00000001#32 := by decide

/-- `BUFINIT 1984` is the largest. -/
theorem test_bufinit : after (execBufinit 1984#16 (window 0 69)) (fun s => (s.dp, s.len)) = some (64, 1984) := by decide
theorem test_bufinit_room : status (execBufinit 1985#16 (window 64 1984)) = some 0x00000028#32 := by decide

theorem test_push : after (execPush 64#16 (window 64 5)) (fun s => (s.dp, s.len)) = some (0, 69) := by decide
theorem test_push_room : status (execPush 65#16 (window 64 5)) = some 0x00000028#32 := by decide

theorem test_pop : after (execPop 8#16 (window 56 13)) (fun s => (s.dp, s.len)) = some (64, 5) := by decide
theorem test_pop_room : status (execPop 6#16 (window 64 5)) = some 0x00000028#32 := by decide

/-- `PADD 1` writes 0x00 over `MEM[73]` = 0xAA. -/
theorem test_padd :
    after (execPadd 1#16 { window 64 9 with mem := [(73, 0xAA#8)] }) (fun s => (s.len, s.mem.readByte 73)) =
      some (10, 0x00#8) := by decide
theorem test_padd_room : status (execPadd 1#16 (window 64 1984)) = some 0x00000028#32 := by decide

theorem test_padr : after (execPadr 1#16 (window 64 10)) (fun s => (s.dp, s.len)) = some (64, 9) := by decide
theorem test_padr_room : status (execPadr 1985#16 (window 64 1984)) = some 0x00000028#32 := by decide

/-- V-HD1. -/
theorem test_hdrrd :
    after (execHdrrd (start (pk.take 8))) (fun s => (s.hSport, s.hDport, s.hLen, s.hCsum)) =
      some (0x1F90#16, 0x0035#16, 0x000D#16, 0x1AE9#16) := by decide
theorem test_hdrrd_short : status (execHdrrd (window 64 7)) = some 0x00000038#32 := by decide

/-- V-HD3. -/
theorem test_hdrwr :
    after (execHdrwr { window 64 8 with hSport := 0x00FF#16, hDport := 0xFF00#16, hLen := 0x0102#16, hCsum := 0xFFFF#16 })
      State.data = some [0x00#8, 0xFF#8, 0xFF#8, 0x00#8, 0x01#8, 0x02#8, 0xFF#8, 0xFF#8] := by decide
theorem test_hdrwr_short : status (execHdrwr (window 64 7)) = some 0x00000038#32 := by decide

/-- V-PT2: a hit with handler id 0. -/
theorem test_lookup : after (execLookup 0#16 { State.reset with pt := [(0, 0x00#8)] }) State.lkResult = some 0x80000000#32 := by
  decide
theorem test_lookup_miss : after (execLookup 54#16 { State.reset with pt := [(53, 0x07#8)] }) State.lkResult = some 0x00000000#32 := by
  decide

/-- V-PT1 with a table of one place: a full table refuses a new port and takes an old one. -/
theorem test_open_full :
    status (execOpen 2000#16 0x99#8 { State.reset with cfg := { Params.default with ptCap := 1 }, pt := [(53, 0x07#8)] }) =
      some 0x00000007#32 := by decide
theorem test_open_overwrite :
    after (execOpen 53#16 0x55#8 { State.reset with cfg := { Params.default with ptCap := 1 }, pt := [(53, 0x07#8)] })
      State.pt = some [(53, 0x55#8)] := by decide

theorem test_close : after (execClose 53#16 { State.reset with pt := [(53, 0x07#8)] }) State.pt = some [] := by decide
theorem test_close_absent : after (execClose 4242#16 { State.reset with pt := [(53, 0x07#8)] }) (fun s => (statusWord s, s.pt)) =
    some (0x00000001#32, [(53, 0x07#8)]) := by decide

/-- The adder, from the table of 95_test_vectors.md 2.1. -/
theorem test_adder :
    ocAdd16 0xFFFF#16 0x0001#16 = 0x0001#16 ∧ ocAdd16 0x8000#16 0x8000#16 = 0x0001#16 ∧
    ocAdd16 0xFFFE#16 0x0001#16 = 0xFFFF#16 ∧ ocAdd16 0xC0A8#16 0xC0A8#16 = 0x8151#16 ∧
    ocSum [0x80#8, 0x00#8, 0x80#8, 0x00#8, 0x80#8, 0x00#8] = 0x8001#16 ∧ csum16 [] = 0xFFFF#16 := by decide

/-- V-CS3, an odd length: the byte behind the packet becomes 0x00. -/
theorem test_csum :
    after (execCsum { start [0x00#8, 0x01#8, 0x00#8, 0x02#8, 0x00#8, 0x09#8, 0x00#8, 0x00#8, 0xFF#8] with
        csSrc := 0x01020304#32, csDst := 0x05060708#32 })
      (fun s => (s.csum, s.dp, s.len, s.mem.readByte 73)) = some (0xF0C4#16, 64, 9, 0x00#8) := by decide
/-- Short and no room: `F_SHORT` has priority. -/
theorem test_csum_short : status (execCsum (window 14 7)) = some 0x00000038#32 := by decide

/-- V-TX1: the odd length. -/
theorem test_tx :
    after (execTx tx1) State.trace = some [.netsend pk [192#8, 168#8, 0#8, 2#8] 0x11#8] := by decide +kernel
theorem test_tx_room : status (execTx (window 27 4)) = some 0x00000028#32 := by decide

/-- V-RX1. -/
theorem test_rx_hit :
    after (execRx (rxset [(53, 0x07#8)] pk)) (fun s => (statusWord s, s.trace)) =
      some (0x00000005#32,
        [.deliver 0x07#8 [0x68#8, 0x65#8, 0x6C#8, 0x6C#8, 0x6F#8] 5 [192#8, 168#8, 0#8, 1#8] 0x1F90#16]) := by decide +kernel
/-- V-RX2. -/
theorem test_rx_miss :
    after (execRx (rxset [] pk)) (fun s => (statusWord s, s.dp, s.len, s.trace)) =
      some (0x00000004#32, 44, 33, [.unreach (ipHeader ++ pk) [192#8, 168#8, 0#8, 1#8] 3]) := by decide +kernel

/-! ### The host port -/

/-- V-HD5: a 16-bit register takes the low half. -/
theorem test_reg_width :
    after (hostWriteWord State.reset 0x28 0x12345678#32) (fun s => readReg s .hSport) = some 0x00005678#32 := by decide

/-- V-CS1: with `dp` = 64, `WB dp-20, 40` writes `MEM[44]`. -/
theorem test_wb_dp :
    after (step { window 64 12 with host := wb (.dpMinus 20) [0x40#8] }) (fun s => s.mem.readByte 44) = some 0x40#8 := by
  decide

/-- `STATUS` during a command: `BUSY` is 1 and the codes are those of the command before it (10_state.md R26). -/
theorem test_poll :
    after (step { State.reset with cmd := some 0x00000006#32, outcome := .oOk, host := [.pollStatus] }) State.replies =
      some [0x80000001#32] := by decide

/-- An unlisted offset of the register window reads 0 in a byte access as in a 32-bit one (10_state.md R23), and a byte
write of `CMD` starts no command (R25). -/
theorem test_byte_access :
    after (step { State.reset with host := [.readByte 0x43] }) State.replies = some [0x00000000#32] ∧
    after (step { State.reset with host := [.writeByte 0x00 0x06#8] }) State.cmd = some none := by decide

/-- A byte access between the windows reads 0 and is ignored (20_memory.md R67). -/
theorem test_between_windows :
    after (step { State.reset with host := [.readByte 0xFFFF] }) State.replies = some [0x00000000#32] ∧
    step { State.reset with host := [.writeByte 0x44 0xAA#8] } = .next State.reset :=
  ⟨by decide, rfl⟩

/-- The windows of 20_memory.md R67. -/
theorem test_targets :
    targetAt Params.default 0x00 = .register .cmd ∧ targetAt Params.default 0x40 = .register .lkResult ∧
    targetAt Params.default 0x42 = .registerHole ∧ targetAt Params.default 0x44 = .unmapped ∧
    targetAt Params.default 0x10000 = .bufferByte 0 ∧ targetAt Params.default 0x107FF = .bufferByte 2047 ∧
    targetAt Params.default 0x10800 = .unmapped := by decide

/-! ### Cases that meet the hypotheses of the statements, one theorem for each statement that has any -/

/-- The block after reset with these host actions to come. -/
def hostDoes (actions : List HostAction) : State := { State.reset with host := actions }

/-- The block after reset with a command word pending. -/
def pending (w : Word) : State := { State.reset with cmd := some w }

theorem nothingLands_of_nil {s : State} (h : s.host = []) : s.NothingLands := by
  intro a rest hh
  rw [h] at hh
  cases hh

/-- Whether a step goes on to a state with a property. -/
def meets (r : Result) (p : State → Bool) : Bool :=
  match r with
  | .next t => p t
  | .fault _ => false
  | .refused _ => false

theorem exists_of_meets {r : Result} {p : State → Bool} (h : meets r p = true) : ∃ t, r = .next t ∧ p t = true := by
  cases r with
  | next t => exact ⟨t, rfl, h⟩
  | fault _ => cases h
  | refused _ => cases h

theorem exists_outcome {r : Result} {o : OutcomeCode} (h : meets r (fun t => decide (t.outcome = o)) = true) :
    ∃ t, r = .next t ∧ t.outcome = o := by
  obtain ⟨t, ht, ho⟩ := exists_of_meets h
  exact ⟨t, ht, of_decide_eq_true ho⟩

/-- Every register stands at a multiple of 4 up to 0x40. -/
theorem no_register {off : Nat} (h : off % 4 ≠ 0 ∨ 0x40 < off) (r : Reg) : off ≠ offsetOf r := by
  cases r <;> simp only [offsetOf] <;> omega

theorem witness_EncodeOfDecode : decode 0xFFFFFF02#32 = .command (.openPort 65535#16 255#8) := by decide

/-- Each clause: a legal and an illegal word of formats Z, N and O, and a reserved opcode. -/
theorem witness_DecoderFollowsUsedBits :
    (0xFFFFFFFD#32).extractLsb' 0 4 = 0xD#4 ∧ (0x0000000D#32).extractLsb' 0 4 = 0xD#4 ∧
    (0xFFFF000B#32).extractLsb' 0 4 = 0xB#4 ∧ (0xFFFF001B#32).extractLsb' 0 4 = 0xB#4 ∧
    (0xFFFFFF02#32).extractLsb' 0 4 = 0x2#4 ∧ (0x00000012#32).extractLsb' 0 4 = 0x2#4 ∧
    (0x0000000E#32).extractLsb' 0 4 = 0xE#4 ∧ (0xFFFFFFFF#32).extractLsb' 0 4 = 0xF#4 ∧
    decode 0x80000000#32 = .illegal .unusedBits := by decide

theorem witness_StepRunsDecodedCommand :
    (pending 0xFFFFFF02#32).cmd = some 0xFFFFFF02#32 ∧ (pending 0xFFFFFF02#32).NothingLands ∧
    decode 0xFFFFFF02#32 = .command (.openPort 65535#16 255#8) :=
  ⟨rfl, nothingLands_of_nil rfl, by decide⟩

theorem witness_IllegalWordFaults :
    (pending 0x0000000E#32).cmd = some 0x0000000E#32 ∧ (pending 0x0000000E#32).NothingLands ∧
    legalWord 0x0000000E#32 = false ∧ legalWord 0x00000010#32 = false :=
  ⟨rfl, nothingLands_of_nil rfl, by decide, by decide⟩

theorem witness_OnlyCmdWriteStartsCommand :
    (hostDoes [.writeWord 0 0x00000006#32]).cmd = none ∧
    ({ hostDoes [.writeWord 0 0x00000006#32] with host := [] } : State).NothingLands ∧
    decode 0x00000006#32 = .command .tx ∧ decode 0x0000000F#32 = .illegal .reservedOpcode ∧
    ∃ t, step (hostDoes [.writeWord 0 0x00000006#32]) = .next t ∧ t.cmd ≠ none :=
  ⟨rfl, nothingLands_of_nil rfl, by decide, by decide, _, rfl, by decide⟩

theorem witness_IdleEngineStays : State.reset.cmd = none ∧ State.reset.host = [] := by decide

theorem witness_StatusPollDuringCommand :
    ({ pending 0x00000006#32 with host := [.pollStatus] } : State).cmd = some 0x00000006#32 ∧
    ({ pending 0x00000006#32 with host := [.pollStatus] } : State).host = [.pollStatus] := by decide

theorem witness_ResetLeavesTheSpecValues : Params.default.Valid := by decide

theorem witness_ResetActionResets :
    ({ pending 0x00000006#32 with host := [.resetBusy [] 0x0000#16 []] } : State).cmd = some 0x00000006#32 ∧
    (hostDoes [.reset 0x1234#16 []]).cmd = none ∧ (hostDoes [.resetBusy [(0, 0x01#8)] 0x1234#16 []]).cmd = none := by
  decide

/-- The first and the last register. -/
theorem witness_RegisterWriteThenRead :
    (hostDoes [.writeWord (offsetOf .cmd) 0xFFFFFFFF#32]).cmd = none ∧
    (hostDoes [.writeWord (offsetOf .lkResult) 0xFFFFFFFF#32]).cmd = none ∧ offsetOf .lkResult = 0x40 := by decide

/-- Each clause at its boundaries: the last hole, the first and the last offset between the windows, the first behind
them, and the first and the last byte of the buffer window; and a read of `STATUS` while idle. -/
theorem witness_HostReadsChangeNothing :
    (hostDoes [.readWord 0x43]).cmd = none ∧ (hostDoes [.readByte 0xFFFF]).cmd = none ∧
    ((∀ r, 0x43 ≠ offsetOf r) ∧ 0x43 < 0x10000) ∧ ((∀ r, 0x44 ≠ offsetOf r) ∧ 0x44 < 0x10000) ∧
    ((∀ r, 0xFFFF ≠ offsetOf r) ∧ 0xFFFF < 0x10000) ∧
    ((∀ r, 0x10800 ≠ offsetOf r) ∧ 0x10000 + State.reset.cfg.bufCap ≤ 0x10800) ∧ 0 < State.reset.cfg.bufCap ∧
    2047 < State.reset.cfg.bufCap ∧ (hostDoes [.pollStatus]).cmd = none ∧ (hostDoes [.pollStatus]).host = [.pollStatus] :=
  ⟨rfl, rfl, ⟨no_register (by decide), by decide⟩, ⟨no_register (by decide), by decide⟩,
    ⟨no_register (by decide), by decide⟩, ⟨no_register (by decide), by decide⟩, by decide, by decide, rfl, rfl⟩

theorem witness_HostWritesOnlyItsByte :
    (hostDoes [.writeByte 0x107FF 0xAA#8]).cmd = none ∧ (hostDoes [.writeByte 0xFFFF 0xAA#8]).cmd = none ∧
    2047 < State.reset.cfg.bufCap ∧ ((∀ r, 0x44 ≠ offsetOf r) ∧ 0x44 < 0x10000) ∧
    ((∀ r, 0xFFFF ≠ offsetOf r) ∧ 0xFFFF < 0x10000) ∧
    ((∀ r, 0x10800 ≠ offsetOf r) ∧ 0x10000 + State.reset.cfg.bufCap ≤ 0x10800) :=
  ⟨rfl, rfl, by decide, ⟨no_register (by decide), by decide⟩, ⟨no_register (by decide), by decide⟩,
    ⟨no_register (by decide), by decide⟩⟩

/-- Each clause at its boundaries: the first and the last byte of `MEM`, the one behind it, and the index -1. -/
theorem witness_DpIndexedAccess :
    (hostDoes [.writeByteDp (-64) 0xAA#8]).cmd = none ∧ (hostDoes [.readByteDp 1984]).cmd = none ∧
    (State.reset.dp : Int) + (-64) = (0 : Nat) ∧ (State.reset.dp : Int) + 1983 = (2047 : Nat) ∧
    (State.reset.dp : Int) + 1984 = (2048 : Nat) ∧ 2047 < State.reset.cfg.bufCap ∧ ¬ 2048 < State.reset.cfg.bufCap ∧
    (State.reset.dp : Int) + (-65) < 0 := by decide

/-- The last hole, the first and the last register, and the first and the last RW one. -/
theorem witness_ByteAccessInRegisterWindow :
    (hostDoes [.writeByte 0x43 0xAA#8]).cmd = none ∧ (∀ r, 0x43 ≠ offsetOf r) ∧ offsetOf .cmd = 0x00 ∧
    offsetOf .lkResult = 0x40 ∧ offsetOf .localAddr = 0x08 ∧ offsetOf .hCsum = 0x34 ∧ 0x43 < 0x44 :=
  ⟨rfl, no_register (by decide), rfl, rfl, rfl, rfl, by decide⟩

/-- The first and the last byte of the window; at the last one nothing behind it is reached. -/
theorem witness_WideAccessInBufferWindow :
    (hostDoes [.writeWord 0x10000 0x00000000#32]).cmd = none ∧ 0 < State.reset.cfg.bufCap ∧
    (hostDoes [.readWord 0x107FF]).cmd = none ∧ 2047 < State.reset.cfg.bufCap ∧ State.reset.cfg.bufCap ≤ 2048 ∧
    ¬ 2047 + 4 ≤ 2048 := by decide

/-- Each command at the last value with room and the first without. -/
theorem witness_WindowCommands :
    (window 64 0).cfg.bufHeadroom + (1984#16).toNat ≤ (window 64 0).cfg.bufCap ∧
    (window 64 0).cfg.bufCap < (window 64 0).cfg.bufHeadroom + (1985#16).toNat ∧
    (64#16).toNat ≤ (window 64 5).dp ∧ (window 64 5).dp < (65#16).toNat ∧
    (5#16).toNat ≤ (window 64 5).len ∧ (window 64 5).len < (6#16).toNat := by decide

theorem witness_PaddAppendsZeros :
    (window 64 1983).dp + (window 64 1983).len + (1#16).toNat ≤ (window 64 1983).cfg.bufCap ∧
    (window 64 1984).cfg.bufCap < (window 64 1984).dp + (window 64 1984).len + (1#16).toNat := by decide

theorem witness_PrimitiveLaws :
    (∃ t, exec (.push 64#16) (window 64 5) = .next t ∧ t.outcome = .oOk) ∧
    (∃ t, exec (.padd 1#16) (window 64 9) = .next t ∧ t.outcome = .oOk) ∧
    ¬ ((window 64 9).dp + (window 64 9).len ≤ 74 ∧ 74 < (window 64 9).dp + (window 64 9).len + (1#16).toNat) ∧
    64 ≤ (window 64 5).dp ∧ 8 ≤ 64 ∧ (window 64 9).dp + (window 64 9).len ≤ 73 ∧
    73 < (window 64 9).dp + (window 64 9).len + 1 ∧ (window 64 1984).BufferOk :=
  ⟨exists_outcome (by decide), exists_outcome (by decide), by decide, by decide, by decide, by decide, by decide, by decide⟩

theorem witness_HdrrdParsesHeader : 8 ≤ (window 2040 8).len ∧ (window 2040 8).BufferOk ∧ (window 64 7).len < 8 := by decide

theorem witness_HdrwrBuildsHeader : 8 ≤ (window 2040 8).len ∧ (window 2040 8).BufferOk ∧ (window 64 7).len < 8 := by decide

theorem witness_HeaderRoundTrip : 8 ≤ (window 0 8).len ∧ (window 0 8).BufferOk := by decide

/-- A table of one place, full and empty. -/
def onePort (table : PortTable) : State :=
  { State.reset with cfg := { Params.default with ptCap := 1 }, pt := table }

theorem witness_OpenRegistersHandler :
    ((onePort [(53, 0x07#8)]).pt.handler 54#16 = none ∧ (onePort [(53, 0x07#8)]).pt.length = (onePort []).cfg.ptCap) ∧
    ¬ ((onePort [(53, 0x07#8)]).pt.handler 53#16 = none ∧ (onePort [(53, 0x07#8)]).pt.length = (onePort []).cfg.ptCap) ∧
    ¬ ((onePort []).pt.handler 54#16 = none ∧ (onePort []).pt.length = (onePort []).cfg.ptCap) ∧
    (onePort [(53, 0x07#8)]).pt.wf = true := by decide

theorem witness_CloseRemovesHandler : (onePort [(53, 0x07#8)]).pt.wf = true ∧ (onePort []).pt.wf = true := by decide

theorem witness_LookupReadsTable :
    (onePort [(53, 0x07#8)]).pt.handler 54#16 = none ∧ (onePort [(53, 0x07#8)]).pt.handler 53#16 = some 0x07#8 := by decide

theorem witness_OverwriteAndClose :
    ¬ ((onePort [(53, 0x07#8)]).pt.handler 53#16 = none ∧ (onePort [(53, 0x07#8)]).pt.length = (onePort []).cfg.ptCap) := by
  decide

theorem witness_AdderLaws :
    0x0001#16 ≠ 0x0000#16 ∧ ocAdd16 0x0000#16 0x0000#16 = 0x0000#16 ∧
    [(0x00#8, 0x01#8), (0xFF#8, 0xFF#8)].Perm [(0xFF#8, 0xFF#8), (0x00#8, 0x01#8)] := by decide

theorem witness_SumClosedForm :
    ([] : List Byte).length % 2 = 0 ∧ [0xFF#8, 0xFF#8].length % 2 = 0 ∧ (∀ b ∈ [0x00#8, 0x00#8], b = 0x00#8) := by decide

theorem witness_ChecksumNeverAllOnes :
    [0#8, 0#8, 0#8, 0#8].length = 4 ∧ 8 ≤ (pk.take 8).length ∧ (pk.take 8).length ≤ 65535 := by decide

theorem witness_ChecksumAddressSwap : [10#8, 0#8, 0#8, 1#8].length = 4 ∧ [10#8, 0#8, 0#8, 2#8].length = 4 := by decide

theorem witness_SingleBitChangesChecksum : [10#8, 0#8, 0#8, 1#8].length = 4 ∧ 7 < 8 ∧ 12 < pk.length ∧ 3 < 4 := by decide

/-- The front boundary, `dp` = 20, and the back one, a pad byte at the last index (95_test_vectors.md 2.2). -/
theorem witness_CsumEndState :
    (window 20 8).cfg.Valid ∧ (window 20 8).BufferOk ∧ (window 20 8).padded = false ∧ 8 ≤ (window 20 8).len ∧
    (window 20 8).HasSumRoom ∧ (window 2038 9).BufferOk ∧ (window 2038 9).HasSumRoom := by decide

theorem witness_ShortPacketFaults :
    (window 64 7).len < 8 ∧ (∃ t, exec .rx (window 64 7) = .next t ∧ t.outcome = .oDropShort) ∧
    (∃ t, exec .tx (window 27 4) = .next t ∧ t.outcome = .oFault) :=
  ⟨by decide, exists_outcome (by decide), exists_outcome (by decide)⟩

theorem witness_RoomFaults : 8 ≤ (window 19 8).len ∧ (window 19 8).dp < (window 19 8).cfg.ipHdrSize ∧
    (window 2039 9).lacksPadRoom ∧ ¬ (window 2038 9).lacksPadRoom := by decide

theorem witness_FaultChangesOnlyStatus :
    (∃ t, runCommand 0x0000000E#32 State.reset = .next t ∧ t.outcome = .oFault) ∧
    (∃ t, runCommand 0x00010009#32 State.reset = .next t ∧ t.outcome = .oFault) :=
  ⟨exists_outcome (by decide), exists_outcome (by decide)⟩

theorem witness_BrokenBufferStops :
    ¬ (window 64 1986).BufferOk ∧ 8 ≤ (window 64 1986).len ∧ (window 64 1986).HasSumRoom ∧
    8 + (window 64 1986).cfg.ipHdrSize ≤ (window 64 1986).dp ∧ ¬ (window 64 1986).lacksPadRoom := by decide

theorem witness_RxDropsShort : (window 64 7).len < 8 := by decide

/-- V-RX1 with a table or none: the checksum matches. -/
theorem rx_matches (table : PortTable) :
    checksum (rxset table pk).cfg.protoId (addrBytes (rxset table pk).rxRemote) (addrBytes (rxset table pk).localAddr)
      (withZeroChecksum (rxset table pk).data) = rd16 (rxset table pk) 6 :=
  (by decide +kernel : checksum (rxset [] pk).cfg.protoId (addrBytes (rxset [] pk).rxRemote)
    (addrBytes (rxset [] pk).localAddr) (withZeroChecksum (rxset [] pk).data) = rd16 (rxset [] pk) 6)

/-- V-RX3 differs, V-RX5 stores 0xFFFF, V-RX1 matches. -/
theorem witness_RxDropsCorrupt :
    (rxset [] pk).cfg.Valid ∧ (rxset [] pk).BufferOk ∧ (rxset [] pk).padded = false ∧ 8 ≤ (rxset [] pk).len ∧
    (rxset [] pk).HasSumRoom ∧
    checksum (rxset [] (pk.set 8 0x69#8)).cfg.protoId (addrBytes (rxset [] (pk.set 8 0x69#8)).rxRemote)
      (addrBytes (rxset [] (pk.set 8 0x69#8)).localAddr) (withZeroChecksum (rxset [] (pk.set 8 0x69#8)).data) ≠
      rd16 (rxset [] (pk.set 8 0x69#8)) 6 ∧
    rd16 (rxset [] ((pk.set 6 0xFF#8).set 7 0xFF#8)) 6 = 0xFFFF#16 ∧
    checksum (rxset [] pk).cfg.protoId (addrBytes (rxset [] pk).rxRemote) (addrBytes (rxset [] pk).localAddr)
      (withZeroChecksum (rxset [] pk).data) = rd16 (rxset [] pk) 6 :=
  ⟨by decide, by decide, by decide, by decide, by decide, by decide +kernel, by decide +kernel, rx_matches []⟩

theorem witness_RxMissNotifies :
    (rxset [] pk).cfg.Valid ∧ (rxset [] pk).BufferOk ∧ (rxset [] pk).padded = false ∧ 8 ≤ (rxset [] pk).len ∧
    (rxset [] pk).HasSumRoom ∧
    checksum (rxset [] pk).cfg.protoId (addrBytes (rxset [] pk).rxRemote) (addrBytes (rxset [] pk).localAddr)
      (withZeroChecksum (rxset [] pk).data) = rd16 (rxset [] pk) 6 ∧
    (rxset [] pk).pt.handler (rd16 (rxset [] pk) 2) = none :=
  ⟨by decide, by decide, by decide, by decide, by decide, rx_matches [], by decide +kernel⟩

theorem witness_RxHitDelivers :
    (rxset [(53, 0x07#8)] pk).cfg.Valid ∧ (rxset [(53, 0x07#8)] pk).BufferOk ∧ (rxset [(53, 0x07#8)] pk).padded = false ∧
    8 ≤ (rxset [(53, 0x07#8)] pk).len ∧ (rxset [(53, 0x07#8)] pk).HasSumRoom ∧
    checksum (rxset [(53, 0x07#8)] pk).cfg.protoId (addrBytes (rxset [(53, 0x07#8)] pk).rxRemote)
      (addrBytes (rxset [(53, 0x07#8)] pk).localAddr) (withZeroChecksum (rxset [(53, 0x07#8)] pk).data) =
      rd16 (rxset [(53, 0x07#8)] pk) 6 ∧
    (rxset [(53, 0x07#8)] pk).pt.handler (rd16 (rxset [(53, 0x07#8)] pk) 2) = some 0x07#8 :=
  ⟨by decide, by decide, by decide, by decide, by decide, rx_matches _, by decide +kernel⟩

/-- A delivered and an unreachable datagram, and the last bit of the last byte. -/
theorem witness_CorruptionIsDropped :
    (rxset [] pk).cfg.Valid ∧ (rxset [] pk).BufferOk ∧ (rxset [] pk).padded = false ∧ 12 < (rxset [] pk).len ∧ 7 < 8 ∧
    (∃ t, exec .rx (rxset [(53, 0x07#8)] pk) = .next t ∧ t.outcome = .oDelivered) ∧
    (∃ t, exec .rx (rxset [] pk) = .next t ∧ t.outcome = .oUnreachable) :=
  ⟨by decide, by decide, by decide, by decide, by decide, exists_outcome (by decide +kernel),
    exists_outcome (by decide +kernel)⟩

/-- RX with each of its outcomes. -/
theorem witness_RxWritesListedRegisters :
    (rxset [] pk).cfg.Valid ∧ (rxset [] pk).padded = false ∧
    (∃ t, exec .rx (window 64 7) = .next t ∧ t.outcome = .oDropShort) ∧
    (∃ t, exec .rx (window 19 8) = .next t ∧ t.outcome = .oFault) ∧
    (∃ t, exec .rx (rxset [] (pk.set 8 0x69#8)) = .next t ∧ t.outcome = .oDropCsum) ∧
    (∃ t, exec .rx (rxset [] pk) = .next t ∧ t.outcome = .oUnreachable) ∧
    (∃ t, exec .rx (rxset [(53, 0x07#8)] pk) = .next t ∧ t.outcome = .oDelivered) :=
  ⟨by decide, by decide, exists_outcome (by decide), exists_outcome (by decide), exists_outcome (by decide +kernel),
    exists_outcome (by decide +kernel), exists_outcome (by decide +kernel)⟩

/-- The room of 95_test_vectors.md "TX room": `dp` 28 is enough, 27 is not; an odd length needs a byte behind. -/
theorem witness_TxSendsDatagram :
    (window 28 4).cfg.Valid ∧ (window 28 4).BufferOk ∧ (window 28 4).padded = false ∧
    8 + (window 28 4).cfg.ipHdrSize ≤ (window 28 4).dp ∧ ¬ (window 28 4).lacksPadRoom ∧
    (window 27 4).dp < 8 + (window 27 4).cfg.ipHdrSize ∧ (window 65 1983).lacksPadRoom ∧ ¬ (window 64 1983).lacksPadRoom := by
  decide

theorem witness_TxGuarantee :
    tx2.cfg.Valid ∧ tx2.BufferOk ∧ tx2.padded = false ∧ ∃ t, exec .tx tx2 = .next t ∧ t.outcome = .oSent :=
  ⟨by decide, by decide, by decide, exists_outcome (by decide +kernel)⟩

/-- V-TX1 sent and V-RX1 received. -/
theorem witness_SendReceiveRoundTrip :
    tx1.cfg.Valid ∧ tx1.BufferOk ∧ tx1.padded = false ∧
    (∃ t, exec .tx tx1 = .next t ∧ t.trace = tx1.trace ++ [.netsend pk (addrBytes tx1.txDaddr) tx1.cfg.protoId]) ∧
    (rxset [] pk).cfg.Valid ∧ (rxset [] pk).BufferOk ∧ (rxset [] pk).padded = false ∧
    (rxset [] pk).cfg.protoId = tx1.cfg.protoId ∧ (rxset [] pk).HasSumRoom ∧ (rxset [] pk).data = pk ∧
    (rxset [] pk).rxRemote = tx1.localAddr ∧ (rxset [] pk).localAddr = tx1.txDaddr := by
  refine ⟨by decide, by decide, by decide, ?_, by decide, by decide, by decide, by decide, by decide, by decide +kernel,
    by decide, by decide⟩
  obtain ⟨t, ht, hp⟩ := exists_of_meets (r := exec .tx tx1)
    (p := fun t => decide (t.trace = tx1.trace ++ [.netsend pk (addrBytes tx1.txDaddr) tx1.cfg.protoId]))
    (by decide +kernel)
  exact ⟨t, ht, of_decide_eq_true hp⟩

/-- The largest buffer, of an even length, and one of an odd length that fills `MEM` to its last byte. -/
theorem witness_TxAfterBufinitSends :
    State.reset.cfg.Valid ∧ State.reset.padded = false ∧
    State.reset.cfg.bufHeadroom + (1984#16).toNat ≤ State.reset.cfg.bufCap ∧
    ¬ ((1984#16).toNat % 2 = 1 ∧ State.reset.cfg.bufHeadroom + (1984#16).toNat = State.reset.cfg.bufCap) ∧
    { Params.default with bufCap := 2047 }.Valid ∧ ((1983#16).toNat % 2 = 1 ∧ 64 + (1983#16).toNat = 2047) := by decide

theorem witness_EveryCommandCompletes : State.reset.BufferOk ∧ (window 64 1984).BufferOk := by decide

theorem witness_OutcomesOfCommands :
    (∃ t, exec .tx tx2 = .next t ∧ t.outcome = .oSent) ∧ (∃ t, exec .nop State.reset = .next t ∧ t.outcome = .oOk) ∧
    (∃ t, exec (.openPort 54#16 0x01#8) (onePort [(53, 0x07#8)]) = .next t ∧ t.outcome = .oOpenFail) :=
  ⟨exists_outcome (by decide +kernel), exists_outcome (by decide), exists_outcome (by decide)⟩

theorem witness_AtMostOneEvent :
    (∃ t, exec .rx (rxset [] pk) = .next t ∧ t.outcome = .oUnreachable) ∧
    (∃ t, exec .tx tx2 = .next t ∧ t.outcome = .oSent) :=
  ⟨exists_outcome (by decide +kernel), exists_outcome (by decide +kernel)⟩

theorem witness_RegistersWrittenBy :
    State.reset.cfg.Valid ∧ State.reset.padded = false ∧
    (∃ t, exec (.lookup 53#16) (onePort [(53, 0x07#8)]) = .next t ∧ t.outcome = .oOk) :=
  ⟨by decide, by decide, exists_outcome (by decide)⟩

/-- PADD over a byte 0xAA. -/
theorem witness_CommandFootprint :
    ({ window 64 9 with mem := [(73, 0xAA#8)] } : State).cfg.Valid ∧
    ({ window 64 9 with mem := [(73, 0xAA#8)] } : State).padded = false ∧
    ∃ t, exec (.padd 1#16) { window 64 9 with mem := [(73, 0xAA#8)] } = .next t ∧ t.mem.readByte 73 ≠ 0xAA#8 := by
  refine ⟨by decide, by decide, ?_⟩
  obtain ⟨t, ht, hp⟩ := exists_of_meets (r := exec (.padd 1#16) { window 64 9 with mem := [(73, 0xAA#8)] })
    (p := fun t => decide (t.mem.readByte 73 ≠ 0xAA#8)) (by decide)
  exact ⟨t, ht, of_decide_eq_true hp⟩

/-- A step of each kind. -/
theorem witness_AccAndSaveAreUnobservable :
    (∃ t, step (pending 0x00000006#32) = .next t ∧ t.outcome = .oSent) ∧
    step { window 64 1986 with cmd := some 0x00000001#32 } = .fault .bufferRange :=
  ⟨exists_outcome (by decide +kernel), rfl⟩

theorem witness_ResetMeetsInvariant :
    Params.default.Valid ∧ Memory.wf [(0, 0x01#8), (2047, 0xFF#8)] = true ∧
    Memory.within [(0, 0x01#8), (2047, 0xFF#8)] Params.default.bufCap = true ∧ (List.replicate 12 0x00#8).length = 12 := by
  decide

theorem witness_StepKeepsInvariant :
    State.reset.Inv ∧ (pending 0x00050007#32).Inv ∧ step State.reset = .next State.reset ∧
    (∃ t, step (pending 0x00050007#32) = .next t ∧ t.outcome = .oOk) :=
  ⟨by decide, by decide, rfl, exists_outcome (by decide)⟩

/-- A state of each kind: a command that nothing lands on, one that a reset abandons, one during which the host
reads `STATUS`, and an idle engine whose host makes an access of another width than its window's. -/
theorem witness_StepNeverStuck :
    ((pending 0x00000006#32).Inv ∧ (pending 0x00000006#32).cmd ≠ none ∧ (pending 0x00000006#32).NothingLands) ∧
    (({ pending 0x00000006#32 with host := [.resetBusy [] 0x0000#16 (List.replicate 12 0x00#8)] } : State).Inv ∧
      ({ pending 0x00000006#32 with host := [.resetBusy [] 0x0000#16 (List.replicate 12 0x00#8)] } : State).cmd ≠ none) ∧
    (({ pending 0x00000006#32 with host := [.pollStatus] } : State).Inv ∧
      ({ pending 0x00000006#32 with host := [.pollStatus] } : State).cmd ≠ none) ∧
    (hostDoes [.writeWord 0x10000 0x00000000#32]).Inv :=
  ⟨⟨by decide, by decide, nothingLands_of_nil rfl⟩, by decide, by decide, by decide⟩

end Sys2Proof.Tests
end

section
/-! SUPPORT. What the host's accesses do to a pending command, and what the registers read after reset, said once. -/

namespace Sys2Proof.Machine

/-! ### The host's accesses and `CMD` -/

/-- A 32-bit write at offset 0 is a write of `CMD` (10_state.md R22, R25). -/
theorem hostWriteWord_cmd (s : State) (w : Word) : hostWriteWord s 0 w = .next { s with cmd := some w } := rfl

/-- A 32-bit write at any other offset leaves the pending command as it is. -/
theorem hostWriteWord_cmd_other {s t : State} {off : Nat} {v : Word} (hoff : off ≠ 0)
    (h : hostWriteWord s off v = .next t) : t.cmd = s.cmd := by
  unfold hostWriteWord at h
  split at h <;> cases h
  case h_1 r hr =>
    refine writeReg_cmd s (fun hcmd => hoff ?_) v
    rw [targetAt_register hr, hcmd]
    rfl
  all_goals rfl

/-- A 32-bit read does nothing but answer (20_memory.md R66). -/
theorem hostReadWord_eq_reply (s : State) (off : Nat) : ∃ v, hostReadWord s off = .next (reply s v) := by
  unfold hostReadWord
  split <;> exact ⟨_, rfl⟩

/-- A byte read does nothing but answer (20_memory.md R66). -/
theorem hostReadByte_eq_reply (s : State) (off : Nat) : ∃ v, hostReadByte s off = .next (reply s v) := by
  unfold hostReadByte
  split <;> exact ⟨_, rfl⟩

/-- A byte write starts no command, at whatever offset (10_state.md R25). -/
theorem hostWriteByte_cmd {s t : State} {off : Nat} {b : Byte} (h : hostWriteByte s off b = .next t) :
    t.cmd = s.cmd := by
  unfold hostWriteByte at h
  split at h <;> cases h
  case h_2 r _ =>
    rcases writeRegByte_cases s r off b with ⟨-, he⟩ | ⟨hr, he⟩
    · rw [he]
    · rw [he, writeReg_cmd s hr]
  all_goals rfl

/-- The one host action that makes a command pending is a 32-bit write at offset 0 (10_state.md R25). -/
theorem hostAct_cmd {s t : State} {a : HostAction} (hs : s.cmd = none) (h : hostAct s a = .next t) :
    t.cmd = none ∨ ∃ w, a = .writeWord 0 w ∧ t.cmd = some w := by
  cases a with
  | writeWord off v =>
    by_cases hoff : off = 0
    · subst hoff
      cases h
      exact .inr ⟨v, rfl, rfl⟩
    · exact .inl ((hostWriteWord_cmd_other hoff h).trans hs)
  | readWord off =>
    obtain ⟨v, hv⟩ := hostReadWord_eq_reply s off
    cases hv.symm.trans h
    exact .inl hs
  | writeByte off b => exact .inl ((hostWriteByte_cmd h).trans hs)
  | readByte off =>
    obtain ⟨v, hv⟩ := hostReadByte_eq_reply s off
    cases hv.symm.trans h
    exact .inl hs
  | writeByteDp k b =>
    rcases hostWriteDp_cases s k b with ⟨_, -, -, hw⟩ | ⟨-, hw⟩ <;> cases hw.symm.trans h <;> exact .inl hs
  | readByteDp k =>
    rcases hostReadDp_cases s k with ⟨_, -, -, hr⟩ | ⟨-, hr⟩ <;> cases hr.symm.trans h <;> exact .inl hs
  | reset acc save => cases h; exact .inl rfl
  | resetBusy mem acc save => cases h; exact .inl rfl
  | pollStatus => cases h; exact .inl hs

/-! ### The step -/

/-- An idle engine with no host action to come stays as it is. -/
theorem step_idle {s : State} (h : s.cmd = none) (hh : s.host = []) : step s = .next s := by
  simp only [step, h, hh, idle]

/-- A word that decodes as a command runs as that command. -/
theorem runCommand_command {w : Word} {i : Instr} (h : decode w = .command i) (s : State) : runCommand w s = exec i s := by
  simp only [runCommand, h]

/-- An illegal word faults with `F_ILLEGAL` (30_encoding.md R104). -/
theorem runCommand_illegal {w : Word} {why : Illegal} (h : decode w = .illegal why) (s : State) :
    runCommand w s = .next (raiseFault s .fIllegal) := by
  simp only [runCommand, h, execIllegal]

/-! ### The registers after reset -/

/-- `BUF_DP` shows the data pointer whole while that fits its 16 bits. -/
theorem readReg_bufDp_toNat {s : State} (h : s.dp < 65536) : (readReg s .bufDp).toNat = s.dp := by
  simp only [readReg, BitVec.toNat_setWidth, BitVec.toNat_ofNat]
  omega

/-- After reset every register but `BUF_DP` reads 0 (10_state.md R45). -/
theorem readReg_resetWith (p : Params) (mem0 : Memory) (acc0 : Half) (save0 : List Byte) {r : Reg} (h : r ≠ .bufDp) :
    readReg (State.resetWith p mem0 acc0 save0) r = 0x00000000#32 := by
  cases r with
  | bufDp => exact absurd rfl h
  | status =>
    change (BitVec.ofBool false ++ 0#23 ++ faultBits .fNone ++ outcomeBits .oNone : Word) = 0x00000000#32
    decide
  | _ => rfl

end Sys2Proof.Machine
end

section
/-! PROOFS. The statements about the state: how a command starts, and what reset leaves (10_state.md R25, R45;
70_reset_and_hazards.md R251). -/

namespace Sys2Proof.Proofs

open Sys2Proof Sys2Proof.Machine

/-- Settles O7: the write puts the word into `CMD`, the next step is `runCommand` of it, and of all host actions
only this write makes a command pending. -/
theorem onlyCmdWriteStartsCommand : Obligations.OnlyCmdWriteStartsCommand := by
  refine ⟨fun s w rest hidle hhost => ⟨?_, fun hlands => ?_⟩, fun s t hidle hstep hcmd => ?_⟩
  · rw [step_host hidle hhost]
    exact hostWriteWord_cmd (takeAction s rest) w
  · have hrun : step { s with host := rest, cmd := some w } = runCommand w { s with host := rest, cmd := some w } :=
      step_pending rfl hlands
    exact ⟨fun i hi => hrun.trans (runCommand_command hi _), fun why hwhy => hrun.trans (runCommand_illegal hwhy _)⟩
  · cases hhost : s.host with
    | nil =>
      cases (step_idle hidle hhost).symm.trans hstep
      exact absurd hidle hcmd
    | cons a rest =>
      rw [step_host hidle hhost] at hstep
      rcases hostAct_cmd (s := takeAction s rest) hidle hstep with hnone | ⟨w, rfl, hw⟩
      · exact absurd hnone hcmd
      · exact ⟨w, rest, rfl, hw⟩

/-- Settles O11: reset writes every field with its value of 10_state.md R45, and `BUF_HEADROOM` fits `BUF_DP`. -/
theorem resetLeavesTheSpecValues : Obligations.ResetLeavesTheSpecValues := by
  intro p mem0 acc0 save0 hvalid
  obtain ⟨-, -, hroom, hcap, -⟩ := hvalid
  have hdp : (readReg (State.resetWith p mem0 acc0 save0) .bufDp).toNat = p.bufHeadroom :=
    readReg_bufDp_toNat (Nat.lt_succ_of_le (hroom.trans hcap))
  refine ⟨rfl, rfl, rfl, readReg_resetWith p mem0 acc0 save0 (by decide), fun r hr => ?_, rfl, hdp, rfl, fun _ => rfl,
    fun _ => rfl, rfl, rfl⟩
  refine readReg_resetWith p mem0 acc0 save0 ?_
  rintro rfl
  exact absurd hr (by decide)

end Sys2Proof.Proofs
end

section
/-! LAWS. The decoder by format: the commands of each format (30_encoding.md R100), and its test of the unused
bits as the mask of used bits says it (R96 to R98 against R101). -/

namespace Sys2Proof

/-- The commands of format Z with their opcodes (30_encoding.md R100). -/
def formatZ : List (BitVec 4 × Instr) :=
  [(0x0#4, .nop), (0x1#4, .csum), (0x5#4, .rx), (0x6#4, .tx), (0xC#4, .hdrrd), (0xD#4, .hdrwr)]

/-- The commands of format N with their opcodes (30_encoding.md R100). -/
def formatN : List (BitVec 4 × (Half → Instr)) :=
  [(0x3#4, .closePort), (0x4#4, .lookup), (0x7#4, .bufinit), (0x8#4, .push), (0x9#4, .pop), (0xA#4, .padd), (0xB#4, .padr)]

theorem decode_formatZ {w : Word} {op : BitVec 4} {i : Instr} (hmem : (op, i) ∈ formatZ)
    (hop : w.extractLsb' 0 4 = op) : decode w = decodeZ w i := by
  simp only [formatZ, List.mem_cons, List.not_mem_nil, or_false, Prod.mk.injEq] at hmem
  rcases hmem with ⟨rfl, rfl⟩ | ⟨rfl, rfl⟩ | ⟨rfl, rfl⟩ | ⟨rfl, rfl⟩ | ⟨rfl, rfl⟩ | ⟨rfl, rfl⟩ <;>
    rw [decode, opField, hop] <;> rfl

theorem decode_formatN {w : Word} {op : BitVec 4} {mk : Half → Instr} (hmem : (op, mk) ∈ formatN)
    (hop : w.extractLsb' 0 4 = op) : decode w = decodeN w mk := by
  simp only [formatN, List.mem_cons, List.not_mem_nil, or_false, Prod.mk.injEq] at hmem
  rcases hmem with ⟨rfl, rfl⟩ | ⟨rfl, rfl⟩ | ⟨rfl, rfl⟩ | ⟨rfl, rfl⟩ | ⟨rfl, rfl⟩ | ⟨rfl, rfl⟩ | ⟨rfl, rfl⟩ <;>
    rw [decode, opField, hop] <;> rfl

/-- OPEN is the one command of format O (30_encoding.md R100). -/
theorem decode_formatO {w : Word} (hop : w.extractLsb' 0 4 = 0x2#4) : decode w = decodeO w .openPort := by
  rw [decode, opField, hop]
  rfl

/-- The opcodes 0xE and 0xF are reserved (30_encoding.md R103). -/
theorem decode_reserved {w : Word} (hop : w.extractLsb' 0 4 = 0xE#4 ∨ w.extractLsb' 0 4 = 0xF#4) :
    decode w = .illegal .reservedOpcode := by
  rcases hop with hop | hop <;> rw [decode, opField, hop] <;> rfl

/-- A field is 0 exactly when the word sets no bit outside `used`, for a mask that leaves out that field alone. -/
theorem extractLsb'_eq_zero_iff_masked (w : Word) {used : Word} {lo n : Nat}
    (hused : ∀ j : Fin 32, (~~~used).getLsbD j = decide (lo ≤ j.val ∧ j.val < lo + n)) :
    w.extractLsb' lo n = 0#n ↔ w &&& ~~~used = 0#32 := by
  constructor
  · intro hfield
    refine BitVec.eq_of_getLsbD_eq (fun j hj => ?_)
    rw [BitVec.getLsbD_and, hused ⟨j, hj⟩, BitVec.getLsbD_zero, Bool.and_eq_false_iff]
    by_cases hin : lo ≤ j ∧ j < lo + n
    · have hbit := congrArg (BitVec.getLsbD · (j - lo)) hfield
      have hlt : j - lo < n := by omega
      simp only [BitVec.getLsbD_extractLsb', BitVec.getLsbD_zero, hlt, decide_true, Bool.true_and,
        Nat.add_sub_cancel' hin.1] at hbit
      exact .inl hbit
    · exact .inr (decide_eq_false hin)
  · intro hmask
    refine BitVec.eq_of_getLsbD_eq (fun j hj => ?_)
    rw [BitVec.getLsbD_extractLsb', BitVec.getLsbD_zero, decide_eq_true hj, Bool.true_and]
    by_cases hlt : lo + j < 32
    · have hbit := congrArg (BitVec.getLsbD · (lo + j)) hmask
      have hin : lo ≤ lo + j ∧ lo + j < lo + n := by omega
      simp only [BitVec.getLsbD_and, hused ⟨lo + j, hlt⟩, decide_eq_true hin, Bool.and_true,
        BitVec.getLsbD_zero] at hbit
      exact hbit
    · exact BitVec.getLsbD_of_ge w _ (Nat.le_of_not_lt hlt)

/-- Format Z by its mask (30_encoding.md R101). -/
theorem decodeZ_eq_masked (w : Word) (i : Instr) :
    decodeZ w i = if w &&& ~~~0x0000000F#32 = 0#32 then .command i else .illegal .unusedBits :=
  if_congr (extractLsb'_eq_zero_iff_masked w (by decide)) rfl rfl

/-- Format N by its mask (30_encoding.md R101). -/
theorem decodeN_eq_masked (w : Word) (mk : Half → Instr) :
    decodeN w mk = if w &&& ~~~0xFFFF000F#32 = 0#32 then .command (mk (immField w)) else .illegal .unusedBits :=
  if_congr (extractLsb'_eq_zero_iff_masked w (by decide)) rfl rfl

/-- Format O by its mask (30_encoding.md R101). -/
theorem decodeO_eq_masked (w : Word) (mk : Half → Byte → Instr) :
    decodeO w mk = if w &&& ~~~0xFFFFFF0F#32 = 0#32 then .command (mk (immField w) (hidField w))
      else .illegal .unusedBits :=
  if_congr (extractLsb'_eq_zero_iff_masked w (by decide)) rfl rfl

end Sys2Proof
end

section
/-! PROOFS. The statements about the encoding (30_encoding.md). -/

namespace Sys2Proof.Proofs

open Sys2Proof Sys2Proof.Machine

/-- Settles O3: the opcode picks the format, and the format's test of its unused bits is the test by the mask. -/
theorem decoderFollowsUsedBits : Obligations.DecoderFollowsUsedBits := by
  intro w
  refine ⟨fun op i hmem hop => ?formatZ, fun op mk hmem hop => ?formatN, fun hop => ?formatO, decode_reserved,
    fun why s hwhy => runCommand_illegal hwhy s⟩
  case formatZ => exact (decode_formatZ hmem hop).trans (decodeZ_eq_masked w i)
  case formatN => exact (decode_formatN hmem hop).trans (decodeN_eq_masked w mk)
  case formatO => exact (decode_formatO hop).trans (decodeO_eq_masked w .openPort)

end Sys2Proof.Proofs
end

section
/-! LAWS. The window commands: their format N words, the commands that need room, and the primitives they run
(40_control_and_buffer_ops.md R121 to R127). -/

namespace Sys2Proof

/-- A format N word as the rules of the commands write it: the operand over a half that holds the opcode. -/
theorem encodeN_eq_append (op : BitVec 4) (imm : Half) : encodeN op imm = imm ++ op.setWidth 16 := by
  refine BitVec.eq_of_toNat_eq ?_
  have := op.isLt
  rw [encodeN_toNat, append_toNat, BitVec.toNat_setWidth, Nat.mod_eq_of_lt (by omega)]

end Sys2Proof

namespace Sys2Proof.Machine

/-! ### Commands that need room -/

/-- `r` is the result of a command that needs `room`: with it the command ends `O_OK` in `u`, without it the command
faults `F_ROOM` and changes only the `STATUS` of `s` (60_exceptions.md R228, R233). -/
structure RoomGuarded (s : State) (room : Prop) (u : State) (r : Result) : Prop where
  ok : room → r = .next (finish u .oOk)
  fault : ¬ room → r = .next (raiseFault s .fRoom)

theorem RoomGuarded.of_ite {s u : State} {c room : Prop} [Decidable c] (h : ¬ c ↔ room) :
    RoomGuarded s room u (if c then .next (raiseFault s .fRoom) else .next (finish u .oOk)) where
  ok hroom := if_neg (h.mpr hroom)
  fault hroom := if_pos (not_not.mp (mt h.mp hroom))

/-- A next state of a command that needs room is one of the two ends. -/
theorem RoomGuarded.next_cases {s u t : State} {room : Prop} {r : Result} (h : RoomGuarded s room u r)
    (ht : r = .next t) : (room ∧ t = finish u .oOk) ∨ t = raiseFault s .fRoom := by
  by_cases hroom : room
  · cases (h.ok hroom).symm.trans ht
    exact .inl ⟨hroom, rfl⟩
  · cases (h.fault hroom).symm.trans ht
    exact .inr rfl

theorem RoomGuarded.mem_eq {s u t : State} {room : Prop} {r : Result} (h : RoomGuarded s room u r)
    (hu : u.mem = s.mem) (ht : r = .next t) : t.mem = s.mem := by
  rcases h.next_cases ht with ⟨-, rfl⟩ | rfl
  · exact hu
  · rfl

theorem RoomGuarded.bufferOk {s u t : State} {room : Prop} {r : Result} (h : RoomGuarded s room u r)
    (hs : s.BufferOk) (hu : room → u.BufferOk) (ht : r = .next t) : t.BufferOk := by
  rcases h.next_cases ht with ⟨hroom, rfl⟩ | rfl
  · exact hu hroom
  · exact hs

theorem exec_bufinit (n : Half) (s : State) : RoomGuarded s (s.cfg.bufHeadroom + n.toNat ≤ s.cfg.bufCap)
    (setWindow s s.cfg.bufHeadroom n.toNat) (exec (.bufinit n) s) :=
  .of_ite Nat.not_lt

theorem exec_push (n : Half) (s : State) :
    RoomGuarded s (n.toNat ≤ s.dp) (bufPush s n.toNat) (exec (.push n) s) :=
  .of_ite Nat.not_lt

theorem exec_pop (n : Half) (s : State) :
    RoomGuarded s (n.toNat ≤ s.len) (bufPop s n.toNat) (exec (.pop n) s) :=
  .of_ite Nat.not_lt

theorem exec_padd (n : Half) (s : State) :
    RoomGuarded s (s.dp + s.len + n.toNat ≤ s.cfg.bufCap) (padAdd s n.toNat) (exec (.padd n) s) :=
  .of_ite Nat.not_lt

theorem exec_padr (n : Half) (s : State) :
    RoomGuarded s (n.toNat ≤ s.len) (padRemove s n.toNat) (exec (.padr n) s) :=
  .of_ite Nat.not_lt

/-! ### The primitives -/

/-- A push then a pop of less is a push of the difference (R127c). -/
theorem bufPop_bufPush {s : State} {n m : Nat} (hmn : m ≤ n) (hn : n ≤ s.dp) :
    bufPop (bufPush s n) m = bufPush s (n - m) := by
  have hdp : s.dp - n + m = s.dp - (n - m) := by omega
  have hlen : s.len + n - m = s.len + (n - m) := Nat.add_sub_assoc hmn s.len
  change setWindow s (s.dp - n + m) (s.len + n - m) = setWindow s (s.dp - (n - m)) (s.len + (n - m))
  rw [hdp, hlen]

/-- A push then a pop of the same size is the identity (R127b). -/
theorem bufPop_bufPush_same {s : State} {n : Nat} (hn : n ≤ s.dp) : bufPop (bufPush s n) n = s := by
  rw [bufPop_bufPush le_rfl hn, Nat.sub_self]
  rfl

theorem bufferOk_bufPush {s : State} {n : Nat} (hs : s.BufferOk) (hn : n ≤ s.dp) : (bufPush s n).BufferOk := by
  simp only [State.BufferOk, bufPush_cfg, bufPush_dp, bufPush_len]
  omega

theorem bufferOk_bufPop {s : State} {n : Nat} (hs : s.BufferOk) (hn : n ≤ s.len) : (bufPop s n).BufferOk := by
  simp only [State.BufferOk, bufPop_cfg, bufPop_dp, bufPop_len]
  omega

theorem bufferOk_padAdd {s : State} {n : Nat} (hroom : s.dp + s.len + n ≤ s.cfg.bufCap) : (padAdd s n).BufferOk := by
  simp only [State.BufferOk, padAdd_cfg, padAdd_dp, padAdd_len]
  omega

theorem bufferOk_padRemove {s : State} (hs : s.BufferOk) (n : Nat) : (padRemove s n).BufferOk := by
  simp only [State.BufferOk, padRemove_cfg, padRemove_dp, padRemove_len]
  omega

/-- A byte after `pad_add(n)`: zero in the `n` bytes behind the packet, elsewhere the old byte (R125). -/
theorem readByte_padAdd (s : State) (n a : Nat) : (padAdd s n).mem.readByte a =
    if s.dp + s.len ≤ a ∧ a < s.dp + s.len + n then 0x00#8 else s.mem.readByte a := by
  rw [padAdd_mem, Memory.readByte_writeBytes, List.length_replicate]
  split
  · next h => exact List.getD_replicate _ (by omega)
  · rfl

end Sys2Proof.Machine
end

section
/-! PROOFS. The statements about the packet buffer (40_control_and_buffer_ops.md). -/

namespace Sys2Proof.Proofs

open Sys2Proof Sys2Proof.Machine

/-- Settles O21: the laws of the primitives themselves, and for the commands the two ends of `RoomGuarded`, of which
`F_ROOM` changes neither `MEM` nor the packet window. -/
theorem primitiveLaws : Obligations.PrimitiveLaws := by
  refine ⟨?keepsMem, ?paddFrame, fun s n hn => bufPop_bufPush_same hn,
    fun s n m hmn hn => ⟨bufPop_bufPush hmn hn, rfl, rfl⟩, ?padRoundTrip, ?keepsBufferOk⟩
  case keepsMem =>
    intro s t n i hi ht
    simp only [List.mem_cons, List.not_mem_nil, or_false] at hi
    rcases hi with rfl | rfl | rfl | rfl | rfl
    · exact (exec_push n s).mem_eq rfl ht
    · exact (exec_pop n s).mem_eq rfl ht
    · exact (exec_padr n s).mem_eq rfl ht
    · exact (exec_bufinit n s).mem_eq rfl ht
    · cases ht
      rfl
  case paddFrame =>
    intro s t n a ht hout
    rcases (exec_padd n s).next_cases ht with ⟨-, rfl⟩ | rfl
    · exact (readByte_padAdd s n.toNat a).trans (if_neg hout)
    · rfl
  case padRoundTrip =>
    intro s n
    exact ⟨rfl, Nat.add_sub_cancel s.len n, fun a hlo hhi => (readByte_padAdd s n a).trans (if_pos ⟨hlo, hhi⟩)⟩
  case keepsBufferOk =>
    intro s t n i hi hs ht
    simp only [List.mem_cons, List.not_mem_nil, or_false] at hi
    rcases hi with rfl | rfl | rfl | rfl | rfl
    · exact (exec_push n s).bufferOk hs (bufferOk_bufPush hs) ht
    · exact (exec_pop n s).bufferOk hs (bufferOk_bufPop hs) ht
    · exact (exec_padr n s).bufferOk hs (fun _ => bufferOk_padRemove hs n.toNat) ht
    · exact (exec_padd n s).bufferOk hs bufferOk_padAdd ht
    · exact (exec_bufinit n s).bufferOk hs id ht

/-- Settles O19: each word is a format N word, and each command is `RoomGuarded`. -/
theorem windowCommands : Obligations.WindowCommands := by
  refine ⟨rfl, fun s n => ⟨rfl, ?_⟩⟩
  exact ⟨encodeN_eq_append 0x7#4 n, (exec_bufinit n s).ok, fun h => (exec_bufinit n s).fault (Nat.not_le.mpr h),
    encodeN_eq_append 0x8#4 n, (exec_push n s).ok, fun h => (exec_push n s).fault (Nat.not_le.mpr h),
    encodeN_eq_append 0x9#4 n, (exec_pop n s).ok, fun h => (exec_pop n s).fault (Nat.not_le.mpr h),
    encodeN_eq_append 0xB#4 n, (exec_padr n s).ok, fun h => (exec_padr n s).fault (Nat.not_le.mpr h)⟩

/-- Settles O20: with the tailroom the next state is that of `pad_add(n)`, whose bytes `readByte_padAdd` gives. -/
theorem paddAppendsZeros : Obligations.PaddAppendsZeros := by
  intro s n
  exact ⟨encodeN_eq_append 0xA#4 n,
    fun hroom => ⟨finish (padAdd s n.toNat) .oOk, (exec_padd n s).ok hroom, rfl, readByte_padAdd s n.toNat⟩,
    fun h => (exec_padd n s).fault (Nat.not_le.mpr h)⟩

end Sys2Proof.Proofs
end

section
/-! LAWS. HDRRD and HDRWR: their ends, and that reading and writing the header record undo each other
(41_header_ops.md R140 to R143). -/

namespace Sys2Proof.Machine

/-! ### The ends of the two commands -/

/-- HDRRD with a whole header, in a state whose packet lies inside `MEM`. -/
theorem exec_hdrrd_of_header {s : State} (hlen : 8 ≤ s.len) (hbuf : s.BufferOk) :
    exec .hdrrd s = .next (finish (hdrRead s) .oOk) :=
  (if_neg (Nat.not_lt.mpr hlen)).trans (if_pos hbuf)

theorem exec_hdrrd_of_short {s : State} (hlen : s.len < 8) : exec .hdrrd s = .next (raiseFault s .fShort) :=
  if_pos hlen

/-- HDRWR with a whole header, in a state whose packet lies inside `MEM`. -/
theorem exec_hdrwr_of_header {s : State} (hlen : 8 ≤ s.len) (hbuf : s.BufferOk) :
    exec .hdrwr s = .next (finish (hdrWrite s) .oOk) :=
  (if_neg (Nat.not_lt.mpr hlen)).trans (if_pos hbuf)

theorem exec_hdrwr_of_short {s : State} (hlen : s.len < 8) : exec .hdrwr s = .next (raiseFault s .fShort) :=
  if_pos hlen

/-! ### What the two operations leave unchanged -/

/-- `hdr_write()` changes nothing but `MEM`. -/
theorem hdrWrite_eq_setMem (s : State) : hdrWrite s = setMem s (hdrWrite s).mem := by
  rw [hdrWrite_eq, setMem_mem]

@[simp] theorem hdrWrite_hSport (s : State) : (hdrWrite s).hSport = s.hSport := by rw [hdrWrite_eq_setMem, setMem_hSport]
@[simp] theorem hdrWrite_hDport (s : State) : (hdrWrite s).hDport = s.hDport := by rw [hdrWrite_eq_setMem, setMem_hDport]
@[simp] theorem hdrWrite_hLen (s : State) : (hdrWrite s).hLen = s.hLen := by rw [hdrWrite_eq_setMem, setMem_hLen]
@[simp] theorem hdrWrite_hCsum (s : State) : (hdrWrite s).hCsum = s.hCsum := by rw [hdrWrite_eq_setMem, setMem_hCsum]
@[simp] theorem hdrWrite_len (s : State) : (hdrWrite s).len = s.len := by rw [hdrWrite_eq_setMem, setMem_len]
@[simp] theorem hdrRead_len (s : State) : (hdrRead s).len = s.len := rfl

theorem bufferOk_hdrWrite {s : State} (hbuf : s.BufferOk) : (hdrWrite s).BufferOk := by
  rw [hdrWrite_eq_setMem, State.BufferOk, setMem_dp, setMem_len, setMem_cfg]
  exact hbuf

theorem bufferOk_hdrRead {s : State} (hbuf : s.BufferOk) : (hdrRead s).BufferOk := by
  rw [hdrRead, State.BufferOk, setRecord_dp, setRecord_len, setRecord_cfg]
  exact hbuf

theorem bufferOk_finish {s : State} (hbuf : s.BufferOk) (o : OutcomeCode) : (finish s o).BufferOk := by
  rw [State.BufferOk, finish_dp, finish_len, finish_cfg]
  exact hbuf

/-- The end of a command touches nothing that `hdr_read()` looks at or writes. -/
theorem hdrRead_finish (s : State) (o : OutcomeCode) : hdrRead (finish s o) = finish (hdrRead s) o := rfl

/-- The end of a command touches nothing that `hdr_write()` looks at or writes. -/
theorem hdrWrite_finish (s : State) (o : OutcomeCode) : hdrWrite (finish s o) = finish (hdrWrite s) o := by
  rw [hdrWrite_eq, hdrWrite_eq]
  rfl

/-! ### Writing, then reading -/

/-- `hdr_read()` after `hdr_write()` finds in each field what the record holds: the four fields lie apart, so each is
read as it was placed (R143a). -/
theorem hdrRead_hdrWrite (s : State) : hdrRead (hdrWrite s) = hdrWrite s := by
  have hsport : rd16 (hdrWrite s) 0 = s.hSport := by
    rw [hdrWrite, rd16_wr16_other _ _ _ _ (by decide), rd16_wr16_other _ _ _ _ (by decide),
      rd16_wr16_other _ _ _ _ (by decide), rd16_wr16_same]
  have hdport : rd16 (hdrWrite s) 2 = s.hDport := by
    rw [hdrWrite, rd16_wr16_other _ _ _ _ (by decide), rd16_wr16_other _ _ _ _ (by decide), rd16_wr16_same]
  have hlen : rd16 (hdrWrite s) 4 = s.hLen := by
    rw [hdrWrite, rd16_wr16_other _ _ _ _ (by decide), rd16_wr16_same]
  have hcsum : rd16 (hdrWrite s) 6 = s.hCsum := by
    rw [hdrWrite, rd16_wr16_same]
  rw [hdrRead, hsport, hdport, hlen, hcsum, hdrWrite_eq]
  rfl

/-! ### Reading, then writing -/

/-- Writing back the bytes just read changes no byte. -/
theorem Memory.readByte_writeBytes_readBytes (m : Memory) (a n x : Nat) :
    (m.writeBytes a (m.readBytes a n)).readByte x = m.readByte x := by
  rw [Memory.readByte_writeBytes, Memory.length_readBytes]
  split
  · next hin =>
    rw [List.getD_eq_getElem?_getD, Memory.getElem?_readBytes, if_pos (by omega), Option.getD_some,
      Nat.add_sub_cancel' hin.1]
  · rfl

/-- The image of the record that `hdr_read()` leaves is the first 8 bytes of the packet. -/
theorem headerBytes_hdrRead (s : State) :
    headerBytes (hdrRead s).hSport (hdrRead s).hDport (hdrRead s).hLen (hdrRead s).hCsum = s.mem.readBytes s.dp 8 := by
  simp only [hdrRead, setRecord_hSport, setRecord_hDport, setRecord_hLen, setRecord_hCsum, headerBytes, rd16,
    hi8_be16, lo8_be16, Memory.readBytes, Nat.add_assoc, Nat.add_zero, Nat.reduceAdd]

/-- `hdr_write()` after `hdr_read()` changes no byte (R143b). -/
theorem readByte_hdrWrite_hdrRead (s : State) (x : Nat) :
    (hdrWrite (hdrRead s)).mem.readByte x = s.mem.readByte x := by
  rw [hdrWrite_eq, headerBytes_hdrRead]
  exact Memory.readByte_writeBytes_readBytes s.mem s.dp 8 x

end Sys2Proof.Machine
end

section
/-! PROOFS. The statements about the header record (41_header_ops.md). -/

namespace Sys2Proof.Proofs

open Sys2Proof Sys2Proof.Machine

/-- Settles O23: with a whole header the next state is that of `hdr_write()`, which changes nothing but `MEM` and whose
bytes `readByte_hdrWrite` gives. -/
theorem hdrwrBuildsHeader : Obligations.HdrwrBuildsHeader := by
  refine ⟨rfl, fun s => ⟨fun hlen hbuf => ?_, exec_hdrwr_of_short⟩⟩
  have hrun := exec_hdrwr_of_header hlen hbuf
  have hbytes := readByte_hdrWrite s
  rw [hdrWrite_eq_setMem] at hrun
  generalize (hdrWrite s).mem = m at hrun hbytes
  exact ⟨finish (setMem s m) .oOk, hrun, rfl, hbytes⟩

/-- Settles O24: the end of the first command touches nothing the second looks at, so the second runs in full, and
`hdrRead_hdrWrite` and `readByte_hdrWrite_hdrRead` say what the two leave. -/
theorem headerRoundTrip : Obligations.HeaderRoundTrip := by
  refine ⟨fun s hlen hbuf => ⟨?writeRead, ?readWrite⟩, be16_hi8_lo8, fun a b => ?bytes⟩
  case writeRead =>
    have hlen' : 8 ≤ (finish (hdrWrite s) .oOk).len := by rwa [finish_len, hdrWrite_len]
    have hrun := exec_hdrrd_of_header hlen' (bufferOk_finish (bufferOk_hdrWrite hbuf) .oOk)
    rw [hdrRead_finish, hdrRead_hdrWrite] at hrun
    refine ⟨_, _, exec_hdrwr_of_header hlen hbuf, hrun, ?_⟩
    simp only [finish_hSport, finish_hDport, finish_hLen, finish_hCsum, hdrWrite_hSport, hdrWrite_hDport, hdrWrite_hLen,
      hdrWrite_hCsum, and_self]
  case readWrite =>
    have hlen' : 8 ≤ (finish (hdrRead s) .oOk).len := by rwa [finish_len, hdrRead_len]
    have hrun := exec_hdrwr_of_header hlen' (bufferOk_finish (bufferOk_hdrRead hbuf) .oOk)
    rw [hdrWrite_finish] at hrun
    refine ⟨_, _, exec_hdrrd_of_header hlen hbuf, hrun, fun a => ?_⟩
    rw [finish_mem, finish_mem, readByte_hdrWrite_hdrRead]
  case bytes => rw [hi8_be16, lo8_be16]

/-- Settles O22: with a whole header the next state is that of `hdr_read()`, whose four `rd16` are the fields. -/
theorem hdrrdParsesHeader : Obligations.HdrrdParsesHeader :=
  ⟨rfl, fun _ => ⟨exec_hdrrd_of_header, exec_hdrrd_of_short⟩⟩

end Sys2Proof.Proofs
end

section
/-! LAWS. The adder and its sum in closed form (42_checksum.md R150 to R153): both are the end-around value of an
ordinary sum of numbers, and the laws of the adder and the range of a checksum (R159) are facts about that value.
And which run of CSUM the room allows (R156). -/

namespace Sys2Proof.Machine

/-! ### End-around values -/

/-- The value of an ordinary sum once every carry is folded back: 0 for 0, otherwise the one number in
`1 .. 0xFFFF` congruent to it modulo 65535 (42_checksum.md R153). -/
def endAround (n : Nat) : Nat := if n = 0 then 0 else (n - 1) % 65535 + 1

theorem endAround_of_lt {n : Nat} (h : n < 65536) : endAround n = n := by
  rw [endAround]
  split <;> omega

/-- Folding the carries of a part first does not change the value. -/
theorem endAround_endAround_add (m n : Nat) : endAround (endAround m + n) = endAround (m + n) := by
  simp only [endAround]
  split_ifs <;> omega

theorem endAround_eq_zero_iff (n : Nat) : endAround n = 0 ↔ n = 0 := by
  rw [endAround]
  split <;> omega

theorem endAround_eq_allOnes_iff (n : Nat) : endAround n = 65535 ↔ 0 < n ∧ n % 65535 = 0 := by
  rw [endAround]
  split <;> omega

/-! ### The adder and the sum in closed form -/

/-- The adder folds its one carry back (42_checksum.md R150). -/
theorem ocAdd16_toNat_eq_endAround (a b : Half) : (ocAdd16 a b).toNat = endAround (a.toNat + b.toNat) := by
  have ha := a.isLt
  have hb := b.isLt
  rw [ocAdd16_toNat, endAround]
  split_ifs <;> omega

theorem ocSumFrom_toNat (acc : Half) (l : List Byte) :
    (ocSumFrom acc l).toNat = endAround (acc.toNat + wordTotal l) := by
  match l with
  | [] => exact (endAround_of_lt acc.isLt).symm
  | [_] => exact (endAround_of_lt acc.isLt).symm
  | b0 :: b1 :: t =>
    rw [ocSumFrom_cons, ocSumFrom_toNat _ t, ocAdd16_toNat_eq_endAround, endAround_endAround_add, Nat.add_assoc, wordTotal]

/-- The closed form of the sum (42_checksum.md R153). -/
theorem ocSum_toNat (l : List Byte) : (ocSum l).toNat = endAround (wordTotal l) := by
  rw [ocSum, ocSumFrom_toNat, BitVec.toNat_ofNat, Nat.zero_mod, Nat.zero_add]

theorem ocSum_eq_zero_iff (l : List Byte) : ocSum l = 0x0000#16 ↔ wordTotal l = 0 := by
  rw [← BitVec.toNat_inj, ocSum_toNat]
  exact endAround_eq_zero_iff _

theorem ocSum_eq_allOnes_iff (l : List Byte) : ocSum l = 0xFFFF#16 ↔ 0 < wordTotal l ∧ wordTotal l % 65535 = 0 := by
  rw [← BitVec.toNat_inj, ocSum_toNat]
  exact endAround_eq_allOnes_iff _

/-! ### The laws of the adder (42_checksum.md R152) -/

theorem ocAdd16_comm (a b : Half) : ocAdd16 a b = ocAdd16 b a := by
  refine BitVec.eq_of_toNat_eq ?_
  rw [ocAdd16_toNat_eq_endAround, ocAdd16_toNat_eq_endAround, Nat.add_comm]

theorem ocAdd16_assoc (a b c : Half) : ocAdd16 (ocAdd16 a b) c = ocAdd16 a (ocAdd16 b c) := by
  refine BitVec.eq_of_toNat_eq ?_
  calc (ocAdd16 (ocAdd16 a b) c).toNat
      = endAround (endAround (a.toNat + b.toNat) + c.toNat) := by simp only [ocAdd16_toNat_eq_endAround]
    _ = endAround (endAround (b.toNat + c.toNat) + a.toNat) := by
      rw [endAround_endAround_add, endAround_endAround_add, Nat.add_assoc, Nat.add_comm a.toNat]
    _ = (ocAdd16 a (ocAdd16 b c)).toNat := by simp only [ocAdd16_toNat_eq_endAround, Nat.add_comm a.toNat]

theorem ocAdd16_right_comm (a b c : Half) : ocAdd16 (ocAdd16 a b) c = ocAdd16 (ocAdd16 a c) b := by
  rw [ocAdd16_assoc, ocAdd16_comm b c, ← ocAdd16_assoc]

theorem ocAdd16_zero (a : Half) : ocAdd16 a 0x0000#16 = a := by
  refine BitVec.eq_of_toNat_eq ?_
  rw [ocAdd16_toNat_eq_endAround]
  exact endAround_of_lt a.isLt

/-- The second representation of zero is absorbed by every value but 0x0000. -/
theorem ocAdd16_allOnes {a : Half} (ha : a ≠ 0x0000#16) : ocAdd16 a 0xFFFF#16 = a := by
  have hlt := a.isLt
  have hpos : a.toNat ≠ 0 := fun h => ha (BitVec.eq_of_toNat_eq h)
  refine BitVec.eq_of_toNat_eq ?_
  rw [ocAdd16_toNat, BitVec.toNat_ofNat]
  split <;> omega

theorem ocAdd16_eq_zero_iff (a b : Half) : ocAdd16 a b = 0x0000#16 ↔ a = 0x0000#16 ∧ b = 0x0000#16 := by
  simp only [← BitVec.toNat_inj, ocAdd16_toNat_eq_endAround, BitVec.toNat_ofNat, Nat.zero_mod, endAround_eq_zero_iff,
    Nat.add_eq_zero_iff]

theorem ocAdd16_not (a : Half) : ocAdd16 a (~~~a) = 0xFFFF#16 := by
  have hlt := a.isLt
  have hsum : a.toNat + (~~~a).toNat = 65535 := by
    rw [BitVec.toNat_not]
    omega
  refine BitVec.eq_of_toNat_eq ?_
  rw [ocAdd16_toNat_eq_endAround, hsum]
  rfl

/-! ### The order of the words -/

/-- The sum of a sequence given by the pairs of bytes of its words is the fold of the adder over the words. -/
theorem ocSumFrom_flatMap (acc : Half) (ws : List (Byte × Byte)) :
    ocSumFrom acc (ws.flatMap fun w => [w.1, w.2]) = (ws.map fun w => be16 w.1 w.2).foldl ocAdd16 acc := by
  induction ws generalizing acc with
  | nil => rfl
  | cons w ws ih => exact ih (ocAdd16 acc (be16 w.1 w.2))

theorem ocSum_flatMap_perm {ws vs : List (Byte × Byte)} (h : ws.Perm vs) :
    ocSum (ws.flatMap fun w => [w.1, w.2]) = ocSum (vs.flatMap fun w => [w.1, w.2]) := by
  rw [ocSum, ocSum, ocSumFrom_flatMap, ocSumFrom_flatMap]
  exact (h.map _).foldl_eq' (fun x _ y _ z => ocAdd16_right_comm z x y) _

/-! ### The range of a checksum (42_checksum.md R159) -/

theorem checksum_eq_iff (p : Byte) (src dst data : List Byte) (v : Half) :
    checksum p src dst data = v ↔ ocSum (csumInput p src dst data) = ~~~v :=
  BitVec.not_eq_comm

/-- The total counts the length of the packet, the last word of the pseudo-header (30_encoding.md R93). -/
theorem wordTotal_csumInput_pos (p : Byte) {src dst data : List Byte} (hsrc : src.length = 4) (hdst : dst.length = 4)
    (hpos : 0 < data.length) (hlt : data.length < 65536) : 0 < wordTotal (csumInput p src dst data) := by
  rw [wordTotal_csumInput p src dst data hsrc hdst, BitVec.toNat_ofNat, Nat.mod_eq_of_lt hlt]
  omega

/-! ### CSUM with the room -/

/-- CSUM with a whole header and the room, in a state whose packet lies inside `MEM`. -/
theorem exec_csum_of_room {s : State} (hlen : 8 ≤ s.len) (hroom : s.HasSumRoom) (hbuf : s.BufferOk) :
    exec .csum s = .next (finish (csumInplace s (addrBytes s.csSrc) (addrBytes s.csDst)) .oOk) := by
  obtain ⟨hdp, hpad⟩ := hroom
  change execCsum s = _
  rw [execCsum, if_neg (Nat.not_lt.mpr hlen), if_neg (Nat.not_lt.mpr hdp), if_neg hpad, withBuffer, if_pos hbuf]

end Sys2Proof.Machine
end

section
/-! PROOFS. The statements about the checksum (42_checksum.md). -/

namespace Sys2Proof.Proofs

open Sys2Proof Sys2Proof.Machine

/-- Settles O29: the adder is the end-around value of an ordinary sum, and a permutation of the words only reorders a
fold of it. -/
theorem adderLaws : Obligations.AdderLaws :=
  ⟨ocAdd16_comm, ocAdd16_assoc, fun _ _ => ocSum_flatMap_perm, ocAdd16_zero, fun _ => ocAdd16_allOnes, rfl,
    fun a b => (ocAdd16_eq_zero_iff a b).mp, ocAdd16_not⟩

/-- Settles O31: the total of the input is positive, so its sum is never 0x0000, the complement of 0xFFFF, and it is
0xFFFF, the complement of 0x0000, exactly when 65535 divides the total. -/
theorem checksumNeverAllOnes : Obligations.ChecksumNeverAllOnes := by
  refine ⟨fun p src dst data hsrc hdst h8 hmax => ?_, by decide⟩
  have hpos := wordTotal_csumInput_pos p hsrc hdst (by omega) (by omega : data.length < 65536)
  constructor
  · intro h
    have hsum : ocSum (csumInput p src dst data) = 0x0000#16 := (checksum_eq_iff p src dst data 0xFFFF#16).mp h
    exact hpos.ne' ((ocSum_eq_zero_iff _).mp hsum)
  · calc checksum p src dst data = 0x0000#16
        ↔ ocSum (csumInput p src dst data) = 0xFFFF#16 := checksum_eq_iff p src dst data 0x0000#16
      _ ↔ 0 < wordTotal (csumInput p src dst data) ∧ wordTotal (csumInput p src dst data) % 65535 = 0 :=
        ocSum_eq_allOnes_iff _
      _ ↔ wordTotal (csumInput p src dst data) % 65535 = 0 := and_iff_right hpos

/-- Settles O34: with the room CSUM runs `csum_inplace`, whose end state `csumInplace_eq` gives, and whose bytes
`readByte_csumMemAfter`. -/
theorem csumEndState : Obligations.CsumEndState := by
  intro s hcfg hbuf hpadded hlen hroom
  obtain ⟨h12, -⟩ := hcfg
  have hdp : s.cfg.ipHdrSize ≤ s.dp := hroom.1
  have hsrc := length_addrBytes s.csSrc
  have hdst := length_addrBytes s.csDst
  have hrun := exec_csum_of_room hlen hroom hbuf
  have hend := csumInplace_eq s (addrBytes s.csSrc) (addrBytes s.csDst) h12 hdp hpadded hsrc hdst
  have hdata := data_csumInplace s (addrBytes s.csSrc) (addrBytes s.csDst) h12 hdp hpadded hsrc hdst
  have hbytes := readByte_csumMemAfter s (addrBytes s.csSrc) (addrBytes s.csDst) (h12.trans hdp) hsrc hdst
  rw [ocSum_csumInput] at hend
  rw [hend] at hrun hdata
  exact ⟨_, hrun, rfl, hbytes, hdata⟩

end Sys2Proof.Proofs
end

section
/-! LAWS. The commands on the port table: their ends (43_port_registry.md R171 to R173). -/

namespace Sys2Proof

/-- A format O word as the rule of OPEN writes it: the operands over a byte that holds the opcode. -/
theorem encodeO_eq_append (op : BitVec 4) (imm : Half) (hid : Byte) :
    encodeO op imm hid = imm ++ hid ++ op.setWidth 8 := by
  refine BitVec.eq_of_toNat_eq ?_
  have := op.isLt
  rw [encodeO_toNat, append_toNat, append_toNat, BitVec.toNat_setWidth, Nat.mod_eq_of_lt (by omega)]
  omega

end Sys2Proof

namespace Sys2Proof.Machine

/-- OPEN of a new port in a full table fails (R171). -/
theorem exec_open_of_full {s : State} {port : Half} (hid : Byte)
    (hfull : s.pt.handler port = none ∧ s.pt.length = s.cfg.ptCap) :
    exec (.openPort port hid) s = .next (finish s .oOpenFail) :=
  if_pos hfull

/-- OPEN registers the handler in every other case (R171). -/
theorem exec_open_of_room {s : State} {port : Half} (hid : Byte)
    (hroom : ¬ (s.pt.handler port = none ∧ s.pt.length = s.cfg.ptCap)) :
    exec (.openPort port hid) s = .next (finish (setTable s (s.pt.register port hid)) .oOk) :=
  if_neg hroom

/-- CLOSE removes the entry, if there is one (R172). -/
theorem exec_close (port : Half) (s : State) :
    exec (.closePort port) s = .next (finish (setTable s (s.pt.remove port)) .oOk) := rfl

/-- LOOKUP answers from the table (R173). -/
theorem exec_lookup (port : Half) (s : State) :
    exec (.lookup port) s = .next (finish (setLkResult s (lookupWord (s.pt.handler port))) .oOk) := rfl

/-- A port just registered has its handler (R171). -/
theorem PortTable.handler_register_same (t : PortTable) (port : Half) (hid : Byte) :
    (t.register port hid).handler port = some hid :=
  (t.handler_register port hid port).trans (if_pos rfl)

/-- A port just removed has no handler (R172). -/
theorem PortTable.handler_remove_same (t : PortTable) (port : Half) : (t.remove port).handler port = none :=
  (t.handler_remove port port).trans (if_pos rfl)

/-- Registering a port keeps the table within its capacity, unless it adds an entry to a full one (R174). -/
theorem PortTable.length_register_le {t : PortTable} {port : Half} {cap : Nat} (hid : Byte) (hwf : t.wf = true)
    (hle : t.length ≤ cap) (hroom : ¬ (t.handler port = none ∧ t.length = cap)) :
    (t.register port hid).length ≤ cap := by
  rw [PortTable.length_register hwf]
  split
  · next hnone =>
    have hne : t.length ≠ cap := fun heq => hroom ⟨hnone, heq⟩
    omega
  · exact hle

end Sys2Proof.Machine
end

section
/-! PROOFS. The statements about the commands on the port table (43_port_registry.md). -/

namespace Sys2Proof.Proofs

open Sys2Proof Sys2Proof.Machine

/-- Settles O25: the word is of format O, and OPEN fails or registers by its one test. -/
theorem openRegistersHandler : Obligations.OpenRegistersHandler := by
  intro s port hid
  refine ⟨encodeO_eq_append 0x2#4 port hid, exec_open_of_full hid, fun hroom => ?_⟩
  exact ⟨_, exec_open_of_room hid hroom, rfl, s.pt.handler_register port hid,
    fun hwf => PortTable.length_register hwf port hid⟩

/-- Settles O26: the word is of format N, and CLOSE is a removal from the table. -/
theorem closeRemovesHandler : Obligations.CloseRemovesHandler := by
  intro s port
  exact ⟨encodeN_eq_append 0x3#4 port, _, exec_close port s, rfl, s.pt.handler_remove port,
    fun hwf => PortTable.length_remove hwf port⟩

/-- Settles O27: LOOKUP writes `lookupWord` of the table's answer. -/
theorem lookupReadsTable : Obligations.LookupReadsTable := by
  intro s port
  refine ⟨encodeN_eq_append 0x4#4 port, fun hmiss => ?_, fun hid hhit => ?_⟩
  · rw [exec_lookup, hmiss]
    rfl
  · rw [exec_lookup, hhit]
    rfl

/-- Settles O28: after the first OPEN the port is not absent, so the second overwrites its entry. -/
theorem overwriteAndClose : Obligations.OverwriteAndClose := by
  intro s port h1 h2 hroom
  have hfirst : (finish (setTable s (s.pt.register port h1)) .oOk).pt.handler port = some h1 :=
    s.pt.handler_register_same port h1
  have hpresent : (finish (setTable s (s.pt.register port h1)) .oOk).pt.handler port ≠ none :=
    fun hnone => Option.some_ne_none h1 (hfirst.symm.trans hnone)
  exact ⟨_, _, _, exec_open_of_room h1 hroom, exec_open_of_room h2 (fun hfull => hpresent hfull.1), exec_close port _,
    rfl, rfl, rfl, hfirst, PortTable.handler_register_same _ port h2, PortTable.handler_remove_same _ port⟩

end Sys2Proof.Proofs
end

section
/-! LAWS. The ends of every command and the fields each can write, said once (10_state.md R22;
60_exceptions.md R220, R226, R233). -/

namespace Sys2Proof.Machine

/-! ### The ends of every command -/

/-- The state in which RX looks up the destination port: the stored checksum matched and is put back, and the port
is extracted (44_ingress.md R181 steps 2e and 3). -/
def rxAccepted (s : State) : State :=
  let u := wr16 (rxRecompute s) 6 (rxRecompute s).hCsum
  setRecord u u.hSport (rd16 u 2) u.hLen u.hCsum

/-- `CommandEnd s i t`: run in `s`, the command `i` can end in `t`. One constructor for each end of 60_exceptions.md
R220, with the tests the command has passed; the faults of the spec are one. -/
inductive CommandEnd (s : State) : Instr → State → Prop
  | fault (i : Instr) {f : FaultCode} (hf : f ≠ .fNone) : CommandEnd s i (raiseFault s f)
  | nop : CommandEnd s .nop (finish s .oOk)
  | csum (hlen : 8 ≤ s.len) (hroom : s.HasSumRoom) (hbuf : s.BufferOk) :
      CommandEnd s .csum (finish (csumInplace s (addrBytes s.csSrc) (addrBytes s.csDst)) .oOk)
  | openFull {port : Half} (hid : Byte) (hfull : s.pt.handler port = none ∧ s.pt.length = s.cfg.ptCap) :
      CommandEnd s (.openPort port hid) (finish s .oOpenFail)
  | openPort {port : Half} (hid : Byte) (hroom : ¬ (s.pt.handler port = none ∧ s.pt.length = s.cfg.ptCap)) :
      CommandEnd s (.openPort port hid) (finish (setTable s (s.pt.register port hid)) .oOk)
  | closePort (port : Half) : CommandEnd s (.closePort port) (finish (setTable s (s.pt.remove port)) .oOk)
  | lookup (port : Half) :
      CommandEnd s (.lookup port) (finish (setLkResult s (lookupWord (s.pt.handler port))) .oOk)
  | rxShort (hlen : s.len < 8) : CommandEnd s .rx (finish s .oDropShort)
  | rxCorrupt (hlen : 8 ≤ s.len) (hroom : s.HasSumRoom) (hbuf : s.BufferOk)
      (hsum : (rxRecompute s).csum ≠ (rxRecompute s).hCsum) : CommandEnd s .rx (finish (rxRecompute s) .oDropCsum)
  | rxMiss (hlen : 8 ≤ s.len) (hroom : s.HasSumRoom) (hbuf : s.BufferOk)
      (hsum : (rxRecompute s).csum = (rxRecompute s).hCsum)
      (hport : (rxAccepted s).pt.handler (rxAccepted s).hDport = none) :
      CommandEnd s .rx (rxUnreachable (rxAccepted s))
  | rxHit (hlen : 8 ≤ s.len) (hroom : s.HasSumRoom) (hbuf : s.BufferOk)
      (hsum : (rxRecompute s).csum = (rxRecompute s).hCsum) {hid : Byte}
      (hport : (rxAccepted s).pt.handler (rxAccepted s).hDport = some hid) :
      CommandEnd s .rx (rxDeliver (rxAccepted s) hid)
  | tx (hdp : 8 + s.cfg.ipHdrSize ≤ s.dp) (hpad : ¬ s.lacksPadRoom) (hbuf : s.BufferOk) :
      CommandEnd s .tx (txSend (txChecksum (txPopulate s)))
  | bufinit {n : Half} (hroom : s.cfg.bufHeadroom + n.toNat ≤ s.cfg.bufCap) :
      CommandEnd s (.bufinit n) (finish (setWindow s s.cfg.bufHeadroom n.toNat) .oOk)
  | push {n : Half} (hroom : n.toNat ≤ s.dp) : CommandEnd s (.push n) (finish (bufPush s n.toNat) .oOk)
  | pop {n : Half} (hroom : n.toNat ≤ s.len) : CommandEnd s (.pop n) (finish (bufPop s n.toNat) .oOk)
  | padd {n : Half} (hroom : s.dp + s.len + n.toNat ≤ s.cfg.bufCap) :
      CommandEnd s (.padd n) (finish (padAdd s n.toNat) .oOk)
  | padr {n : Half} (hroom : n.toNat ≤ s.len) : CommandEnd s (.padr n) (finish (padRemove s n.toNat) .oOk)
  | hdrrd (hlen : 8 ≤ s.len) (hbuf : s.BufferOk) : CommandEnd s .hdrrd (finish (hdrRead s) .oOk)
  | hdrwr (hlen : 8 ≤ s.len) (hbuf : s.BufferOk) : CommandEnd s .hdrwr (finish (hdrWrite s) .oOk)

/-- A next state past a test is the test's end, or comes after it. -/
theorem guard_next {c : Prop} [Decidable c] {u t : State} {r : Result} (h : (if c then .next u else r) = .next t) :
    (c ∧ t = u) ∨ (¬ c ∧ r = .next t) := by
  split at h
  · cases h
    exact .inl ⟨‹c›, rfl⟩
  · exact .inr ⟨‹¬ c›, h⟩

/-- A command that answers a next state past the buffer test found its packet inside `MEM`. -/
theorem withBuffer_next {s t : State} {k : State → Result} (h : withBuffer s k = .next t) :
    s.BufferOk ∧ k s = .next t := by
  unfold withBuffer at h
  split at h
  · exact ⟨‹_›, h⟩
  · cases h

/-- A command that needs room ends by its guard. -/
theorem RoomGuarded.commandEnd {s u t : State} {room : Prop} {i : Instr} (h : RoomGuarded s room u (exec i s))
    (hok : room → CommandEnd s i (finish u .oOk)) (ht : exec i s = .next t) : CommandEnd s i t := by
  rcases h.next_cases ht with ⟨hroom, rfl⟩ | rfl
  · exact hok hroom
  · exact .fault i (by decide)

/-- The tests of CSUM and RX for the room their checksum needs, and the buffer test (42_checksum.md R156;
44_ingress.md R189). -/
theorem sumRoom_next {s t : State} {k : State → Result}
    (h : (if s.dp < s.cfg.ipHdrSize then .next (raiseFault s .fRoom)
      else if s.lacksPadRoom then .next (raiseFault s .fRoom) else withBuffer s k) = .next t) :
    t = raiseFault s .fRoom ∨ (s.HasSumRoom ∧ s.BufferOk ∧ k s = .next t) := by
  rcases guard_next h with ⟨-, rfl⟩ | ⟨hdp, h⟩
  · exact .inl rfl
  rcases guard_next h with ⟨-, rfl⟩ | ⟨hpad, h⟩
  · exact .inl rfl
  · exact .inr ⟨⟨Nat.not_lt.mp hdp, hpad⟩, withBuffer_next h⟩

theorem execCsum_end {s t : State} (h : execCsum s = .next t) : CommandEnd s .csum t := by
  rcases guard_next h with ⟨-, rfl⟩ | ⟨hlen, h⟩
  · exact .fault _ (by decide)
  rcases sumRoom_next h with rfl | ⟨hroom, hbuf, h⟩
  · exact .fault _ (by decide)
  · cases h
    exact .csum (Nat.not_lt.mp hlen) hroom hbuf

/-- RX once the checksum is recomputed: dropped, or handed on by the port table's answer. -/
theorem rxCompare_end {s : State} (hlen : 8 ≤ s.len) (hroom : s.HasSumRoom) (hbuf : s.BufferOk) :
    CommandEnd s .rx (rxCompare (rxRecompute s)) := by
  by_cases hsum : (rxRecompute s).csum = (rxRecompute s).hCsum
  · rw [rxCompare, if_neg (not_not.mpr hsum)]
    rcases rxDispatch_cases (wr16 (rxRecompute s) 6 (rxRecompute s).hCsum) with ⟨hport, heq⟩ | ⟨hid, hport, heq⟩
    · rw [heq]
      exact .rxMiss hlen hroom hbuf hsum hport
    · rw [heq]
      exact .rxHit hlen hroom hbuf hsum hport
  · rw [rxCompare, if_pos hsum]
    exact .rxCorrupt hlen hroom hbuf hsum

theorem execRx_end {s t : State} (h : execRx s = .next t) : CommandEnd s .rx t := by
  rcases guard_next h with ⟨hlen, rfl⟩ | ⟨hlen, h⟩
  · exact .rxShort hlen
  rcases sumRoom_next h with rfl | ⟨hroom, hbuf, h⟩
  · exact .fault _ (by decide)
  · cases h
    exact rxCompare_end (Nat.not_lt.mp hlen) hroom hbuf

theorem execTx_end {s t : State} (h : execTx s = .next t) : CommandEnd s .tx t := by
  rcases guard_next h with ⟨-, rfl⟩ | ⟨hdp, h⟩
  · exact .fault _ (by decide)
  rcases guard_next h with ⟨-, rfl⟩ | ⟨hpad, h⟩
  · exact .fault _ (by decide)
  · obtain ⟨hbuf, h⟩ := withBuffer_next h
    cases h
    exact .tx (Nat.not_lt.mp hdp) hpad hbuf

theorem execOpen_end {s t : State} {port : Half} {hid : Byte} (h : execOpen port hid s = .next t) :
    CommandEnd s (.openPort port hid) t := by
  rcases guard_next h with ⟨hfull, rfl⟩ | ⟨hroom, h⟩
  · exact .openFull hid hfull
  · cases h
    exact .openPort hid hroom

/-- The two tests of HDRRD and HDRWR (41_header_ops.md R141, R142). -/
theorem header_next {s t : State} {k : State → Result}
    (h : (if s.len < 8 then .next (raiseFault s .fShort) else withBuffer s k) = .next t) :
    t = raiseFault s .fShort ∨ (8 ≤ s.len ∧ s.BufferOk ∧ k s = .next t) := by
  rcases guard_next h with ⟨-, rfl⟩ | ⟨hlen, h⟩
  · exact .inl rfl
  · exact .inr ⟨Nat.not_lt.mp hlen, withBuffer_next h⟩

theorem execHdrrd_end {s t : State} (h : execHdrrd s = .next t) : CommandEnd s .hdrrd t := by
  rcases header_next h with rfl | ⟨hlen, hbuf, h⟩
  · exact .fault _ (by decide)
  · cases h
    exact .hdrrd hlen hbuf

theorem execHdrwr_end {s t : State} (h : execHdrwr s = .next t) : CommandEnd s .hdrwr t := by
  rcases header_next h with rfl | ⟨hlen, hbuf, h⟩
  · exact .fault _ (by decide)
  · cases h
    exact .hdrwr hlen hbuf

/-- Every next state of a command is one of its ends. -/
theorem exec_end {i : Instr} {s t : State} (h : exec i s = .next t) : CommandEnd s i t := by
  cases i with
  | nop => cases h; exact .nop
  | csum => exact execCsum_end h
  | openPort port hid => exact execOpen_end h
  | closePort port => cases h; exact .closePort port
  | lookup port => cases h; exact .lookup port
  | rx => exact execRx_end h
  | tx => exact execTx_end h
  | bufinit n => exact (exec_bufinit n s).commandEnd .bufinit h
  | push n => exact (exec_push n s).commandEnd .push h
  | pop n => exact (exec_pop n s).commandEnd .pop h
  | padd n => exact (exec_padd n s).commandEnd .padd h
  | padr n => exact (exec_padr n s).commandEnd .padr h
  | hdrrd => exact execHdrrd_end h
  | hdrwr => exact execHdrwr_end h

/-! ### The fields a command can write -/

/-- `s` with the fields the command `i` can write taken from `u`: the "written by" column of 10_state.md R22, with
`MEM`, `ACC`, `SAVE`, `PT` and the trace. Every command writes `STATUS`, and none writes `PADDED`. -/
def commandWrites (i : Instr) (s u : State) : State :=
  let s := { s with cmd := u.cmd, outcome := u.outcome, fault := u.fault }
  match i with
  | .nop => s
  | .csum => { s with csum := u.csum, acc := u.acc, save := u.save, mem := u.mem }
  | .openPort _ _ | .closePort _ => { s with pt := u.pt }
  | .lookup _ => { s with lkResult := u.lkResult }
  | .rx =>
    { s with
      csum := u.csum, acc := u.acc, save := u.save, mem := u.mem, hSport := u.hSport, hDport := u.hDport
      hCsum := u.hCsum, dp := u.dp, len := u.len, trace := u.trace }
  | .tx =>
    { s with
      csum := u.csum, acc := u.acc, save := u.save, mem := u.mem, hSport := u.hSport, hDport := u.hDport
      hLen := u.hLen, hCsum := u.hCsum, dp := u.dp, len := u.len, trace := u.trace }
  | .bufinit _ | .push _ | .pop _ => { s with dp := u.dp, len := u.len }
  | .padd _ => { s with len := u.len, mem := u.mem }
  | .padr _ => { s with len := u.len }
  | .hdrrd => { s with hSport := u.hSport, hDport := u.hDport, hLen := u.hLen, hCsum := u.hCsum }
  | .hdrwr => { s with mem := u.mem }

/-- A fault writes `STATUS` only, which every command can write (60_exceptions.md R233). -/
theorem raiseFault_eq_commandWrites (i : Instr) (s : State) (f : FaultCode) :
    raiseFault s f = commandWrites i s (raiseFault s f) := by
  cases i <;> rfl

theorem csumInplace_commandWrites {s : State} {src dst : List Byte} (h12 : 12 ≤ s.cfg.ipHdrSize)
    (hdp : s.cfg.ipHdrSize ≤ s.dp) (hpadded : s.padded = false) (hsrc : src.length = 4) (hdst : dst.length = 4) :
    ∃ u, csumInplace s src dst = commandWrites .csum s u := by
  refine ⟨csumInplace s src dst, ?_⟩
  rw [csumInplace_eq s src dst h12 hdp hpadded hsrc hdst]
  rfl

/-- Up to the comparison of the checksums RX has written only fields it can write. -/
theorem rxRecompute_commandWrites {s : State} (h12 : 12 ≤ s.cfg.ipHdrSize) (hdp : s.cfg.ipHdrSize ≤ s.dp)
    (hpadded : s.padded = false) (hlen : 8 ≤ s.len) : ∃ u, rxRecompute s = commandWrites .rx s u := by
  refine ⟨rxRecompute s, ?_⟩
  rw [rxRecompute_eq s h12 hdp hpadded hlen]
  rfl

/-- So it has when it looks up the destination port. -/
theorem rxAccepted_commandWrites {s : State} (h12 : 12 ≤ s.cfg.ipHdrSize) (hdp : s.cfg.ipHdrSize ≤ s.dp)
    (hpadded : s.padded = false) (hlen : 8 ≤ s.len) : ∃ u, rxAccepted s = commandWrites .rx s u := by
  obtain ⟨u, hu⟩ := rxRecompute_commandWrites h12 hdp hpadded hlen
  refine ⟨rxAccepted s, ?_⟩
  rw [rxAccepted, hu]
  rfl

/-- A command changes no field but those of its row in `commandWrites`. -/
theorem CommandEnd.eq_commandWrites {i : Instr} {s t : State} (h : CommandEnd s i t) (h12 : 12 ≤ s.cfg.ipHdrSize)
    (hpadded : s.padded = false) : t = commandWrites i s t := by
  cases h with
  | fault => exact raiseFault_eq_commandWrites i s _
  | csum _ hroom _ =>
    obtain ⟨u, hu⟩ := csumInplace_commandWrites h12 hroom.1 hpadded (length_addrBytes s.csSrc)
      (length_addrBytes s.csDst)
    rw [hu]
    rfl
  | rxCorrupt hlen hroom _ _ =>
    obtain ⟨u, hu⟩ := rxRecompute_commandWrites h12 hroom.1 hpadded hlen
    rw [hu]
    rfl
  | rxMiss hlen hroom _ _ _ =>
    obtain ⟨u, hu⟩ := rxAccepted_commandWrites h12 hroom.1 hpadded hlen
    rw [hu]
    rfl
  | rxHit hlen hroom _ _ _ =>
    obtain ⟨u, hu⟩ := rxAccepted_commandWrites h12 hroom.1 hpadded hlen
    rw [hu]
    rfl
  | tx hdp _ _ =>
    rw [txChecksum_eq s h12 hdp hpadded]
    rfl
  | hdrwr _ _ =>
    rw [hdrWrite_eq]
    rfl
  | _ => rfl

theorem exec_eq_commandWrites {i : Instr} {s t : State} (hvalid : s.cfg.Valid) (hpadded : s.padded = false)
    (h : exec i s = .next t) : t = commandWrites i s t :=
  (exec_end h).eq_commandWrites hvalid.1 hpadded

end Sys2Proof.Machine
end

section
/-! PROOFS. The statement about the registers each command can write (10_state.md R22). -/

namespace Sys2Proof.Proofs

open Sys2Proof Sys2Proof.Machine

/-- Settles O52: a command takes from its end state only the fields of its row in `commandWrites`, and every clause
can be read off that table. -/
theorem registersWrittenBy : Obligations.RegistersWrittenBy := by
  intro i s t hvalid hpadded hexec
  obtain ⟨u, rfl⟩ : ∃ u, t = commandWrites i s u := ⟨t, exec_eq_commandWrites hvalid hpadded hexec⟩
  cases i <;> simp [commandWrites, hpadded]

end Sys2Proof.Proofs
end

section
/-! LAWS. Every operation keeps the invariant `State.Inv`: the named updates of the state, the primitives over the
packet, every end of a command, every host action (10_state.md R32 to R43; 43_port_registry.md R174). -/

namespace Sys2Proof.Machine

/-! ### Updates of the state -/

theorem inv_setMem {s : State} (h : s.Inv) {m : Memory} (hm : m.wf = true ∧ m.within s.cfg.bufCap = true) :
    (setMem s m).Inv := by
  obtain ⟨hvalid, hbuf, -, hrest⟩ := h
  exact ⟨hvalid, hbuf, hm, hrest⟩

theorem inv_setRecord {s : State} (h : s.Inv) (sport dport len csum : Half) : (setRecord s sport dport len csum).Inv :=
  h

theorem inv_setTable {s : State} (h : s.Inv) {t : PortTable} (ht : t.wf = true ∧ t.length ≤ s.cfg.ptCap) :
    (setTable s t).Inv := by
  obtain ⟨hvalid, hbuf, hmem, -, hrest⟩ := h
  exact ⟨hvalid, hbuf, hmem, ht, hrest⟩

/-- The word of an answer of the table has its reserved bits 0 (10_state.md R32). -/
theorem lookupWord_ok (answer : Option Byte) : (lookupWord answer).extractLsb' 8 23 = 0#23 ∧
    ((lookupWord answer).extractLsb' 31 1 = 0#1 → lookupWord answer = 0x00000000#32) := by
  cases answer with
  | none => exact ⟨by decide, fun _ => rfl⟩
  | some hid =>
    have hlt := hid.isLt
    have hword : (lookupWord (some hid)).toNat = 2 ^ 31 + hid.toNat := by
      rw [lookupWord, append_toNat, append_toNat]
      rfl
    constructor
    · refine BitVec.eq_of_toNat_eq ?_
      rw [field_toNat, hword, BitVec.toNat_ofNat]
      omega
    · intro hhit
      have hbit := congrArg BitVec.toNat hhit
      rw [field_toNat, hword, BitVec.toNat_ofNat] at hbit
      omega

theorem inv_setLkResult {s : State} (h : s.Inv) (answer : Option Byte) : (setLkResult s (lookupWord answer)).Inv := by
  obtain ⟨hvalid, hbuf, hmem, htable, hcells, hstatus, -, hrest⟩ := h
  exact ⟨hvalid, hbuf, hmem, htable, hcells, hstatus, lookupWord_ok answer, hrest⟩

theorem inv_emit {s : State} (h : s.Inv) {e : Event} (he : e.ok s.cfg = true) : (emit s e).Inv := by
  obtain ⟨hvalid, hbuf, hmem, htable, hcells, hstatus, hlk, htrace, hhost⟩ := h
  have htrace' : (s.trace ++ [e]).all (Event.ok s.cfg) = true := by
    rw [List.all_append, htrace, List.all_cons, he]
    rfl
  exact ⟨hvalid, hbuf, hmem, htable, hcells, hstatus, hlk, htrace', hhost⟩

theorem inv_finish {s : State} (h : s.Inv) {o : OutcomeCode} (ho : o ≠ .oFault) : (finish s o).Inv := by
  obtain ⟨hvalid, hbuf, hmem, htable, hcells, -, hrest⟩ := h
  exact ⟨hvalid, hbuf, hmem, htable, hcells, iff_of_true rfl ho, hrest⟩

theorem inv_raiseFault {s : State} (h : s.Inv) {f : FaultCode} (hf : f ≠ .fNone) : (raiseFault s f).Inv := by
  obtain ⟨hvalid, hbuf, hmem, htable, hcells, -, hrest⟩ := h
  exact ⟨hvalid, hbuf, hmem, htable, hcells, iff_of_false hf (not_not.mpr rfl), hrest⟩

/-! ### The packet -/

theorem inv_setWindow {s : State} (h : s.Inv) {dp len : Nat} (hbuf : dp + len ≤ s.cfg.bufCap) :
    (setWindow s dp len).Inv := by
  obtain ⟨hvalid, -, hrest⟩ := h
  exact ⟨hvalid, hbuf, hrest⟩

theorem inv_bufPush {s : State} (h : s.Inv) {n : Nat} (hn : n ≤ s.dp) : (bufPush s n).Inv :=
  inv_setWindow h (bufferOk_bufPush h.2.1 hn)

theorem inv_bufPop {s : State} (h : s.Inv) {n : Nat} (hn : n ≤ s.len) : (bufPop s n).Inv :=
  inv_setWindow h (bufferOk_bufPop h.2.1 hn)

theorem inv_padRemove {s : State} (h : s.Inv) (n : Nat) : (padRemove s n).Inv :=
  inv_setWindow h (bufferOk_padRemove h.2.1 n)

/-- Bytes written inside `MEM` keep its form. -/
theorem inv_writeBytes {s : State} (h : s.Inv) {a : Nat} {l : List Byte} (ha : a + l.length ≤ s.cfg.bufCap) :
    (setMem s (s.mem.writeBytes a l)).Inv := by
  have ⟨_, _, ⟨hwf, hwithin⟩, _⟩ := h
  exact inv_setMem h ⟨Memory.writeBytes_wf hwf a l, Memory.writeBytes_within hwithin l ha⟩

theorem inv_padAdd {s : State} (h : s.Inv) {n : Nat} (hn : s.dp + s.len + n ≤ s.cfg.bufCap) : (padAdd s n).Inv :=
  inv_setWindow (inv_writeBytes h (by rwa [List.length_replicate])) (bufferOk_padAdd hn)

theorem inv_wr16 {s : State} (h : s.Inv) {o : Nat} (ho : o + 2 ≤ s.len) (v : Half) : (wr16 s o v).Inv := by
  have ⟨_, hbuf, hmem, _⟩ := h
  exact inv_setMem h (wr16_mem s o v hmem (by omega))

theorem inv_hdrWrite {s : State} (h : s.Inv) (hlen : 8 ≤ s.len) : (hdrWrite s).Inv := by
  have ⟨_, hbuf, _⟩ := h
  rw [hdrWrite_eq]
  refine inv_writeBytes h ?_
  rw [length_headerBytes]
  omega

/-! ### The in-place checksum -/

theorem inv_csumInplace {s : State} {src dst : List Byte} (h : s.Inv) (hroom : s.HasSumRoom) (hsrc : src.length = 4)
    (hdst : dst.length = 4) : (csumInplace s src dst).Inv := by
  obtain ⟨hvalid, hbuf, ⟨hwf, hwithin⟩, htable, ⟨hpadded, -⟩, hrest⟩ := h
  obtain ⟨hdp, hpad⟩ := hroom
  have hodd : s.len % 2 = 1 → s.dp + s.len + 1 ≤ s.cfg.bufCap := fun h1 => not_lt.mp fun h2 => hpad ⟨h1, h2⟩
  rw [csumInplace_eq s src dst hvalid.1 hdp hpadded hsrc hdst]
  exact ⟨hvalid, hbuf, ⟨csumMemAfter_wf s src dst hwf,
    csumMemAfter_within s src dst _ hwithin (hvalid.1.trans hdp) hsrc hdst hbuf hodd⟩, htable,
    ⟨hpadded, Memory.length_readBytes _ _ _⟩, hrest⟩

/-! ### RX -/

theorem inv_rxRecompute {s : State} (h : s.Inv) (hroom : s.HasSumRoom) (hlen : 8 ≤ s.len) : (rxRecompute s).Inv :=
  inv_csumInplace (inv_wr16 (inv_setRecord h _ _ _ _) hlen _) hroom (length_addrBytes _) (length_addrBytes _)

/-- RX has the packet window and the parameters of its start when it looks up the destination port. -/
theorem rxAccepted_window {s : State} (h : s.Inv) (hroom : s.HasSumRoom) (hlen : 8 ≤ s.len) :
    (rxAccepted s).dp = s.dp ∧ (rxAccepted s).len = s.len ∧ (rxAccepted s).cfg = s.cfg := by
  obtain ⟨hvalid, -, -, -, ⟨hpadded, -⟩, -⟩ := h
  rw [rxAccepted, rxRecompute_eq s hvalid.1 hroom.1 hpadded hlen]
  exact ⟨rfl, rfl, rfl⟩

theorem inv_rxAccepted {s : State} (h : s.Inv) (hroom : s.HasSumRoom) (hlen : 8 ≤ s.len) : (rxAccepted s).Inv := by
  have hwindow : (rxAccepted s).len = s.len := (rxAccepted_window h hroom hlen).2.1
  have hlen' : 8 ≤ (rxRecompute s).len := hlen.trans_eq hwindow.symm
  exact inv_setRecord (inv_wr16 (inv_rxRecompute h hroom hlen) hlen' _) _ _ _ _

theorem inv_rxUnreachable {s : State} (h : s.Inv) (hdp : s.cfg.ipHdrSize ≤ s.dp) (hlen : 8 ≤ s.len) :
    (rxUnreachable s).Inv := by
  refine inv_finish (inv_emit (inv_bufPush h hdp) ?_) (by decide)
  simp only [Event.ok, length_data, length_addrBytes, bufPush_cfg, bufPush_len, Bool.and_eq_true, decide_eq_true_eq,
    beq_iff_eq, and_true]
  omega

theorem inv_rxDeliver {s : State} (h : s.Inv) (hlen : 8 ≤ s.len) (hid : Byte) : (rxDeliver s hid).Inv := by
  refine inv_finish (inv_emit (inv_bufPop (inv_setRecord h _ _ _ _) hlen) ?_) (by decide)
  simp [Event.ok]

/-! ### TX -/

theorem inv_txPopulate {s : State} (h : s.Inv) (hdp : 8 ≤ s.dp) : (txPopulate s).Inv :=
  inv_hdrWrite (inv_setRecord (inv_bufPush h hdp) _ _ _ _) (Nat.le_add_left 8 s.len)

/-- What TX hands over keeps the invariant: of the fields it speaks of, only `SAVE`, `MEM` and the packet window
are new. -/
theorem inv_txChecksum {s : State} (h : s.Inv) (hdp : 8 + s.cfg.ipHdrSize ≤ s.dp) (hpad : ¬ s.lacksPadRoom) :
    (txChecksum (txPopulate s)).Inv := by
  obtain ⟨hvalid, hbuf, hmem, htable, ⟨hpadded, -⟩, hrest⟩ := h
  have hmem' := txChecksum_mem s hvalid.1 hdp hpad hbuf hmem hpadded
  have hbuf' : s.dp - 8 + (s.len + 8) ≤ s.cfg.bufCap := by omega
  rw [txChecksum_eq s hvalid.1 hdp hpadded] at hmem' ⊢
  exact ⟨hvalid, hbuf', hmem', htable, ⟨hpadded, Memory.length_readBytes _ _ _⟩, hrest⟩

/-- The `total_length` field of the packet TX hands over is its length (45_egress.md R202). -/
theorem totalLength_txHeader (s : State) (payload : List Byte) : be16 ((txHeader s ++ payload).getD 4 0x00#8)
    ((txHeader s ++ payload).getD 5 0x00#8) = BitVec.ofNat 16 (s.len + 8) :=
  be16_hi8_lo8 _

theorem inv_txSend {s : State} (h : s.Inv) (hdp : 8 + s.cfg.ipHdrSize ≤ s.dp) (hpad : ¬ s.lacksPadRoom) :
    (txSend (txChecksum (txPopulate s))).Inv := by
  refine inv_finish (inv_emit (inv_txChecksum h hdp hpad) ?_) (by decide)
  obtain ⟨⟨h12, -, -, hcap, -⟩, hbuf, -, -, ⟨hpadded, -⟩, -⟩ := h
  have hcfg : (txChecksum (txPopulate s)).cfg = s.cfg := by rw [txChecksum_eq s h12 hdp hpadded]
  have hfits : (s.len + 8) % 65536 = s.len + 8 := Nat.mod_eq_of_lt (by omega)
  rw [data_txChecksum s h12 hdp hpadded, hcfg]
  simp only [Event.ok, totalLength_txHeader, List.length_append, length_txHeader, length_data, length_addrBytes,
    BitVec.toNat_ofNat, Bool.and_eq_true, decide_eq_true_eq, beq_iff_eq, and_true]
  omega

/-! ### Every command -/

/-- Every end of a command keeps the invariant. -/
theorem CommandEnd.inv {i : Instr} {s t : State} (hend : CommandEnd s i t) (h : s.Inv) : t.Inv := by
  have ok : ∀ {u : State}, u.Inv → (finish u .oOk).Inv := fun hu => inv_finish hu (by decide)
  have ⟨_, _, _, ⟨htwf, htlen⟩, _⟩ := h
  cases hend with
  | fault _ hf => exact inv_raiseFault h hf
  | nop => exact ok h
  | csum _ hroom _ => exact ok (inv_csumInplace h hroom (length_addrBytes _) (length_addrBytes _))
  | openFull _ _ => exact inv_finish h (by decide)
  | openPort hid hroom =>
    exact ok (inv_setTable h ⟨PortTable.register_wf htwf _ hid, PortTable.length_register_le hid htwf htlen hroom⟩)
  | closePort port =>
    exact ok (inv_setTable h ⟨PortTable.remove_wf htwf port, (s.pt.length_remove_le port).trans htlen⟩)
  | lookup port => exact ok (inv_setLkResult h _)
  | rxShort _ => exact inv_finish h (by decide)
  | rxCorrupt hlen hroom _ _ => exact inv_finish (inv_rxRecompute h hroom hlen) (by decide)
  | rxMiss hlen hroom _ _ _ =>
    obtain ⟨hdp', hlen', hcfg'⟩ := rxAccepted_window h hroom hlen
    refine inv_rxUnreachable (inv_rxAccepted h hroom hlen) ?_ (hlen.trans_eq hlen'.symm)
    rw [hcfg', hdp']
    exact hroom.1
  | rxHit hlen hroom _ _ _ =>
    have hlen' := (rxAccepted_window h hroom hlen).2.1
    exact inv_rxDeliver (inv_rxAccepted h hroom hlen) (hlen.trans_eq hlen'.symm) _
  | tx hdp hpad _ => exact inv_txSend h hdp hpad
  | bufinit hroom => exact ok (inv_setWindow h hroom)
  | push hroom => exact ok (inv_bufPush h hroom)
  | pop hroom => exact ok (inv_bufPop h hroom)
  | padd hroom => exact ok (inv_padAdd h hroom)
  | padr _ => exact ok (inv_padRemove h _)
  | hdrrd _ _ => exact ok (inv_setRecord h _ _ _ _)
  | hdrwr hlen _ => exact ok (inv_hdrWrite h hlen)

/-- No command writes the parameters. -/
theorem commandWrites_cfg (i : Instr) (s u : State) : (commandWrites i s u).cfg = s.cfg := by
  cases i <;> rfl

theorem exec_keeps {i : Instr} {s t : State} (h : s.Inv) (ht : exec i s = .next t) : t.Inv ∧ t.cfg = s.cfg := by
  have ⟨hvalid, _, _, _, ⟨hpadded, _⟩, _⟩ := h
  have hcfg := commandWrites_cfg i s t
  rw [← exec_eq_commandWrites hvalid hpadded ht] at hcfg
  exact ⟨(exec_end ht).inv h, hcfg⟩

theorem runCommand_keeps {w : Word} {s t : State} (h : s.Inv) (ht : runCommand w s = .next t) :
    t.Inv ∧ t.cfg = s.cfg := by
  cases hd : decode w with
  | command i => exact exec_keeps h ((runCommand_command hd s).symm.trans ht)
  | illegal why =>
    cases (runCommand_illegal hd s).symm.trans ht
    exact ⟨inv_raiseFault h (by decide), rfl⟩

/-! ### Reset and the host's actions -/

theorem inv_resetWith {p : Params} {mem0 : Memory} (acc0 : Half) {save0 : List Byte} (hvalid : p.Valid)
    (hmem : mem0.wf = true ∧ mem0.within p.bufCap = true) (hsave : save0.length = 12) :
    (State.resetWith p mem0 acc0 save0).Inv := by
  have ⟨_, _, hroom, _⟩ := hvalid
  exact ⟨hvalid, hroom, hmem, ⟨rfl, Nat.zero_le _⟩, ⟨rfl, hsave⟩, iff_of_true rfl nofun, lookupWord_ok none, rfl,
    rfl⟩

/-- A reset keeps the host's actions to come, and so their form. -/
theorem inv_applyReset {s : State} (h : s.Inv) {mem : Memory} (hmem : mem.wf = true ∧ mem.within s.cfg.bufCap = true)
    (acc : Half) {save : List Byte} (hsave : save.length = 12) : (applyReset s mem acc save).Inv := by
  obtain ⟨hvalid, -, -, -, -, -, -, -, hhost⟩ := h
  obtain ⟨-, hbuf, -, htable, hcells, hstatus, hlk, htrace, -⟩ := inv_resetWith acc hvalid hmem hsave
  exact ⟨hvalid, hbuf, hmem, htable, hcells, hstatus, hlk, htrace, hhost⟩

/-- Taking an action of a list of host actions in their form leaves a list in that form. -/
theorem inv_takeAction {s : State} (h : s.Inv) {a : HostAction} {rest : List HostAction} (hs : s.host = a :: rest) :
    a.ok s.cfg = true ∧ (takeAction s rest).Inv := by
  obtain ⟨hvalid, hbuf, hmem, htable, hcells, hstatus, hlk, htrace, hhost⟩ := h
  rw [State.HostOk, hs, List.all_cons, Bool.and_eq_true] at hhost
  exact ⟨hhost.1, hvalid, hbuf, hmem, htable, hcells, hstatus, hlk, htrace, hhost.2⟩

theorem inv_reply {s : State} (h : s.Inv) (v : Word) : (reply s v).Inv := h

/-- The invariant speaks of no register that the host can write. -/
theorem writeReg_keeps {s : State} (h : s.Inv) (r : Reg) (v : Word) :
    (writeReg s r v).Inv ∧ (writeReg s r v).cfg = s.cfg := by
  cases r <;> exact ⟨h, rfl⟩

theorem writeRegByte_keeps {s : State} (h : s.Inv) (r : Reg) (off : Nat) (b : Byte) :
    (writeRegByte s r off b).Inv ∧ (writeRegByte s r off b).cfg = s.cfg := by
  rcases writeRegByte_cases s r off b with ⟨-, heq⟩ | ⟨-, heq⟩
  · rw [heq]
    exact ⟨h, rfl⟩
  · rw [heq]
    exact writeReg_keeps h r _

theorem inv_writeByte {s : State} (h : s.Inv) {i : Nat} (hi : i < s.cfg.bufCap) (b : Byte) :
    (setMem s (s.mem.writeByte i b)).Inv := by
  have ⟨_, _, ⟨hwf, hwithin⟩, _⟩ := h
  exact inv_setMem h ⟨Memory.writeByte_wf hwf i b, Memory.writeByte_within hwithin hi b⟩

theorem inv_writeWide {s : State} (h : s.Inv) {i : Nat} (hi : i < s.cfg.bufCap) (v : Word) : (writeWide s i v).Inv := by
  have ⟨_, _, ⟨hwf, hwithin⟩, _⟩ := h
  exact inv_setMem h (writeWide_mem_ok hi hwf hwithin v)

theorem hostWriteWord_keeps {s t : State} {off : Nat} {v : Word} (h : s.Inv) (ht : hostWriteWord s off v = .next t) :
    t.Inv ∧ t.cfg = s.cfg := by
  unfold hostWriteWord at ht
  split at ht <;> cases ht
  case h_1 r _ => exact writeReg_keeps h r v
  case h_4 i hi => exact ⟨inv_writeWide h (targetAt_bufferByte hi).1 v, rfl⟩
  all_goals exact ⟨h, rfl⟩

theorem hostWriteByte_keeps {s t : State} {off : Nat} {b : Byte} (h : s.Inv) (ht : hostWriteByte s off b = .next t) :
    t.Inv ∧ t.cfg = s.cfg := by
  unfold hostWriteByte at ht
  split at ht <;> cases ht
  case h_1 i hi => exact ⟨inv_writeByte h (targetAt_bufferByte hi).1 b, rfl⟩
  case h_2 r _ => exact writeRegByte_keeps h r off b
  all_goals exact ⟨h, rfl⟩

/-- A reset during a command brings a content `MEM` and `SAVE` can have. -/
theorem HostAction.ok_resetBusy {p : Params} {mem : Memory} {acc : Half} {save : List Byte}
    (h : (HostAction.resetBusy mem acc save).ok p = true) :
    (mem.wf = true ∧ mem.within p.bufCap = true) ∧ save.length = 12 := by
  simpa [HostAction.ok] using h

theorem hostAct_keeps {s t : State} {a : HostAction} (h : s.Inv) (ha : a.ok s.cfg = true)
    (ht : hostAct s a = .next t) : t.Inv ∧ t.cfg = s.cfg := by
  have ⟨_, _, hmem, _⟩ := h
  cases a with
  | writeWord off v => exact hostWriteWord_keeps h ht
  | writeByte off b => exact hostWriteByte_keeps h ht
  | readWord off =>
    obtain ⟨v, hv⟩ := hostReadWord_eq_reply s off
    cases hv.symm.trans ht
    exact ⟨inv_reply h v, rfl⟩
  | readByte off =>
    obtain ⟨v, hv⟩ := hostReadByte_eq_reply s off
    cases hv.symm.trans ht
    exact ⟨inv_reply h v, rfl⟩
  | writeByteDp k b =>
    rcases hostWriteDp_cases s k b with ⟨i, -, hi, hw⟩ | ⟨-, hw⟩ <;> cases hw.symm.trans ht
    · exact ⟨inv_writeByte h hi b, rfl⟩
    · exact ⟨h, rfl⟩
  | readByteDp k =>
    rcases hostReadDp_cases s k with ⟨i, -, -, hr⟩ | ⟨-, hr⟩ <;> cases hr.symm.trans ht <;>
      exact ⟨inv_reply h _, rfl⟩
  | reset acc save =>
    cases ht
    exact ⟨inv_applyReset h hmem acc (beq_iff_eq.mp ha), rfl⟩
  | resetBusy mem acc save =>
    cases ht
    exact ⟨inv_applyReset h hmem acc (HostAction.ok_resetBusy ha).2, rfl⟩
  | pollStatus =>
    cases ht
    exact ⟨inv_reply h _, rfl⟩

end Sys2Proof.Machine
end

section
/-! PROOFS. The statements about the invariant (10_state.md section 3; 43_port_registry.md R174). -/

namespace Sys2Proof.Proofs

open Sys2Proof Sys2Proof.Machine

/-- Settles O55: `State.reset` is one of the reset states, and each meets the invariant. -/
theorem resetMeetsInvariant : Obligations.ResetMeetsInvariant :=
  ⟨inv_resetWith _ (by decide) ⟨rfl, rfl⟩ rfl,
    fun _ _ acc0 _ hvalid hwf hwithin hsave => inv_resetWith acc0 hvalid ⟨hwf, hwithin⟩ hsave⟩

/-- Settles O56, by the kind of the step: a command ends in one of its ends, a reset or a read of `STATUS` lands, the
engine is idle, or the host acts. -/
theorem stepKeepsInvariant : Obligations.StepKeepsInvariant := by
  intro s t h hstep
  rcases step_cases s with ⟨w, -, -, heq⟩ | ⟨w, mem, acc, save, rest, -, hhost, heq⟩ | ⟨w, rest, -, hhost, heq⟩ |
    ⟨-, -, heq⟩ | ⟨a, rest, -, hhost, heq⟩
  case inl => exact runCommand_keeps h (heq.symm.trans hstep)
  case inr.inl =>
    obtain ⟨haction, hrest⟩ := inv_takeAction h hhost
    obtain ⟨hmem, hsave⟩ := HostAction.ok_resetBusy haction
    cases heq.symm.trans hstep
    exact ⟨inv_applyReset hrest hmem acc hsave, rfl⟩
  case inr.inr.inl =>
    cases heq.symm.trans hstep
    exact ⟨inv_reply (inv_takeAction h hhost).2 _, rfl⟩
  case inr.inr.inr.inl =>
    cases heq.symm.trans hstep
    exact ⟨h, rfl⟩
  case inr.inr.inr.inr =>
    obtain ⟨haction, hrest⟩ := inv_takeAction h hhost
    exact hostAct_keeps (s := takeAction s rest) hrest haction (heq.symm.trans hstep)

end Sys2Proof.Proofs
end

section
/-! LAWS. One byte of a packet replaced: its checksum changes (42_checksum.md R153, R162). -/

namespace Sys2Proof.Machine

/-- Folding the carries keeps the value modulo 65535. -/
theorem endAround_mod (n : Nat) : endAround n % 65535 = n % 65535 := by
  rw [endAround]
  split <;> omega

theorem wordTotal_mod_of_checksum_eq {p q : Byte} {src dst data src' dst' data' : List Byte}
    (h : checksum p src dst data = checksum q src' dst' data') :
    wordTotal (csumInput p src dst data) % 65535 = wordTotal (csumInput q src' dst' data') % 65535 := by
  have hsum : ocSum (csumInput p src dst data) = ocSum (csumInput q src' dst' data') := by
    rw [ocSum_csumInput, ocSum_csumInput, h]
  rw [← endAround_mod, ← ocSum_toNat, hsum, ocSum_toNat, endAround_mod]

/-- A replaced byte of the packet counts in the total with the weight of its index. -/
theorem wordTotal_csumInput_set (p : Byte) {src dst data : List Byte} (hsrc : src.length = 4) (hdst : dst.length = 4)
    {i : Nat} (hi : i < data.length) (x : Byte) :
    wordTotal (csumInput p src dst (data.set i x)) + byteWeight i * (data.getD i 0x00#8).toNat =
      wordTotal (csumInput p src dst data) + byteWeight i * x.toNat := by
  rw [wordTotal_csumInput p src dst _ hsrc hdst, wordTotal_csumInput p src dst _ hsrc hdst, List.length_set]
  generalize hpad : (if data.length % 2 = 1 then [0x00#8] else [] : List Byte) = pad
  have heven : (data ++ pad).length % 2 = 0 := by
    rw [← hpad, List.length_append]
    split <;> simp <;> omega
  have htotal := wordTotal_set (data ++ pad) i x heven (by rw [List.length_append]; omega)
  rw [List.set_append_left _ _ hi, List.getD_append _ _ _ _ hi] at htotal
  omega

/-- Another byte changes the total by less than 65535, so it changes the checksum. -/
theorem checksum_set_ne (p : Byte) {src dst data : List Byte} (hsrc : src.length = 4) (hdst : dst.length = 4)
    {i : Nat} (hi : i < data.length) {x : Byte} (hx : x ≠ data.getD i 0x00#8) :
    checksum p src dst (data.set i x) ≠ checksum p src dst data := by
  intro heq
  have hmod := wordTotal_mod_of_checksum_eq heq
  have hset := wordTotal_csumInput_set p hsrc hdst hi x
  have hne : x.toNat ≠ (data.getD i 0x00#8).toNat := fun h => hx (BitVec.eq_of_toNat_eq h)
  have hlt := x.isLt
  have hlt' := (data.getD i 0x00#8).isLt
  rw [byteWeight] at hset
  split at hset <;> omega

end Sys2Proof.Machine
end

section
/-! LAWS. RX with a whole header and the room (44_ingress.md R183 to R185): its state at each stage, which of its
three ends it takes, and that a replaced byte of a datagram is noticed. -/

namespace Sys2Proof.Machine

/-- The checksum RX recomputes: over the datagram with its `checksum` field zeroed, the remote address as source and
the local one as destination (44_ingress.md R183). -/
abbrev rxFresh (s : State) : Half :=
  checksum s.cfg.protoId (addrBytes s.rxRemote) (addrBytes s.localAddr) (withZeroChecksum s.data)

/-- In `s` RX passes the tests for the length and the room, and runs as R181 gives it. -/
structure RxRuns (s : State) : Prop where
  valid : s.cfg.Valid
  buf : s.BufferOk
  padded : s.padded = false
  len : 8 ≤ s.len
  room : s.HasSumRoom

/-- The state in which RX has put back a stored checksum that matched (44_ingress.md R181 step 2e). -/
def rxRestored (s : State) : State := wr16 (rxRecompute s) 6 (rxRecompute s).hCsum

theorem rd16_setRecord (s : State) (sport dport len csum : Half) (o : Nat) :
    rd16 (setRecord s sport dport len csum) o = rd16 s o := rfl

theorem rxAccepted_eq_setRecord (s : State) : rxAccepted s =
    setRecord (rxRestored s) (rxRestored s).hSport (rd16 (rxRestored s) 2) (rxRestored s).hLen (rxRestored s).hCsum := rfl

theorem rx_of_short {s : State} (h : s.len < 8) : exec .rx s = .next (finish s .oDropShort) := if_pos h

@[simp] theorem length_withZeroChecksum (l : List Byte) : (withZeroChecksum l).length = l.length := by
  simp [withZeroChecksum]

namespace RxRuns

variable {s : State} (h : RxRuns s)
include h

/-! ### The stages -/

theorem rxRecompute_eq : rxRecompute s =
    { s with
      hCsum := rd16 s 6, save := s.mem.readBytes (s.dp - 12) 12, acc := ~~~rxFresh s, csum := rxFresh s
      mem := (rxRecompute s).mem } := by
  rw [Machine.rxRecompute_eq s h.valid.1 h.room.1 h.padded h.len]

/-- The test of step 2d: the recomputed checksum is the stored one. -/
theorem rxRecompute_csum_eq_iff : (rxRecompute s).csum = (rxRecompute s).hCsum ↔ rxFresh s = rd16 s 6 := by
  rw [h.rxRecompute_eq]

theorem readByte_rxRecompute (a : Nat) : (rxRecompute s).mem.readByte a =
    if a = s.dp + 6 ∨ a = s.dp + 7 ∨ (s.len % 2 = 1 ∧ a = s.dp + s.len) then 0x00#8 else s.mem.readByte a :=
  Machine.readByte_rxRecompute s h.valid.1 h.room.1 h.padded h.len a

theorem rxRestored_eq : rxRestored s =
    { s with
      hCsum := rd16 s 6, save := s.mem.readBytes (s.dp - 12) 12, acc := ~~~rxFresh s, csum := rxFresh s
      mem := (rxRestored s).mem } := by
  rw [rxRestored, h.rxRecompute_eq]
  rfl

theorem readByte_rxRestored (a : Nat) : (rxRestored s).mem.readByte a =
    if s.len % 2 = 1 ∧ a = s.dp + s.len then 0x00#8 else s.mem.readByte a :=
  Machine.readByte_rxRestored s h.valid.1 h.room.1 h.padded h.len a

/-- Once the stored checksum is put back, `MEM` is as received up to the end of the packet. -/
theorem readBytes_rxRestored {a n : Nat} (hend : a + n ≤ s.dp + s.len) :
    (rxRestored s).mem.readBytes a n = s.mem.readBytes a n := by
  refine Memory.readBytes_congr (fun i hi => ?_)
  rw [h.readByte_rxRestored, if_neg (by omega)]

theorem rd16_rxRestored {o : Nat} (ho : o + 2 ≤ s.len) : rd16 (rxRestored s) o = rd16 s o := by
  have hdp : (rxRestored s).dp = s.dp := by rw [h.rxRestored_eq]
  rw [rd16, hdp, h.readByte_rxRestored, h.readByte_rxRestored, if_neg (by omega), if_neg (by omega), rd16]

/-- The destination port RX extracts is that of the datagram as received. -/
theorem rd16_rxRestored_dport : rd16 (rxRestored s) 2 = rd16 s 2 :=
  h.rd16_rxRestored (Nat.le_trans (by decide) h.len)

theorem rxAccepted_eq : rxAccepted s =
    { s with
      hCsum := rd16 s 6, hDport := rd16 s 2, save := s.mem.readBytes (s.dp - 12) 12, acc := ~~~rxFresh s
      csum := rxFresh s, mem := (rxRestored s).mem } := by
  rw [rxAccepted_eq_setRecord, h.rd16_rxRestored_dport, h.rxRestored_eq]
  rfl

/-! ### The ends -/

theorem rxUnreachable_eq : rxUnreachable (rxAccepted s) =
    { s with
      cmd := none, outcome := .oUnreachable, fault := .fNone
      hCsum := rd16 s 6, hDport := rd16 s 2, save := s.mem.readBytes (s.dp - 12) 12, acc := ~~~rxFresh s
      csum := rxFresh s, dp := s.dp - s.cfg.ipHdrSize, len := s.len + s.cfg.ipHdrSize
      trace := s.trace ++ [.unreach (s.mem.readBytes (s.dp - s.cfg.ipHdrSize) (s.cfg.ipHdrSize + s.len))
        (addrBytes s.rxRemote) s.cfg.unreachReason]
      mem := (rxRestored s).mem } := by
  have hdp : s.cfg.ipHdrSize ≤ s.dp := h.room.1
  have hregion := h.readBytes_rxRestored (a := s.dp - s.cfg.ipHdrSize) (n := s.cfg.ipHdrSize + s.len) (by omega)
  rw [← hregion, Nat.add_comm s.cfg.ipHdrSize, h.rxAccepted_eq]
  rfl

theorem rxDeliver_eq (hid : Byte) : rxDeliver (rxAccepted s) hid =
    { s with
      cmd := none, outcome := .oDelivered, fault := .fNone
      hCsum := rd16 s 6, hDport := rd16 s 2, hSport := rd16 s 0, save := s.mem.readBytes (s.dp - 12) 12
      acc := ~~~rxFresh s, csum := rxFresh s, dp := s.dp + 8, len := s.len - 8
      trace := s.trace ++ [.deliver hid (s.mem.readBytes (s.dp + 8) (s.len - 8)) (s.len - 8)
        (addrBytes s.rxRemote) (rd16 s 0)]
      mem := (rxRestored s).mem } := by
  have hlen := h.len
  have hpayload := h.readBytes_rxRestored (a := s.dp + 8) (n := s.len - 8) (by omega)
  have hsource : rd16 (rxAccepted s) 0 = rd16 s 0 := by
    rw [rxAccepted_eq_setRecord, rd16_setRecord, h.rd16_rxRestored (by omega)]
  rw [← hpayload, ← hsource, h.rxAccepted_eq]
  rfl

theorem exec_of_checksum_ne (hsum : rxFresh s ≠ rd16 s 6) : exec .rx s = .next (finish (rxRecompute s) .oDropCsum) := by
  refine (execRx_of_room s h.len h.room h.buf).trans ?_
  rw [rxCompare, if_pos (mt h.rxRecompute_csum_eq_iff.mp hsum)]

theorem exec_of_checksum_eq (hsum : rxFresh s = rd16 s 6) :
    (s.pt.handler (rd16 s 2) = none ∧ exec .rx s = .next (rxUnreachable (rxAccepted s))) ∨
    (∃ hid, s.pt.handler (rd16 s 2) = some hid ∧ exec .rx s = .next (rxDeliver (rxAccepted s) hid)) := by
  have hrun : exec .rx s = .next (rxDispatch (rxRestored s)) := by
    refine (execRx_of_room s h.len h.room h.buf).trans ?_
    rw [rxCompare, if_neg (not_not.mpr (h.rxRecompute_csum_eq_iff.mpr hsum)), rxRestored]
  have hlookup : (rxRestored s).pt.handler (rd16 (rxRestored s) 2) = s.pt.handler (rd16 s 2) := by
    rw [h.rd16_rxRestored_dport, h.rxRestored_eq]
  rw [hrun, ← hlookup, rxAccepted_eq_setRecord]
  rcases rxDispatch_cases (rxRestored s) with ⟨hport, heq⟩ | ⟨hid, hport, heq⟩
  · exact .inl ⟨hport, by rw [heq]⟩
  · exact .inr ⟨hid, hport, by rw [heq]⟩

end RxRuns

/-- RX hands on only a datagram whose stored checksum is the recomputed one. -/
theorem rx_accepts {s t : State} (hvalid : s.cfg.Valid) (hpadded : s.padded = false) (hexec : exec .rx s = .next t)
    (houtcome : t.outcome = .oDelivered ∨ t.outcome = .oUnreachable) : RxRuns s ∧ rxFresh s = rd16 s 6 := by
  cases exec_end hexec with
  | fault => simp at houtcome
  | rxShort => simp at houtcome
  | rxCorrupt => simp at houtcome
  | rxMiss hlen hroom hbuf hsum =>
    have h : RxRuns s := ⟨hvalid, hbuf, hpadded, hlen, hroom⟩
    exact ⟨h, h.rxRecompute_csum_eq_iff.mp hsum⟩
  | rxHit hlen hroom hbuf hsum =>
    have h : RxRuns s := ⟨hvalid, hbuf, hpadded, hlen, hroom⟩
    exact ⟨h, h.rxRecompute_csum_eq_iff.mp hsum⟩

/-! ### A byte of the datagram replaced -/

theorem flipBit_ne (b : Byte) {k : Nat} (hk : k < 8) : b ^^^ (1#8 <<< k) ≠ b := by
  have hmask : 1#8 <<< k ≠ 0#8 := by interval_cases k <;> decide
  exact fun h => hmask (xor_left_eq_self_iff.mp h)

/-- A state with one byte of its packet replaced. -/
abbrev replaceByte (s : State) (i : Nat) (x : Byte) : State := setMem s (s.mem.writeByte (s.dp + i) x)

theorem data_replaceByte {s : State} {i : Nat} (hi : i < s.len) (x : Byte) :
    (replaceByte s i x).data = s.data.set i x := by
  refine List.ext_getElem? (fun j => ?_)
  rw [List.getElem?_set, length_data, getElem?_data, getElem?_data, setMem_len, setMem_dp, setMem_mem,
    Memory.readByte_writeByte]
  by_cases hj : i = j
  · subst hj
    simp [hi]
  · simp [hj, Ne.symm hj]

theorem rd16_replaceByte_other {s : State} {i o : Nat} (hi : i ≠ o ∧ i ≠ o + 1) (x : Byte) :
    rd16 (replaceByte s i x) o = rd16 s o := by
  simp only [rd16, setMem_dp, setMem_mem]
  rw [Memory.readByte_writeByte_other _ _ (by omega), Memory.readByte_writeByte_other _ _ (by omega)]

theorem rd16_replaceByte_ne {s : State} {i o : Nat} (hi : i = o ∨ i = o + 1) {x : Byte}
    (hx : x ≠ s.mem.readByte (s.dp + i)) : rd16 (replaceByte s i x) o ≠ rd16 s o := by
  intro heq
  rcases hi with rfl | rfl
  · have hhi := congrArg hi8 heq
    simp only [rd16, hi8_be16, setMem_dp, setMem_mem, Memory.readByte_writeByte_same] at hhi
    exact hx hhi
  · have hlo := congrArg lo8 heq
    simp only [rd16, lo8_be16, setMem_dp, setMem_mem] at hlo
    rw [Nat.add_assoc, Memory.readByte_writeByte_same] at hlo
    exact hx hlo

theorem withZeroChecksum_set_field {l : List Byte} {i : Nat} (hi : i = 6 ∨ i = 7) (x : Byte) :
    withZeroChecksum (l.set i x) = withZeroChecksum l := by
  rcases hi with rfl | rfl
  · rw [withZeroChecksum, List.set_set, withZeroChecksum]
  · rw [withZeroChecksum, List.set_comm x 0x00#8 (by decide), List.set_set, withZeroChecksum]

theorem withZeroChecksum_set_other {l : List Byte} {i : Nat} (hi : i ≠ 6 ∧ i ≠ 7) (x : Byte) :
    withZeroChecksum (l.set i x) = (withZeroChecksum l).set i x := by
  rw [withZeroChecksum, List.set_comm _ _ hi.1, List.set_comm _ _ hi.2, withZeroChecksum]

theorem getD_withZeroChecksum_data {s : State} {i : Nat} (hi : i < s.len) (hfield : i ≠ 6 ∧ i ≠ 7) :
    (withZeroChecksum s.data).getD i 0x00#8 = s.mem.readByte (s.dp + i) := by
  rw [withZeroChecksum, List.getD_eq_getElem?_getD, List.getElem?_set_ne hfield.2.symm,
    List.getElem?_set_ne hfield.1.symm, getElem?_data, if_pos hi, Option.getD_some]

/-- Another byte in the `checksum` field changes the stored checksum and not the recomputed one; anywhere else it
changes the recomputed one and not the stored one. Either way they differ if they did not before (44_ingress.md
R188). -/
theorem rxFresh_replaceByte_ne {s : State} (hsum : rxFresh s = rd16 s 6) {i : Nat} (hi : i < s.len) {x : Byte}
    (hx : x ≠ s.mem.readByte (s.dp + i)) : rxFresh (replaceByte s i x) ≠ rd16 (replaceByte s i x) 6 := by
  have hfresh : rxFresh (replaceByte s i x) = checksum s.cfg.protoId (addrBytes s.rxRemote) (addrBytes s.localAddr)
      (withZeroChecksum (s.data.set i x)) := by
    rw [rxFresh, data_replaceByte hi, setMem_cfg, setMem_rxRemote, setMem_localAddr]
  by_cases hfield : i = 6 ∨ i = 7
  · rw [hfresh, withZeroChecksum_set_field hfield]
    exact fun heq => rd16_replaceByte_ne hfield hx (heq.symm.trans hsum)
  · rw [not_or] at hfield
    rw [hfresh, withZeroChecksum_set_other hfield, rd16_replaceByte_other hfield, ← hsum]
    refine checksum_set_ne _ rfl rfl ?_ ?_
    · rw [length_withZeroChecksum, length_data]
      exact hi
    · rw [getD_withZeroChecksum_data hi hfield]
      exact hx

end Sys2Proof.Machine
end

section
/-! PROOFS. The statements about RX (44_ingress.md). -/

namespace Sys2Proof.Proofs

open Sys2Proof Sys2Proof.Machine

/-- Settles O39: the length test comes first. -/
theorem rxDropsShort : Obligations.RxDropsShort := fun _ hlen => rx_of_short hlen

/-- Settles O40: RX compares `rxFresh` with the stored checksum. It is never 0xFFFF (42_checksum.md R159), so a stored
0xFFFF differs; a datagram whose checksum matches is handed on with its bytes put back. -/
theorem rxDropsCorrupt : Obligations.RxDropsCorrupt := by
  intro s hvalid hbuf hpadded hlen hroom
  have h : RxRuns s := ⟨hvalid, hbuf, hpadded, hlen, hroom⟩
  refine ⟨fun hsum => ⟨_, h.exec_of_checksum_ne hsum, ?_, h.readByte_rxRecompute⟩, fun hstored hsum => ?_, fun hsum => ?_⟩
  · rw [h.rxRecompute_eq]
    rfl
  · have hmax : s.len ≤ 65535 := by
      have hcap : s.dp + s.len ≤ s.cfg.bufCap := hbuf
      omega
    have hlength : (withZeroChecksum s.data).length = s.len := by rw [length_withZeroChecksum, length_data]
    exact (checksumNeverAllOnes.1 _ _ _ _ rfl rfl (hlength ▸ hlen) (hlength ▸ hmax)).1 (hsum.trans hstored)
  · rcases h.exec_of_checksum_eq hsum with ⟨-, hexec⟩ | ⟨hid, -, hexec⟩
    · exact ⟨_, hexec, .inl rfl, h.readByte_rxRestored⟩
    · exact ⟨_, hexec, .inr rfl, h.readByte_rxRestored⟩

/-- Settles O41: with no handler the accepted datagram goes to `rxUnreachable`, whose region in front was not
written. -/
theorem rxMissNotifies : Obligations.RxMissNotifies := by
  intro s hvalid hbuf hpadded hlen hroom hsum hport
  have h : RxRuns s := ⟨hvalid, hbuf, hpadded, hlen, hroom⟩
  rcases h.exec_of_checksum_eq hsum with ⟨-, hexec⟩ | ⟨hid, hhit, -⟩
  · refine ⟨_, hexec, ?_, h.readByte_rxRestored⟩
    rw [h.rxUnreachable_eq, rxFresh, hsum]
  · cases hport.symm.trans hhit

/-- Settles O42: with a handler the accepted datagram goes to `rxDeliver`, and its payload and source port are as
received. -/
theorem rxHitDelivers : Obligations.RxHitDelivers := by
  intro s hid hvalid hbuf hpadded hlen hroom hsum hport
  have h : RxRuns s := ⟨hvalid, hbuf, hpadded, hlen, hroom⟩
  rcases h.exec_of_checksum_eq hsum with ⟨hmiss, -⟩ | ⟨hid', hhit, hexec⟩
  · cases hport.symm.trans hmiss
  · cases hport.symm.trans hhit
    refine ⟨_, hexec, ?_, h.readByte_rxRestored⟩
    rw [h.rxDeliver_eq, rxFresh, hsum]

/-- Settles O43: a flipped bit makes another byte, and with another byte the checksums of an accepted datagram
differ. -/
theorem corruptionIsDropped : Obligations.CorruptionIsDropped := by
  intro s t i k hvalid hbuf hpadded hi hk hexec houtcome
  have hflip := flipBit_ne (s.mem.readByte (s.dp + i)) hk
  obtain ⟨h, hsum⟩ := rx_accepts hvalid hpadded hexec houtcome
  have hne := rxFresh_replaceByte_ne hsum hi hflip
  obtain ⟨u, hu, heq, -⟩ := (rxDropsCorrupt (replaceByte s i _) hvalid hbuf hpadded h.len h.room).1 hne
  exact ⟨u, hu, by rw [heq], by rw [heq]; rfl⟩

/-- Settles O44, by the ends of RX: each end's state names the registers it writes. -/
theorem rxWritesListedRegisters : Obligations.RxWritesListedRegisters := by
  intro s t hvalid hpadded hexec
  cases exec_end hexec with
  | fault => simp
  | rxShort => simp
  | rxCorrupt hlen hroom hbuf =>
    rw [(RxRuns.mk hvalid hbuf hpadded hlen hroom).rxRecompute_eq]
    simp [finish]
  | rxMiss hlen hroom hbuf =>
    rw [(RxRuns.mk hvalid hbuf hpadded hlen hroom).rxUnreachable_eq]
    simp
  | rxHit hlen hroom hbuf =>
    rw [(RxRuns.mk hvalid hbuf hpadded hlen hroom).rxDeliver_eq]
    simp

end Sys2Proof.Proofs
end

section
/-! LAWS. TX with the room and without it (45_egress.md R201, R202, R207): its next state, the fields of the packet it
hands over, and that a receiver's checksum of that packet is the stored one. -/

namespace Sys2Proof.Machine

/-- The state in which TX ends when it has the room (45_egress.md R201). -/
def txSent (s : State) : State := txSend (txChecksum (txPopulate s))

/-- The packet TX hands over: the header it builds and the payload. -/
def txPacket (s : State) : List Byte := txHeader s ++ s.data

/-- In `s` TX passes the tests for the room, and runs as R201 gives it. -/
structure TxRuns (s : State) : Prop where
  valid : s.cfg.Valid
  buf : s.BufferOk
  padded : s.padded = false
  headroom : 8 + s.cfg.ipHdrSize ≤ s.dp
  padRoom : ¬ s.lacksPadRoom

theorem exec_tx_of_no_room {s : State} (h : s.dp < 8 + s.cfg.ipHdrSize ∨ s.lacksPadRoom) :
    exec .tx s = .next (raiseFault s .fRoom) := by
  change execTx s = _
  rw [execTx]
  by_cases hdp : s.dp < 8 + s.cfg.ipHdrSize
  · rw [if_pos hdp]
  · rw [if_neg hdp, if_pos (h.resolve_left hdp)]

/-- A next state of TX is that of a fault, or of a run with the room. -/
theorem tx_next_cases {s t : State} (hvalid : s.cfg.Valid) (hpadded : s.padded = false) (hexec : exec .tx s = .next t) :
    (∃ f, t = raiseFault s f) ∨ (TxRuns s ∧ t = txSent s) := by
  cases exec_end hexec with
  | fault => exact .inl ⟨_, rfl⟩
  | tx hdp hpad hbuf => exact .inr ⟨⟨hvalid, hbuf, hpadded, hdp, hpad⟩, rfl⟩

/-! ### The packet -/

@[simp] theorem length_txPacket (s : State) : (txPacket s).length = s.len + 8 := by
  rw [txPacket, List.length_append, length_txHeader, length_data, Nat.add_comm]

theorem totalLength_txPacket (s : State) :
    be16 ((txPacket s).getD 4 0x00#8) ((txPacket s).getD 5 0x00#8) = BitVec.ofNat 16 (s.len + 8) :=
  totalLength_txHeader s s.data

theorem checksum_txPacket (s : State) :
    be16 ((txPacket s).getD 6 0x00#8) ((txPacket s).getD 7 0x00#8) = txSum s :=
  be16_hi8_lo8 _

/-- With its `checksum` field zeroed the packet is what TX took the checksum over (45_egress.md R202 `packet0`). -/
theorem withZeroChecksum_txPacket (s : State) : withZeroChecksum (txPacket s) = txHeader0 s ++ s.data := rfl

/-- The stored checksum is the checksum of the packet with that field zero (45_egress.md R202). -/
theorem txSum_eq_checksum_txPacket (s : State) : txSum s =
    checksum s.cfg.protoId (addrBytes s.localAddr) (addrBytes s.txDaddr) (withZeroChecksum (txPacket s)) := by
  rw [withZeroChecksum_txPacket, txSum]

/-- A header field at the front of the packet is a field of `DATA`. -/
theorem rd16_eq_data {s : State} {o : Nat} (ho : o + 2 ≤ s.len) :
    rd16 s o = be16 (s.data.getD o 0x00#8) (s.data.getD (o + 1) 0x00#8) := by
  rw [List.getD_eq_getElem?_getD, List.getD_eq_getElem?_getD, getElem?_data, getElem?_data, if_pos (by omega),
    if_pos (by omega)]
  rfl

/-- RX of another unit, with the sender's addresses and protocol identifier, recomputes the stored checksum
(45_egress.md R205). -/
theorem rxFresh_of_txPacket {s r : State} (hproto : r.cfg.protoId = s.cfg.protoId) (hremote : r.rxRemote = s.localAddr)
    (hlocal : r.localAddr = s.txDaddr) (hdata : r.data = txPacket s) : rxFresh r = rd16 r 6 := by
  have hlen : r.len = s.len + 8 := by rw [← length_data, hdata, length_txPacket]
  calc rxFresh r = txSum s := by rw [rxFresh, hproto, hremote, hlocal, hdata, ← txSum_eq_checksum_txPacket]
    _ = rd16 r 6 := by rw [rd16_eq_data (by omega), hdata, checksum_txPacket]

/-! ### TX with the room -/

namespace TxRuns

variable {s : State} (h : TxRuns s)
include h

theorem exec_tx : exec .tx s = .next (txSent s) := execTx_of_room s h.headroom h.padRoom h.buf

/-- `total_length` never truncates (45_egress.md R204). -/
theorem totalLength_toNat : (BitVec.ofNat 16 (s.len + 8)).toNat = s.len + 8 := by
  obtain ⟨⟨-, -, -, hcap, -⟩, hbuf, -, hdp, -⟩ := h
  have hend : s.dp + s.len ≤ s.cfg.bufCap := hbuf
  exact Nat.mod_eq_of_lt (by omega)

theorem txSent_eq : txSent s =
    { s with
      cmd := none, outcome := .oSent, fault := .fNone
      hSport := s.txSport, hDport := s.txDport, hLen := BitVec.ofNat 16 (s.len + 8), hCsum := txSum s
      csum := txSum s, acc := ~~~txSum s, save := s.mem.readBytes (s.dp - 20) 12
      dp := s.dp - 8, len := s.len + 8
      trace := s.trace ++ [.netsend (txPacket s) (addrBytes s.txDaddr) s.cfg.protoId]
      mem := (txSent s).mem } := by
  rw [txSent, txSend, data_txChecksum s h.valid.1 h.headroom h.padded, txChecksum_eq s h.valid.1 h.headroom h.padded]
  rfl

theorem trace_txSent :
    (txSent s).trace = s.trace ++ [.netsend (txPacket s) (addrBytes s.txDaddr) s.cfg.protoId] := by
  rw [h.txSent_eq]

theorem readByte_txSent (a : Nat) : (txSent s).mem.readByte a =
    if s.dp - 8 ≤ a ∧ a < s.dp then (txHeader s).getD (a - (s.dp - 8)) 0x00#8
    else if s.len % 2 = 1 ∧ a = s.dp + s.len then 0x00#8
    else s.mem.readByte a :=
  readByte_txChecksum s h.valid.1 h.headroom h.padded a

end TxRuns

/-- With the headroom TX sends or faults by the room for the padding byte alone (45_egress.md R207). -/
theorem tx_of_headroom {s : State} (hvalid : s.cfg.Valid) (hbuf : s.BufferOk) (hpadded : s.padded = false)
    (hdp : 8 + s.cfg.ipHdrSize ≤ s.dp) :
    ∃ t, exec .tx s = .next t ∧ (¬ s.lacksPadRoom → t.outcome = .oSent) ∧
      (s.lacksPadRoom → t.outcome = .oFault ∧ t.fault = .fRoom) := by
  by_cases hpad : s.lacksPadRoom
  · exact ⟨_, exec_tx_of_no_room (.inr hpad), fun hnot => absurd hpad hnot, fun _ => ⟨rfl, rfl⟩⟩
  · exact ⟨_, (TxRuns.mk hvalid hbuf hpadded hdp hpad).exec_tx, fun _ => rfl, fun hlacks => absurd hlacks hpad⟩

/-- After a BUFINIT with the room, the padding byte has none exactly when an odd length fills `MEM` (45_egress.md
R206). -/
theorem lacksPadRoom_bufinit (s : State) (n : Half) (hroom : s.cfg.bufHeadroom + n.toNat ≤ s.cfg.bufCap) :
    (finish (setWindow s s.cfg.bufHeadroom n.toNat) .oOk).lacksPadRoom ↔
      n.toNat % 2 = 1 ∧ s.cfg.bufHeadroom + n.toNat = s.cfg.bufCap := by
  simp only [State.lacksPadRoom, finish_len, finish_dp, finish_cfg, setWindow_len, setWindow_dp, setWindow_cfg]
  omega

end Sys2Proof.Machine
end

section
/-! PROOFS. The statements about TX (45_egress.md). -/

namespace Sys2Proof.Proofs

open Sys2Proof Sys2Proof.Machine

/-- Settles O45: TX faults by its two tests for the room; past them it ends in `txSent`. -/
theorem txSendsDatagram : Obligations.TxSendsDatagram := by
  refine ⟨rfl, fun s => ⟨exec_tx_of_no_room, fun hvalid hbuf hpadded hdp hpad => ?_⟩⟩
  have h : TxRuns s := ⟨hvalid, hbuf, hpadded, hdp, hpad⟩
  exact ⟨h.totalLength_toNat, _, h.exec_tx, h.txSent_eq, h.readByte_txSent⟩

/-- Settles O46: a fault is not `O_SENT`, so TX ran with the room, and the two fields are those of `txPacket`. -/
theorem txGuarantee : Obligations.TxGuarantee := by
  intro s t hvalid _ hpadded hexec houtcome
  rcases tx_next_cases hvalid hpadded hexec with ⟨f, rfl⟩ | ⟨h, rfl⟩
  · simp at houtcome
  · refine ⟨txPacket s, h.trace_txSent, length_txPacket s, ?_, ?_⟩
    · rw [totalLength_txPacket, length_txPacket, h.totalLength_toNat]
    · rw [checksum_txPacket, txSum_eq_checksum_txPacket]

/-- Settles O47: a fault emits nothing, so the packet is `txPacket` of the sender; its receiver recomputes the stored
checksum, and then RX hands the datagram on. -/
theorem sendReceiveRoundTrip : Obligations.SendReceiveRoundTrip := by
  intro s t r packet hvalid _ hpadded hexec htrace hvalid' hbuf' hpadded' hproto hroom hdata hremote hlocal
  rcases tx_next_cases hvalid hpadded hexec with ⟨f, rfl⟩ | ⟨h, rfl⟩
  · simp at htrace
  · have hpacket : packet = txPacket s := by simpa [h.trace_txSent] using htrace.symm
    subst hpacket
    have hlen : 8 ≤ r.len := by
      rw [← length_data, hdata, length_txPacket]
      exact Nat.le_add_left 8 s.len
    have hsum := rxFresh_of_txPacket hproto hremote hlocal hdata
    obtain ⟨u, hu, houtcome, -⟩ := (rxDropsCorrupt r hvalid' hbuf' hpadded' hlen hroom).2.2 hsum
    exact ⟨u, hu, houtcome.symm⟩

/-- Settles O48: BUFINIT leaves `BUF_HEADROOM` bytes in front, enough for TX in every valid configuration, so only the
padding byte of an odd length can lack its room. -/
theorem txAfterBufinitSends : Obligations.TxAfterBufinitSends := by
  intro s n hvalid hpadded hroom
  have hlacks := lacksPadRoom_bufinit s n hroom
  obtain ⟨u, hexec, hsent, hfault⟩ := tx_of_headroom (s := finish (setWindow s s.cfg.bufHeadroom n.toNat) .oOk)
    hvalid hroom hpadded hvalid.2.1
  exact ⟨_, u, (exec_bufinit n s).ok hroom, hexec, fun hne => hsent (mt hlacks.mp hne), fun heq => hfault (hlacks.mpr heq)⟩

end Sys2Proof.Proofs
end


section
/-! LAWS. The faults of the commands (60_exceptions.md R226 to R229): which commands raise `F_SHORT`, that `F_ROOM` is
the answer to a failed test for room alone, and that an illegal word (30_encoding.md R101) does not decode. -/

namespace Sys2Proof

/-! ### Illegal words -/

/-- The mask of an opcode is that of the format its command has, and a reserved opcode has none (30_encoding.md R100,
R101, R103). -/
theorem usedBits_cases (op : BitVec 4) :
    (op ∈ formatZ.map Prod.fst ∧ usedBits op = some 0x0000000F#32) ∨
      (op ∈ formatN.map Prod.fst ∧ usedBits op = some 0xFFFF000F#32) ∨
      (op = 0x2#4 ∧ usedBits op = some 0xFFFFFF0F#32) ∨ (op = 0xE#4 ∨ op = 0xF#4) := by
  revert op
  decide

/-- An illegal word whose opcode has a mask sets a bit outside it. -/
theorem masked_ne_zero_of_not_legal {w used : Word} (hillegal : legalWord w = false)
    (hused : usedBits (w.extractLsb' 0 4) = some used) : ¬ w &&& ~~~used = 0#32 := by
  rw [legalWord, hused] at hillegal
  exact beq_eq_false_iff_ne.mp hillegal

/-- The decoder refuses every word that is illegal by the masks (30_encoding.md R101). -/
theorem decode_of_not_legal {w : Word} (h : legalWord w = false) : ∃ why, decode w = .illegal why := by
  rcases usedBits_cases (w.extractLsb' 0 4) with ⟨hop, hused⟩ | ⟨hop, hused⟩ | ⟨hop, hused⟩ | hop
  · obtain ⟨⟨op, i⟩, hmem, heq⟩ := List.mem_map.mp hop
    rw [decode_formatZ hmem heq.symm, decodeZ_eq_masked, if_neg (masked_ne_zero_of_not_legal h hused)]
    exact ⟨_, rfl⟩
  · obtain ⟨⟨op, mk⟩, hmem, heq⟩ := List.mem_map.mp hop
    rw [decode_formatN hmem heq.symm, decodeN_eq_masked, if_neg (masked_ne_zero_of_not_legal h hused)]
    exact ⟨_, rfl⟩
  · rw [decode_formatO hop, decodeO_eq_masked, if_neg (masked_ne_zero_of_not_legal h hused)]
    exact ⟨_, rfl⟩
  · exact ⟨_, decode_reserved hop⟩

end Sys2Proof

namespace Sys2Proof.Machine

/-! ### Results that are no fault -/

/-- `r` is no fault of the spec: the state it leaves, if any, has `FAULT` = `F_NONE` (60_exceptions.md R226). -/
def Unfaulted (r : Result) : Prop := ∀ t, r = .next t → t.fault = .fNone

theorem unfaulted_next {t : State} (h : t.fault = .fNone) : Unfaulted (.next t) := by
  intro u hu
  cases hu
  exact h

theorem unfaulted_withBuffer {s : State} {k : State → Result} (h : Unfaulted (k s)) : Unfaulted (withBuffer s k) :=
  fun t ht => h t (withBuffer_next ht).2

/-- RX past its tests raises no fault, whichever way it ends. -/
theorem rxCompare_fault (s : State) : (rxCompare s).fault = .fNone := by
  rw [rxCompare]
  split
  · rfl
  · rcases rxDispatch_cases (wr16 s 6 s.hCsum) with ⟨-, hmiss⟩ | ⟨hid, -, hhit⟩
    · rw [hmiss]
      rfl
    · rw [hhit]
      rfl

theorem Unfaulted.raiseFault_ne {r : Result} (h : Unfaulted r) (s : State) {f : FaultCode} (hf : f ≠ .fNone) :
    .next (raiseFault s f) ≠ r :=
  fun heq => hf (h _ heq.symm)

/-! ### `F_ROOM` -/

/-- A command that needs room faults with `F_ROOM` exactly without it. -/
theorem RoomGuarded.fault_iff {s u : State} {room : Prop} {r : Result} (h : RoomGuarded s room u r) :
    ¬ room ↔ r = .next (raiseFault s .fRoom) := by
  refine ⟨h.fault, fun hr hroom => ?_⟩
  exact (unfaulted_next (t := finish u .oOk) rfl).raiseFault_ne s (by decide) (hr.symm.trans (h.ok hroom))

/-- A command whose tests for room guard a rest that raises no fault (42_checksum.md R156; 44_ingress.md R189;
45_egress.md R207): `r` is `F_ROOM` when `lacking`, and the rest otherwise. -/
def RoomTested (s : State) (lacking : Prop) (r : Result) : Prop :=
  (lacking ∧ r = .next (raiseFault s .fRoom)) ∨ (¬ lacking ∧ Unfaulted r)

theorem RoomTested.of_ite {s : State} {c d : Prop} [Decidable c] [Decidable d] {rest : Result} (h : Unfaulted rest) :
    RoomTested s (c ∨ d)
      (if c then .next (raiseFault s .fRoom) else if d then .next (raiseFault s .fRoom) else rest) := by
  rw [← ite_or]
  split
  · exact .inl ⟨‹_›, rfl⟩
  · exact .inr ⟨‹_›, h⟩

theorem RoomTested.fault_iff {s : State} {lacking : Prop} {r : Result} (h : RoomTested s lacking r) :
    lacking ↔ r = .next (raiseFault s .fRoom) := by
  rcases h with ⟨hlack, hr⟩ | ⟨hroom, hr⟩
  · exact iff_of_true hlack hr
  · exact iff_of_false hroom (hr.raiseFault_ne s (by decide)).symm

theorem RoomTested.fault_ne_fShort {s t : State} {lacking : Prop} {r : Result} (h : RoomTested s lacking r)
    (ht : r = .next t) : t.fault ≠ .fShort := by
  rcases h with ⟨-, hr⟩ | ⟨-, hr⟩
  · cases hr.symm.trans ht
    simp
  · rw [hr t ht]
    decide

theorem exec_csum_roomTested {s : State} (hlen : 8 ≤ s.len) :
    RoomTested s (s.dp < s.cfg.ipHdrSize ∨ s.lacksPadRoom) (exec .csum s) := by
  change RoomTested s _ (execCsum s)
  rw [execCsum, if_neg (Nat.not_lt.mpr hlen)]
  exact .of_ite (unfaulted_withBuffer (unfaulted_next rfl))

theorem exec_rx_roomTested {s : State} (hlen : 8 ≤ s.len) :
    RoomTested s (s.dp < s.cfg.ipHdrSize ∨ s.lacksPadRoom) (exec .rx s) := by
  change RoomTested s _ (execRx s)
  rw [execRx, if_neg (Nat.not_lt.mpr hlen)]
  exact .of_ite (unfaulted_withBuffer (unfaulted_next (rxCompare_fault _)))

theorem exec_tx_roomTested (s : State) : RoomTested s (s.dp < 8 + s.cfg.ipHdrSize ∨ s.lacksPadRoom) (exec .tx s) :=
  .of_ite (unfaulted_withBuffer (unfaulted_next rfl))

/-! ### `F_SHORT` -/

theorem exec_csum_of_short {s : State} (hlen : s.len < 8) : exec .csum s = .next (raiseFault s .fShort) :=
  if_pos hlen

/-- For RX a short packet is no fault, and its other faults are of room (60_exceptions.md R229). -/
theorem exec_rx_fault_ne_fShort {s t : State} (ht : exec .rx s = .next t) : t.fault ≠ .fShort := by
  rcases Nat.lt_or_ge s.len 8 with hlen | hlen
  · cases (rx_of_short hlen).symm.trans ht
    simp
  · exact (exec_rx_roomTested hlen).fault_ne_fShort ht

/-! ### A fault changes `STATUS` only -/

/-- A command that ends `O_FAULT` ends in `raiseFault` of the state it started in (60_exceptions.md R233). -/
theorem Ends.eq_raiseFault {s t : State} {r : Result} (h : Ends s r) (ht : r = .next t) (hfault : t.outcome = .oFault) :
    ∃ f, f ≠ .fNone ∧ t = raiseFault s f := by
  rcases h with ⟨u, o, ho, rfl⟩ | ⟨f, hf, rfl⟩ | ⟨-, rfl⟩
  · cases ht
    exact absurd hfault ho
  · cases ht
    exact ⟨f, hf, rfl⟩
  · cases ht

/-- Every word, legal or not, ends as a command does. -/
theorem runCommand_ends (w : Word) (s : State) : Ends s (runCommand w s) := by
  cases hd : decode w with
  | command i =>
    rw [runCommand_command hd]
    exact exec_ends i s
  | illegal why =>
    rw [runCommand_illegal hd]
    exact ends_raiseFault s .fIllegal (by decide)

end Sys2Proof.Machine
end

section
/-! PROOFS. The statements about the faults (60_exceptions.md). -/

namespace Sys2Proof.Proofs

open Sys2Proof Sys2Proof.Machine

/-- Settles O36: a command that needs room answers a failed test with `F_ROOM`, and with the room it either ends
without a fault or stops. -/
theorem roomFaults : Obligations.RoomFaults := by
  refine ⟨rfl, fun s n => ⟨?bufinit, ?push, ?pop, ?padd, ?padr, ?csum, ?rx, ?tx⟩⟩
  case bufinit => exact Nat.not_le.symm.trans (exec_bufinit n s).fault_iff
  case push => exact Nat.not_le.symm.trans (exec_push n s).fault_iff
  case pop => exact Nat.not_le.symm.trans (exec_pop n s).fault_iff
  case padd => exact Nat.not_le.symm.trans (exec_padd n s).fault_iff
  case padr => exact Nat.not_le.symm.trans (exec_padr n s).fault_iff
  case csum => exact fun hlen => (exec_csum_roomTested hlen).fault_iff
  case rx => exact fun hlen => (exec_rx_roomTested hlen).fault_iff
  case tx => exact (exec_tx_roomTested s).fault_iff

/-- Settles O37: of the ends of a command word only a `raiseFault` has the outcome `O_FAULT`. -/
theorem faultChangesOnlyStatus : Obligations.FaultChangesOnlyStatus := by
  intro w s t ht hfault
  obtain ⟨f, hf, rfl⟩ := (runCommand_ends w s).eq_raiseFault ht hfault
  exact ⟨hf, rfl⟩

/-- Settles O6: the decoder refuses the word, and the step runs a refused word as the fault `F_ILLEGAL`. -/
theorem illegalWordFaults : Obligations.IllegalWordFaults := by
  refine ⟨rfl, fun s w hcmd hlands hillegal => ?_⟩
  obtain ⟨why, hwhy⟩ := decode_of_not_legal hillegal
  exact (step_pending hcmd hlands).trans (runCommand_illegal hwhy s)

/-- Settles O35: the three commands test the length first; RX answers a short packet with an outcome, and TX has no
test of the length. -/
theorem shortPacketFaults : Obligations.ShortPacketFaults := by
  refine ⟨rfl, fun s => ⟨fun i hi hlen => ?short, fun i t hi ht => ?never⟩⟩ <;>
    simp only [List.mem_cons, List.not_mem_nil, or_false] at hi
  case short =>
    rcases hi with rfl | rfl | rfl
    · exact exec_csum_of_short hlen
    · exact exec_hdrrd_of_short hlen
    · exact exec_hdrwr_of_short hlen
  case never =>
    rcases hi with rfl | rfl
    · exact exec_rx_fault_ne_fShort ht
    · exact (exec_tx_roomTested s).fault_ne_fShort ht

end Sys2Proof.Proofs
end

section
/-! LAWS. Decoding against encoding, by format (30_encoding.md R95 to R101): every command is of one of the three
formats, the word of a command decodes to it, and a word that passes its format's test is made of its fields. -/

namespace Sys2Proof

/-- Every command is of one of the three formats (30_encoding.md R100). -/
theorem instr_formats (i : Instr) :
    (∃ op, (op, i) ∈ formatZ) ∨ (∃ op mk n, (op, mk) ∈ formatN ∧ i = mk n) ∨ ∃ port hid, i = .openPort port hid := by
  cases i with
  | openPort port hid => exact .inr (.inr ⟨port, hid, rfl⟩)
  | closePort n => exact .inr (.inl ⟨0x3#4, _, n, by simp [formatN], rfl⟩)
  | lookup n => exact .inr (.inl ⟨0x4#4, _, n, by simp [formatN], rfl⟩)
  | bufinit n => exact .inr (.inl ⟨0x7#4, _, n, by simp [formatN], rfl⟩)
  | push n => exact .inr (.inl ⟨0x8#4, _, n, by simp [formatN], rfl⟩)
  | pop n => exact .inr (.inl ⟨0x9#4, _, n, by simp [formatN], rfl⟩)
  | padd n => exact .inr (.inl ⟨0xA#4, _, n, by simp [formatN], rfl⟩)
  | padr n => exact .inr (.inl ⟨0xB#4, _, n, by simp [formatN], rfl⟩)
  | _ => exact .inl (by simp [formatZ])

theorem encode_formatZ {op : BitVec 4} {i : Instr} (hmem : (op, i) ∈ formatZ) : encode i = encodeZ op := by
  simp only [formatZ, List.mem_cons, List.not_mem_nil, or_false, Prod.mk.injEq] at hmem
  rcases hmem with ⟨rfl, rfl⟩ | ⟨rfl, rfl⟩ | ⟨rfl, rfl⟩ | ⟨rfl, rfl⟩ | ⟨rfl, rfl⟩ | ⟨rfl, rfl⟩ <;> rfl

theorem encode_formatN {op : BitVec 4} {mk : Half → Instr} (hmem : (op, mk) ∈ formatN) (n : Half) :
    encode (mk n) = encodeN op n := by
  simp only [formatN, List.mem_cons, List.not_mem_nil, or_false, Prod.mk.injEq] at hmem
  rcases hmem with ⟨rfl, rfl⟩ | ⟨rfl, rfl⟩ | ⟨rfl, rfl⟩ | ⟨rfl, rfl⟩ | ⟨rfl, rfl⟩ | ⟨rfl, rfl⟩ | ⟨rfl, rfl⟩ <;> rfl

/-! ### The fields of an encoded word -/

theorem encodeZ_op (op : BitVec 4) : (encodeZ op).extractLsb' 0 4 = op := by
  refine BitVec.eq_of_toNat_eq ?_
  have := op.isLt
  rw [field_toNat, encodeZ_toNat]
  omega

theorem encodeZ_unused (op : BitVec 4) : (encodeZ op).extractLsb' 4 28 = 0#28 := by
  refine BitVec.eq_of_toNat_eq ?_
  have := op.isLt
  rw [field_toNat, encodeZ_toNat, BitVec.toNat_ofNat]
  omega

theorem immField_encodeN (op : BitVec 4) (imm : Half) : immField (encodeN op imm) = imm := by
  refine BitVec.eq_of_toNat_eq ?_
  have := op.isLt
  have := imm.isLt
  rw [immField, field_toNat, encodeN_toNat]
  omega

theorem immField_encodeO (op : BitVec 4) (imm : Half) (hid : Byte) : immField (encodeO op imm hid) = imm := by
  refine BitVec.eq_of_toNat_eq ?_
  have := op.isLt
  have := imm.isLt
  have := hid.isLt
  rw [immField, field_toNat, encodeO_toNat]
  omega

theorem hidField_encodeO (op : BitVec 4) (imm : Half) (hid : Byte) : hidField (encodeO op imm hid) = hid := by
  refine BitVec.eq_of_toNat_eq ?_
  have := op.isLt
  have := hid.isLt
  rw [hidField, field_toNat, encodeO_toNat]
  omega

/-! ### Encode, then decode -/

theorem decode_encodeZ {op : BitVec 4} {i : Instr} (hmem : (op, i) ∈ formatZ) : decode (encodeZ op) = .command i :=
  (decode_formatZ hmem (encodeZ_op op)).trans (if_pos (encodeZ_unused op))

theorem decode_encodeN {op : BitVec 4} {mk : Half → Instr} (hmem : (op, mk) ∈ formatN) (n : Half) :
    decode (encodeN op n) = .command (mk n) := by
  rw [decode_formatN hmem (Laws.encodeN_op op n), decodeN_eq_masked, if_pos (Laws.encodeN_used op n), immField_encodeN]

theorem decode_encodeO (port : Half) (hid : Byte) :
    decode (encodeO 0x2#4 port hid) = .command (.openPort port hid) := by
  rw [decode_formatO (Laws.encodeO_op _ port hid), decodeO_eq_masked, if_pos (Laws.encodeO_used _ port hid),
    immField_encodeO, hidField_encodeO]

/-! ### Decode, then encode -/

/-- A word that passes the test of format Z is its opcode. -/
theorem encodeZ_of_decodeZ {w : Word} {i j : Instr} (h : decodeZ w i = .command j) :
    j = i ∧ encodeZ (w.extractLsb' 0 4) = w := by
  unfold decodeZ at h
  split at h
  · next hunused =>
    cases h
    have hbits := congrArg BitVec.toNat hunused
    rw [field_toNat, BitVec.toNat_ofNat] at hbits
    refine ⟨rfl, BitVec.eq_of_toNat_eq ?_⟩
    rw [encodeZ_toNat, field_toNat]
    have := w.isLt
    omega
  · cases h

/-- A word that passes the test of format N is its opcode and its operand. -/
theorem encodeN_of_decodeN {w : Word} {mk : Half → Instr} {j : Instr} (h : decodeN w mk = .command j) :
    j = mk (immField w) ∧ encodeN (w.extractLsb' 0 4) (immField w) = w := by
  unfold decodeN at h
  split at h
  · next hunused =>
    cases h
    have hbits := congrArg BitVec.toNat hunused
    rw [field_toNat, BitVec.toNat_ofNat] at hbits
    refine ⟨rfl, BitVec.eq_of_toNat_eq ?_⟩
    rw [encodeN_toNat, immField, field_toNat, field_toNat]
    have := w.isLt
    omega
  · cases h

/-- A word that passes the test of format O is its opcode and its two operands. -/
theorem encodeO_of_decodeO {w : Word} {mk : Half → Byte → Instr} {j : Instr} (h : decodeO w mk = .command j) :
    j = mk (immField w) (hidField w) ∧ encodeO (w.extractLsb' 0 4) (immField w) (hidField w) = w := by
  unfold decodeO at h
  split at h
  · next hunused =>
    cases h
    have hbits := congrArg BitVec.toNat hunused
    rw [field_toNat, BitVec.toNat_ofNat] at hbits
    refine ⟨rfl, BitVec.eq_of_toNat_eq ?_⟩
    rw [encodeO_toNat, immField, hidField, field_toNat, field_toNat, field_toNat]
    have := w.isLt
    omega
  · cases h

end Sys2Proof
end

section
/-! PROOFS. The statements about decoding against encoding (30_encoding.md). -/

namespace Sys2Proof.Proofs

open Sys2Proof Sys2Proof.Machine

/-- Settles O1, by the format of the command: its word has the opcode and no unused bit, so the decoder reads back the
fields. -/
theorem decodeOfEncode : Obligations.DecodeOfEncode := by
  intro i
  rcases instr_formats i with ⟨op, hmem⟩ | ⟨op, mk, n, hmem, rfl⟩ | ⟨port, hid, rfl⟩
  · rw [encode_formatZ hmem]
    exact decode_encodeZ hmem
  · rw [encode_formatN hmem]
    exact decode_encodeN hmem n
  · exact decode_encodeO port hid

/-- Settles O2, by the format of the word's opcode: the test of the unused bits leaves the word no bit outside the
fields that the command keeps. -/
theorem encodeOfDecode : Obligations.EncodeOfDecode := by
  intro w i h
  rcases usedBits_cases (w.extractLsb' 0 4) with ⟨hop, -⟩ | ⟨hop, -⟩ | ⟨hop, -⟩ | hop
  · obtain ⟨⟨op, j⟩, hmem, hfst⟩ := List.mem_map.mp hop
    rw [decode_formatZ hmem hfst.symm] at h
    obtain ⟨rfl, hw⟩ := encodeZ_of_decodeZ h
    rw [encode_formatZ hmem, show op = _ from hfst, hw]
  · obtain ⟨⟨op, mk⟩, hmem, hfst⟩ := List.mem_map.mp hop
    rw [decode_formatN hmem hfst.symm] at h
    obtain ⟨rfl, hw⟩ := encodeN_of_decodeN h
    rw [encode_formatN hmem, show op = _ from hfst, hw]
  · rw [decode_formatO hop] at h
    obtain ⟨rfl, hw⟩ := encodeO_of_decodeO h
    rw [hop] at hw
    exact hw
  · cases (decode_reserved hop).symm.trans h

/-- Settles O4: the decoder computes on each word. -/
theorem writtenOutWordsDecode : Obligations.WrittenOutWordsDecode := by
  unfold Obligations.WrittenOutWordsDecode
  decide

end Sys2Proof.Proofs
end

section
/-! LAWS. What the host's accesses do, register by register and byte by byte (10_state.md R22, R23, R26; 20_memory.md
R60, R61, R66, R67), and what a step answers. -/

namespace Sys2Proof.Machine

/-! ### The fields a write of a register changes -/

section WriteReg

variable (s : State) (r : Reg) (v : Word)

@[simp] theorem writeReg_cmd_field : (writeReg s r v).cmd = if r = .cmd then some v else s.cmd := by cases r <;> rfl
@[simp] theorem writeReg_localAddr : (writeReg s r v).localAddr = if r = .localAddr then v else s.localAddr := by
  cases r <;> rfl
@[simp] theorem writeReg_csSrc : (writeReg s r v).csSrc = if r = .csSrc then v else s.csSrc := by cases r <;> rfl
@[simp] theorem writeReg_csDst : (writeReg s r v).csDst = if r = .csDst then v else s.csDst := by cases r <;> rfl
@[simp] theorem writeReg_rxRemote : (writeReg s r v).rxRemote = if r = .rxRemote then v else s.rxRemote := by
  cases r <;> rfl
@[simp] theorem writeReg_txDaddr : (writeReg s r v).txDaddr = if r = .txDaddr then v else s.txDaddr := by
  cases r <;> rfl
@[simp] theorem writeReg_txSport : (writeReg s r v).txSport = if r = .txSport then v.setWidth 16 else s.txSport := by
  cases r <;> rfl
@[simp] theorem writeReg_txDport : (writeReg s r v).txDport = if r = .txDport then v.setWidth 16 else s.txDport := by
  cases r <;> rfl
@[simp] theorem writeReg_hSport : (writeReg s r v).hSport = if r = .hSport then v.setWidth 16 else s.hSport := by
  cases r <;> rfl
@[simp] theorem writeReg_hDport : (writeReg s r v).hDport = if r = .hDport then v.setWidth 16 else s.hDport := by
  cases r <;> rfl
@[simp] theorem writeReg_hLen : (writeReg s r v).hLen = if r = .hLen then v.setWidth 16 else s.hLen := by
  cases r <;> rfl
@[simp] theorem writeReg_hCsum : (writeReg s r v).hCsum = if r = .hCsum then v.setWidth 16 else s.hCsum := by
  cases r <;> rfl

/-! ### The fields it does not -/

@[simp] theorem writeReg_outcome : (writeReg s r v).outcome = s.outcome := by cases r <;> rfl
@[simp] theorem writeReg_fault : (writeReg s r v).fault = s.fault := by cases r <;> rfl
@[simp] theorem writeReg_csum : (writeReg s r v).csum = s.csum := by cases r <;> rfl
@[simp] theorem writeReg_dp : (writeReg s r v).dp = s.dp := by cases r <;> rfl
@[simp] theorem writeReg_len : (writeReg s r v).len = s.len := by cases r <;> rfl
@[simp] theorem writeReg_lkResult : (writeReg s r v).lkResult = s.lkResult := by cases r <;> rfl
@[simp] theorem writeReg_mem : (writeReg s r v).mem = s.mem := by cases r <;> rfl
@[simp] theorem writeReg_pt : (writeReg s r v).pt = s.pt := by cases r <;> rfl
@[simp] theorem writeReg_trace : (writeReg s r v).trace = s.trace := by cases r <;> rfl
@[simp] theorem writeReg_host : (writeReg s r v).host = s.host := by cases r <;> rfl
@[simp] theorem writeReg_replies : (writeReg s r v).replies = s.replies := by cases r <;> rfl

end WriteReg

/-! ### Read after write -/

/-- A 32-bit RW register takes the value (10_state.md R22). -/
theorem readReg_writeReg_word {r : Reg} (s : State) (v : Word)
    (h : r ∈ [Reg.localAddr, .csSrc, .csDst, .rxRemote, .txDaddr]) : readReg (writeReg s r v) r = v := by
  simp only [List.mem_cons, List.not_mem_nil, or_false] at h
  rcases h with rfl | rfl | rfl | rfl | rfl <;> rfl

/-- A number cut to 16 bits and extended again keeps its low 16 bits. -/
theorem setWidth_setWidth_half (v : Word) : (v.setWidth 16).setWidth 32 = v &&& 0x0000FFFF#32 := by
  refine BitVec.eq_of_toNat_eq ?_
  rw [BitVec.toNat_and, BitVec.toNat_setWidth, BitVec.toNat_setWidth, show (0x0000FFFF#32).toNat = 2 ^ 16 - 1 from rfl,
    Nat.and_two_pow_sub_one_eq_mod]
  omega

/-- A 16-bit RW register takes the low 16 bits (10_state.md R23). -/
theorem readReg_writeReg_half {r : Reg} (s : State) (v : Word)
    (h : r ∈ [Reg.txSport, .txDport, .hSport, .hDport, .hLen, .hCsum]) :
    readReg (writeReg s r v) r = v &&& 0x0000FFFF#32 := by
  rw [← setWidth_setWidth_half]
  simp only [List.mem_cons, List.not_mem_nil, or_false] at h
  rcases h with rfl | rfl | rfl | rfl | rfl | rfl <;> rfl

/-- An RO register ignores a write (10_state.md R22). -/
theorem writeReg_readOnly {r : Reg} (s : State) (v : Word) (h : r ∈ [Reg.status, .csum, .bufDp, .bufLen, .lkResult]) :
    writeReg s r v = s := by
  simp only [List.mem_cons, List.not_mem_nil, or_false] at h
  rcases h with rfl | rfl | rfl | rfl | rfl <;> rfl

/-- A write of a register changes what no other register reads, but that a write of `CMD` raises `BUSY`
(10_state.md R22, R26). -/
theorem readReg_writeReg_other {s : State} {r r' : Reg} (v : Word) (hne : r' ≠ r) (hbusy : r ≠ .cmd ∨ r' ≠ .status) :
    readReg (writeReg s r v) r' = readReg s r' := by
  cases r' with
  | status =>
    have hcmd : r ≠ .cmd := hbusy.resolve_right (not_not.mpr rfl)
    simp only [readReg, statusWord, State.busy, writeReg_cmd_field, if_neg hcmd, writeReg_fault, writeReg_outcome]
  | _ => simp [readReg, hne.symm]

/-! ### `STATUS` -/

/-- `STATUS` as a number: its four fields, each at its place (10_state.md R26). -/
theorem statusWord_toNat (s : State) : (statusWord s).toNat =
    s.busy.toNat * 2 ^ 31 + (faultBits s.fault).toNat * 2 ^ 4 + (outcomeBits s.outcome).toNat := by
  rw [statusWord, append_toNat, append_toNat, append_toNat, BitVec.toNat_ofBool, BitVec.toNat_ofNat]
  omega

theorem statusWord_outcome (s : State) : (statusWord s).extractLsb' 0 4 = outcomeBits s.outcome := by
  refine BitVec.eq_of_toNat_eq ?_
  have := (outcomeBits s.outcome).isLt
  rw [field_toNat, statusWord_toNat]
  omega

theorem statusWord_fault (s : State) : (statusWord s).extractLsb' 4 4 = faultBits s.fault := by
  refine BitVec.eq_of_toNat_eq ?_
  have := (outcomeBits s.outcome).isLt
  have := (faultBits s.fault).isLt
  rw [field_toNat, statusWord_toNat]
  omega

theorem statusWord_zeros (s : State) : (statusWord s).extractLsb' 8 23 = 0#23 := by
  refine BitVec.eq_of_toNat_eq ?_
  have := (outcomeBits s.outcome).isLt
  have := (faultBits s.fault).isLt
  rw [field_toNat, statusWord_toNat, BitVec.toNat_ofNat]
  omega

theorem statusWord_busy (s : State) : (statusWord s).extractLsb' 31 1 = BitVec.ofBool s.busy := by
  refine BitVec.eq_of_toNat_eq ?_
  have := (outcomeBits s.outcome).isLt
  have := (faultBits s.fault).isLt
  have := s.busy.toNat_le
  rw [field_toNat, statusWord_toNat, BitVec.toNat_ofBool]
  omega

/-- `BUSY` is 1 exactly while a command is pending (10_state.md R26). -/
theorem statusWord_busy_iff (s : State) : (statusWord s).extractLsb' 31 1 = 1#1 ↔ s.cmd ≠ none := by
  rw [statusWord_busy, State.busy]
  cases s.cmd <;> simp

/-! ### Accesses by the kind of the offset -/

section Accesses

variable (s : State)

theorem hostWriteWord_register (r : Reg) (v : Word) : hostWriteWord s (offsetOf r) v = .next (writeReg s r v) := by
  rw [hostWriteWord, targetAt_offsetOf]

theorem hostReadWord_register (r : Reg) : hostReadWord s (offsetOf r) = .next (reply s (readReg s r)) := by
  rw [hostReadWord, targetAt_offsetOf]

theorem hostWriteByte_register (r : Reg) (b : Byte) :
    hostWriteByte s (offsetOf r) b = .next (writeRegByte s r (offsetOf r) b) := by
  rw [hostWriteByte, targetAt_offsetOf]

theorem hostReadByte_register (r : Reg) : hostReadByte s (offsetOf r) = .next (readRegByte s r (offsetOf r)) := by
  rw [hostReadByte, targetAt_offsetOf]

variable {s}

theorem hostWriteWord_window {i : Nat} (hi : i < s.cfg.bufCap) (v : Word) :
    hostWriteWord s (0x10000 + i) v = .next (writeWide s i v) := by
  rw [hostWriteWord, targetAt_window _ hi]

theorem hostReadWord_window {i : Nat} (hi : i < s.cfg.bufCap) :
    hostReadWord s (0x10000 + i) = .next (readWide s i) := by
  rw [hostReadWord, targetAt_window _ hi]

theorem hostWriteByte_window {i : Nat} (hi : i < s.cfg.bufCap) (b : Byte) :
    hostWriteByte s (0x10000 + i) b = .next (setMem s (s.mem.writeByte i b)) := by
  rw [hostWriteByte, targetAt_window _ hi]

theorem hostReadByte_window {i : Nat} (hi : i < s.cfg.bufCap) :
    hostReadByte s (0x10000 + i) = .next (reply s ((s.mem.readByte i).setWidth 32)) := by
  rw [hostReadByte, targetAt_window _ hi]

variable {off : Nat} (h : targetAt s.cfg off = .registerHole ∨ targetAt s.cfg off = .unmapped)
include h

/-- At an offset that is neither a register's nor in the window writes are ignored and reads answer 0
(20_memory.md R67; 10_state.md R23). -/
theorem hostWriteWord_nothing (v : Word) : hostWriteWord s off v = .next s := by
  rcases h with h | h <;> rw [hostWriteWord, h]

theorem hostWriteByte_nothing (b : Byte) : hostWriteByte s off b = .next s := by
  rcases h with h | h <;> rw [hostWriteByte, h]

theorem hostReadWord_nothing : hostReadWord s off = .next (reply s 0x00000000#32) := by
  rcases h with h | h <;> rw [hostReadWord, h]

theorem hostReadByte_nothing : hostReadByte s off = .next (reply s 0x00000000#32) := by
  rcases h with h | h <;> rw [hostReadByte, h]

end Accesses

/-- A byte write does nothing to `CMD` and to an RO register (10_state.md R22, R25). -/
theorem writeRegByte_ignored {r : Reg} (s : State) (off : Nat) (b : Byte)
    (h : r ∈ [Reg.cmd, .status, .csum, .bufDp, .bufLen, .lkResult]) : writeRegByte s r off b = s := by
  rcases writeRegByte_cases s r off b with ⟨-, heq⟩ | ⟨hr, heq⟩
  · exact heq
  · rw [heq, writeReg_readOnly s _ ((List.mem_cons.mp h).resolve_left hr)]

/-- A byte read of a register answers some byte (log entry 7). -/
theorem readRegByte_byte (s : State) (r : Reg) (off : Nat) :
    ∃ b : Byte, readRegByte s r off = reply s (b.setWidth 32) := by
  by_cases hr : r = .cmd
  · exact ⟨0x00#8, by rw [readRegByte, if_pos hr]; rfl⟩
  · exact ⟨_, by rw [readRegByte, if_neg hr]⟩

end Sys2Proof.Machine
end

section
/-! PROOFS. The statements about the step, `STATUS`, reset and the host's windows (10_state.md R22 to R26;
20_memory.md section 4; 70_reset_and_hazards.md R250, R252). -/

namespace Sys2Proof.Proofs

open Sys2Proof Sys2Proof.Machine

/-- Settles O5: with nothing landing the step is `runCommand` of the pending word. -/
theorem stepRunsDecodedCommand : Obligations.StepRunsDecodedCommand := fun s _ _ hcmd hlands hdecode =>
  (step_pending hcmd hlands).trans (runCommand_command hdecode s)

/-- Settles O8: `step_idle` is the statement. -/
theorem idleEngineStays : Obligations.IdleEngineStays := fun _ => step_idle

/-- Settles O9: the host reads `statusWord`, whose four fields are known. -/
theorem statusWordFields : Obligations.StatusWordFields := fun s =>
  ⟨statusWord_outcome s, statusWord_fault s, statusWord_zeros s, statusWord_busy_iff s⟩

/-- Settles O10: the step is `pollStatus`, a reply of `STATUS`, and `BUSY` is 1 since a command is pending. -/
theorem statusPollDuringCommand : Obligations.StatusPollDuringCommand := by
  intro s w rest hcmd hhost
  have hpending : s.cmd ≠ none := hcmd ▸ Option.some_ne_none w
  exact ⟨step_poll hcmd hhost, (statusWord_busy_iff s).mpr hpending, statusWord_outcome s, statusWord_fault s⟩

/-- Settles O12: each of the three steps is `applyReset`, while idle with the `MEM` that stands there. -/
theorem resetActionResets : Obligations.ResetActionResets :=
  ⟨fun _ _ _ _ _ _ => step_abandon, fun _ _ _ _ => step_host, fun _ _ _ _ _ => step_host⟩

/-- Settles O13: the step is `writeReg`, whose fields are known one by one. -/
theorem registerWriteThenRead : Obligations.RegisterWriteThenRead := by
  intro s r v rest hidle hhost
  have hstep : step s = .next (writeReg (takeAction s rest) r v) :=
    (step_host hidle hhost).trans (hostWriteWord_register _ r v)
  refine ⟨_, hstep, ?_, ?_, ?_, ?_, ?_, ?_, ?_, ?_, ?_, readReg_writeReg_word _ v, readReg_writeReg_half _ v,
    fun hro => ?readOnly, rfl, fun hcmd => ?pending, fun hcmd => ?idle, fun r' hne hbusy => ?other⟩
  case readOnly =>
    rw [writeReg_readOnly _ v hro]
    simp only [List.mem_cons, List.not_mem_nil, or_false] at hro
    rcases hro with rfl | rfl | rfl | rfl | rfl <;> rfl
  case pending => rw [writeReg_cmd_field, if_pos hcmd]
  case idle => rw [writeReg_cmd_field, if_neg hcmd, takeAction_cmd, hidle]
  case other =>
    rw [readReg_writeReg_other v hne hbusy]
    rfl
  all_goals simp

/-- Settles O14: each step is a `reply`, of the register, the byte, 0 or `STATUS` by the kind of the offset. -/
theorem hostReadsChangeNothing : Obligations.HostReadsChangeNothing := by
  intro s rest hidle
  refine ⟨fun r hhost => ?register, fun off hoff hout hhost => ?nothing, fun i hi hhost => ?byte, step_host hidle⟩
  case register => exact (step_host hidle hhost).trans (hostReadWord_register _ r)
  case nothing =>
    have htarget := targetAt_nothing (takeAction s rest).cfg hoff hout
    rcases hhost with hhost | hhost
    · exact (step_host hidle hhost).trans (hostReadWord_nothing htarget)
    · exact (step_host hidle hhost).trans (hostReadByte_nothing htarget)
  case byte => exact (step_host hidle hhost).trans (hostReadByte_window (s := takeAction s rest) hi)

/-- Settles O15: in the window the step is one `writeByte`; at an offset that is nothing's it does nothing. -/
theorem hostWritesOnlyItsByte : Obligations.HostWritesOnlyItsByte := by
  intro s b v rest hidle
  refine ⟨fun i hi hhost => ?byte, fun off hoff hout hhost => ?nothing⟩
  case byte =>
    exact ⟨_, (step_host hidle hhost).trans (hostWriteByte_window (s := takeAction s rest) hi b), rfl,
      s.mem.readByte_writeByte i b⟩
  case nothing =>
    have htarget := targetAt_nothing (takeAction s rest).cfg hoff hout
    rcases hhost with hhost | hhost
    · exact (step_host hidle hhost).trans (hostWriteWord_nothing htarget v)
    · exact (step_host hidle hhost).trans (hostWriteByte_nothing htarget b)

/-- Settles O16, by what an access at `dp+k` can do: it reaches the byte at that index when the window has it, and
nothing otherwise. -/
theorem dpIndexedAccess : Obligations.DpIndexedAccess := by
  intro s k b rest hidle
  have hwrite : s.host = .writeByteDp k b :: rest → step s = hostWriteDp (takeAction s rest) k b := step_host hidle
  have hread : s.host = .readByteDp k :: rest → step s = hostReadDp (takeAction s rest) k := step_host hidle
  have hwriteCases := hostWriteDp_cases (takeAction s rest) k b
  have hreadCases := hostReadDp_cases (takeAction s rest) k
  simp only [takeAction_dp, takeAction_cfg, takeAction_mem] at hwriteCases hreadCases
  refine ⟨fun i hi => ⟨fun hhost => ?write, fun hhost => ?read⟩,
    fun hbelow => ⟨fun hhost => ?writeBelow, fun hhost => ?readBelow⟩⟩
  case write =>
    rcases hwriteCases with ⟨j, hj, hin, heq⟩ | ⟨hout, heq⟩
    · obtain rfl : j = i := by omega
      refine ⟨_, (hwrite hhost).trans heq, rfl, fun a => ?_⟩
      simp only [setMem_mem, Memory.readByte_writeByte, hin, and_true]
    · have hin : ¬ i < s.cfg.bufCap := by omega
      refine ⟨_, (hwrite hhost).trans heq, rfl, fun a => ?_⟩
      simp only [takeAction_mem, hin, and_false, if_false]
  case read =>
    rw [hread hhost]
    rcases hreadCases with ⟨j, hj, hin, heq⟩ | ⟨hout, heq⟩
    · obtain rfl : j = i := by omega
      rw [heq, if_pos hin]
      rfl
    · rw [heq, if_neg (by omega)]
      rfl
  case writeBelow =>
    rcases hwriteCases with ⟨j, hj, -, -⟩ | ⟨-, heq⟩
    · omega
    · exact (hwrite hhost).trans heq
  case readBelow =>
    rcases hreadCases with ⟨j, hj, -, -⟩ | ⟨-, heq⟩
    · omega
    · exact (hread hhost).trans heq

/-- Settles O17: an offset of the register window is a hole, or a register whose byte accesses `writeRegByte_cases` and
`readRegByte_byte` give. -/
theorem byteAccessInRegisterWindow : Obligations.ByteAccessInRegisterWindow := by
  intro s off b rest hidle hoff
  have hhole : (∀ r, off ≠ offsetOf r) →
      targetAt (takeAction s rest).cfg off = .registerHole ∨ targetAt (takeAction s rest).cfg off = .unmapped :=
    fun h => targetAt_nothing _ h (.inl (by omega))
  refine ⟨fun hhost => ?write, fun hhost => ?read⟩
  case write =>
    have hstep : step s = hostWriteByte (takeAction s rest) off b := step_host hidle hhost
    refine ⟨fun h => hstep.trans (hostWriteByte_nothing (hhole h) b), fun r hr hro => ?_, fun r hr hrw => ?_⟩
    · rw [hstep, hr, hostWriteByte_register, writeRegByte_ignored _ _ _ hro]
      rfl
    · rw [hstep, hr, hostWriteByte_register]
      rcases writeRegByte_cases (takeAction s rest) r (offsetOf r) b with ⟨rfl, -⟩ | ⟨-, heq⟩
      · exact absurd hrw (by decide)
      · exact ⟨_, congrArg _ heq⟩
  case read =>
    have hstep : step s = hostReadByte (takeAction s rest) off := step_host hidle hhost
    refine ⟨fun h => hstep.trans (hostReadByte_nothing (hhole h)), fun hr => ?_, fun r hr => ?_⟩
    · rw [hstep, hr, hostReadByte_register]
      rfl
    · obtain ⟨b', heq⟩ := readRegByte_byte (takeAction s rest) r (offsetOf r)
      rw [hstep, hr, hostReadByte_register]
      exact ⟨b', congrArg _ heq⟩

/-- Settles O18: the step is `writeWide`, which reaches at most four bytes, or `readWide`, which is a `reply`. -/
theorem wideAccessInBufferWindow : Obligations.WideAccessInBufferWindow := by
  intro s i v rest hidle hi
  refine ⟨fun hhost => ?write, fun hhost => ?read⟩
  case write =>
    exact ⟨_, (step_host hidle hhost).trans (hostWriteWord_window (s := takeAction s rest) hi v), rfl,
      fun a => writeWide_mem_other (takeAction s rest) v⟩
  case read => exact ⟨_, (step_host hidle hhost).trans (hostReadWord_window (s := takeAction s rest) hi)⟩

end Sys2Proof.Proofs
end

section
/-! LAWS. A checksum depends on its input by the total of the words alone (42_checksum.md R153), so the two addresses
can change places (R160), and a byte of an address counts as a byte of the packet does (R162). -/

namespace Sys2Proof.Machine

/-- The total of an even number of bytes is 0 exactly when every byte is. -/
theorem wordTotal_eq_zero_iff (l : List Byte) (heven : l.length % 2 = 0) : wordTotal l = 0 ↔ ∀ b ∈ l, b = 0x00#8 := by
  match l, heven with
  | [], _ => simp [wordTotal]
  | [_], h => simp at h
  | b0 :: b1 :: t, h =>
    have hlen : t.length % 2 = 0 := by
      simp only [List.length_cons] at h
      omega
    have hword : (be16 b0 b1).toNat = 0 ↔ b0 = 0x00#8 ∧ b1 = 0x00#8 := by
      rw [be16_toNat, ← BitVec.toNat_inj, ← BitVec.toNat_inj, BitVec.toNat_ofNat]
      omega
    rw [wordTotal, Nat.add_eq_zero_iff, hword, wordTotal_eq_zero_iff t hlen, List.forall_mem_cons, List.forall_mem_cons,
      and_assoc]

theorem checksum_congr {p q : Byte} {src dst data src' dst' data' : List Byte}
    (h : wordTotal (csumInput p src dst data) = wordTotal (csumInput q src' dst' data')) :
    checksum p src dst data = checksum q src' dst' data' := by
  rw [checksum_eq_iff, ← ocSum_csumInput]
  refine BitVec.eq_of_toNat_eq ?_
  rw [ocSum_toNat, ocSum_toNat, h]

/-- The addresses count in the total by their own totals, so they can change places (42_checksum.md R160). -/
theorem checksum_swap (p : Byte) {a b : List Byte} (data : List Byte) (ha : a.length = 4) (hb : b.length = 4) :
    checksum p a b data = checksum p b a data := by
  refine checksum_congr ?_
  rw [wordTotal_csumInput p a b data ha hb, wordTotal_csumInput p b a data hb ha, Nat.add_comm (wordTotal a)]

/-- Another byte of the source address changes the total by less than 65535, so it changes the checksum. -/
theorem checksum_set_src_ne (p : Byte) {src dst data : List Byte} (hsrc : src.length = 4) (hdst : dst.length = 4)
    {i : Nat} (hi : i < 4) {x : Byte} (hx : x ≠ src.getD i 0x00#8) :
    checksum p (src.set i x) dst data ≠ checksum p src dst data := by
  intro heq
  have hmod := wordTotal_mod_of_checksum_eq heq
  rw [wordTotal_csumInput p _ dst data (List.length_set.trans hsrc) hdst, wordTotal_csumInput p src dst data hsrc hdst]
    at hmod
  have hset := wordTotal_set src i x (by rw [hsrc]) (hi.trans_eq hsrc.symm)
  have hne : x.toNat ≠ (src.getD i 0x00#8).toNat := fun h => hx (BitVec.eq_of_toNat_eq h)
  have hlt := x.isLt
  have hlt' := (src.getD i 0x00#8).isLt
  rw [byteWeight] at hset
  split at hset <;> omega

/-- So does another byte of the destination address, which can stand as the source. -/
theorem checksum_set_dst_ne (p : Byte) {src dst data : List Byte} (hsrc : src.length = 4) (hdst : dst.length = 4)
    {i : Nat} (hi : i < 4) {x : Byte} (hx : x ≠ dst.getD i 0x00#8) :
    checksum p src (dst.set i x) data ≠ checksum p src dst data := by
  rw [checksum_swap p data hsrc (List.length_set.trans hdst), checksum_swap p data hsrc hdst]
  exact checksum_set_src_ne p hdst hsrc hi hx

end Sys2Proof.Machine
end

section
/-! PROOFS. The statements about the sum, the two addresses and a flipped bit (42_checksum.md R153, R160, R162). -/

namespace Sys2Proof.Proofs

open Sys2Proof Sys2Proof.Machine

/-- Settles O30: `endAround` is the closed form, and the total is 0 exactly when every byte is. -/
theorem sumClosedForm : Obligations.SumClosedForm := fun l heven =>
  ⟨ocSum_toNat l, (ocSum_eq_zero_iff l).trans (wordTotal_eq_zero_iff l heven), ocSum_eq_allOnes_iff l⟩

/-- Settles O32: `checksum_swap` is the statement. -/
theorem checksumAddressSwap : Obligations.ChecksumAddressSwap := fun p _ _ data ha hb => checksum_swap p data ha hb

/-- Settles O33: a flipped bit makes another byte, and another byte at any of the three places changes the
checksum. -/
theorem singleBitChangesChecksum : Obligations.SingleBitChangesChecksum := by
  intro p src dst data i k hsrc hdst hk
  exact ⟨fun hi => checksum_set_ne p hsrc hdst hi (flipBit_ne _ hk),
    fun hi => checksum_set_src_ne p hsrc hdst hi (flipBit_ne _ hk),
    fun hi => checksum_set_dst_ne p hsrc hdst hi (flipBit_ne _ hk)⟩

end Sys2Proof.Proofs
end

section
/-! LAWS. How commands end: with `BUSY` clear and a listed outcome, with the one event of that outcome, and with no byte
of `MEM` changed outside the command's footprint (60_exceptions.md R220, R232; 20_memory.md R65). -/

namespace Sys2Proof.Machine

/-! ### Completion -/

/-- Of its ends a command with its packet inside `MEM` has only those with `BUSY` clear. -/
theorem Ends.completes {s : State} {r : Result} (h : Ends s r) (hbuf : s.BufferOk) :
    ∃ t, r = .next t ∧ t.cmd = none := by
  rcases h with ⟨u, o, -, rfl⟩ | ⟨f, -, rfl⟩ | ⟨hout, -⟩
  · exact ⟨_, rfl, rfl⟩
  · exact ⟨_, rfl, rfl⟩
  · exact absurd hbuf hout

theorem Ends.ne_refused {s : State} {r : Result} (h : Ends s r) (why : Refusal) : r ≠ .refused why := by
  rcases h with ⟨u, o, -, rfl⟩ | ⟨f, -, rfl⟩ | ⟨-, rfl⟩ <;> exact nofun

/-- `OUTCOME` and `FAULT` agree after every command (60_exceptions.md R226). -/
theorem Ends.fault_iff {s t : State} {r : Result} (h : Ends s r) (ht : r = .next t) :
    t.outcome = .oFault ↔ t.fault ≠ .fNone := by
  rcases h with ⟨u, o, ho, rfl⟩ | ⟨f, hf, rfl⟩ | ⟨-, rfl⟩
  · cases ht
    exact iff_of_false ho (not_not.mpr rfl)
  · cases ht
    exact iff_of_true rfl hf
  · cases ht

/-- A completed command leaves no `O_NONE` (60_exceptions.md R220). -/
theorem CommandEnd.outcome_ne_oNone {i : Instr} {s t : State} (h : CommandEnd s i t) : t.outcome ≠ .oNone := by
  cases h <;> exact nofun

theorem runCommand_outcome_ne_oNone {w : Word} {s t : State} (ht : runCommand w s = .next t) : t.outcome ≠ .oNone := by
  cases hd : decode w with
  | command i => exact (exec_end ((runCommand_command hd s).symm.trans ht)).outcome_ne_oNone
  | illegal why =>
    cases (runCommand_illegal hd s).symm.trans ht
    exact nofun

/-- The buffer test of a command whose packet lies outside `MEM` (log entry 6). -/
theorem withBuffer_of_not_bufferOk {s : State} (h : ¬ s.BufferOk) (k : State → Result) :
    withBuffer s k = .fault .bufferRange :=
  if_neg h

/-! ### Events -/

theorem trace_csumPad (s : State) : (csumPad s).trace = s.trace := by
  rw [csumPad]
  split
  · rw [setPadded_trace, padAdd_trace]
  · rfl

theorem trace_csumRestore (s : State) : (csumRestore s).trace = s.trace := by
  simp only [csumRestore, bufPop_trace, setMem_trace]
  split
  · rw [setPadded_trace, padRemove_trace]
  · rfl

theorem trace_csumOverlay (s : State) (src dst : List Byte) : (csumOverlay s src dst).trace = s.trace := by
  simp only [csumOverlay, setMem_trace, bufPop_trace, bufPush_trace, setSave_trace]

/-- The in-place checksum emits nothing. -/
theorem trace_csumInplace (s : State) (src dst : List Byte) : (csumInplace s src dst).trace = s.trace := by
  rw [csumInplace, setCsum_trace, trace_csumRestore, csumAccumulate, setAcc_trace, trace_csumPad, trace_csumOverlay]

theorem trace_rxRecompute (s : State) : (rxRecompute s).trace = s.trace := by
  rw [rxRecompute, trace_csumInplace, wr16_eq, setMem_trace, setRecord_trace]

theorem trace_rxAccepted (s : State) : (rxAccepted s).trace = s.trace := by
  rw [rxAccepted, setRecord_trace, wr16_eq, setMem_trace, trace_rxRecompute]

/-- RX notifies of an unreachable port by one event (44_ingress.md R184). -/
theorem trace_rxUnreachable (s : State) : (rxUnreachable s).trace = s.trace ++
    [.unreach (bufPush s s.cfg.ipHdrSize).data (addrBytes s.rxRemote) s.cfg.unreachReason] := by
  rw [rxUnreachable, finish_trace, emit_trace, bufPush_trace, bufPush_rxRemote, bufPush_cfg]

/-- RX hands a datagram to its handler by one event (44_ingress.md R185). -/
theorem trace_rxDeliver (s : State) (hid : Byte) : (rxDeliver s hid).trace = s.trace ++
    [.deliver hid (bufPop s 8).data (s.len - 8) (addrBytes s.rxRemote) (rd16 s 0)] := rfl

theorem trace_hdrWrite (s : State) : (hdrWrite s).trace = s.trace := by rw [hdrWrite_eq_setMem, setMem_trace]

theorem trace_txPopulate (s : State) : (txPopulate s).trace = s.trace := by
  rw [txPopulate, trace_hdrWrite, setRecord_trace, bufPush_trace]

theorem trace_txChecksum (s : State) : (txChecksum s).trace = s.trace := by
  rw [txChecksum, trace_hdrWrite, setRecord_trace, trace_csumInplace]

/-- TX hands the packet over by one event (45_egress.md R201). -/
theorem trace_txSend (s : State) : (txSend s).trace = s.trace ++
    [.netsend s.data (addrBytes s.txDaddr) s.cfg.protoId] := rfl

/-! ### The bytes of `MEM` -/

/-- A byte that a command changed lies where its new content differs from the old one. -/
theorem of_readByte_ne {c : Prop} [Decidable c] {b b' b₀ : Byte} (h : b' = if c then b else b₀) (hne : b' ≠ b₀) : c :=
  by_contra fun hc => hne (h.trans (if_neg hc))

end Sys2Proof.Machine
end

section
/-! PROOFS. The statements about every command (60_exceptions.md R220, R232; 20_memory.md R65;
70_reset_and_hazards.md R266, R271). -/

namespace Sys2Proof.Proofs

open Sys2Proof Sys2Proof.Machine

/-- Settles O38: past the tests for length and room comes the buffer test. -/
theorem brokenBufferStops : Obligations.BrokenBufferStops := by
  intro s hout
  refine ⟨fun hlen => ⟨?hdrrd, ?hdrwr⟩, fun hlen ⟨hdp, hpad⟩ => ⟨?csum, ?rx⟩, fun hdp hpad => ?tx⟩
  case hdrrd => exact (if_neg (Nat.not_lt.mpr hlen)).trans (withBuffer_of_not_bufferOk hout _)
  case hdrwr => exact (if_neg (Nat.not_lt.mpr hlen)).trans (withBuffer_of_not_bufferOk hout _)
  case csum =>
    change execCsum s = _
    rw [execCsum, if_neg (Nat.not_lt.mpr hlen), if_neg (Nat.not_lt.mpr hdp), if_neg hpad,
      withBuffer_of_not_bufferOk hout]
  case rx =>
    change execRx s = _
    rw [execRx, if_neg (Nat.not_lt.mpr hlen), if_neg (Nat.not_lt.mpr hdp), if_neg hpad, withBuffer_of_not_bufferOk hout]
  case tx =>
    change execTx s = _
    rw [execTx, if_neg (Nat.not_lt.mpr hdp), if_neg hpad, withBuffer_of_not_bufferOk hout]

/-- Settles O49: the one end of a command that is no next state needs a packet outside `MEM`. -/
theorem everyCommandCompletes : Obligations.EveryCommandCompletes := fun i s hbuf => (exec_ends i s).completes hbuf

/-- Settles O50, by the ends of each command. -/
theorem outcomesOfCommands : Obligations.OutcomesOfCommands := by
  refine ⟨by decide, fun i s t ht => ⟨(exec_ends i s).fault_iff ht, ?_⟩⟩
  cases i with
  | nop => cases ht; rfl
  | closePort port => cases ht; rfl
  | lookup port => cases ht; rfl
  | openPort port hid =>
    rcases guard_next (ht : execOpen port hid s = _) with ⟨-, rfl⟩ | ⟨-, hroom⟩
    · simp
    · cases hroom
      simp
  | rx => cases exec_end ht <;> simp [rxUnreachable, rxDeliver]
  | tx => cases exec_end ht <;> simp [txSend]
  | _ => cases exec_end ht <;> simp

/-- Settles O51, by the ends of each command: three of them emit, each its own event. -/
theorem atMostOneEvent : Obligations.AtMostOneEvent := by
  intro i s t ht
  cases exec_end ht with
  | rxMiss =>
    have htrace := trace_rxUnreachable (rxAccepted s)
    rw [trace_rxAccepted] at htrace
    exact .inr (.inr (.inl ⟨rfl, rfl, _, _, _, htrace⟩))
  | @rxHit _ _ _ _ hid _ =>
    have htrace := trace_rxDeliver (rxAccepted s) hid
    rw [trace_rxAccepted] at htrace
    exact .inr (.inl ⟨rfl, rfl, _, _, _, _, _, htrace⟩)
  | tx =>
    have htrace := trace_txSend (txChecksum (txPopulate s))
    rw [trace_txChecksum, trace_txPopulate] at htrace
    exact .inr (.inr (.inr ⟨rfl, rfl, _, _, _, htrace⟩))
  | csum => exact .inl ⟨(finish_trace _ _).trans (trace_csumInplace s _ _), by simp⟩
  | hdrwr => exact .inl ⟨(finish_trace _ _).trans (trace_hdrWrite s), by simp⟩
  | rxCorrupt => exact .inl ⟨(finish_trace _ _).trans (trace_rxRecompute s), by simp⟩
  | _ => exact .inl ⟨rfl, by simp⟩

/-- Settles O53, by the ends of each command: the bytes after it are known one by one. -/
theorem commandFootprint : Obligations.CommandFootprint := by
  intro i s t a hvalid hpadded ht hne
  cases exec_end ht with
  | csum hlen hroom hbuf =>
    have hsrc := length_addrBytes s.csSrc
    have hdst := length_addrBytes s.csDst
    rw [csumInplace_eq s _ _ hvalid.1 hroom.1 hpadded hsrc hdst] at hne
    exact of_readByte_ne (readByte_csumMemAfter s _ _ (hvalid.1.trans hroom.1) hsrc hdst a) hne
  | rxCorrupt hlen hroom hbuf =>
    have hbyte := of_readByte_ne ((RxRuns.mk hvalid hbuf hpadded hlen hroom).readByte_rxRecompute a) hne
    rcases hbyte with h6 | h7 | hpad
    · exact .inl ⟨rfl, .inl h6⟩
    · exact .inl ⟨rfl, .inr h7⟩
    · exact .inr hpad
  | rxMiss hlen hroom hbuf =>
    exact .inr (of_readByte_ne ((RxRuns.mk hvalid hbuf hpadded hlen hroom).readByte_rxRestored a) hne)
  | rxHit hlen hroom hbuf =>
    exact .inr (of_readByte_ne ((RxRuns.mk hvalid hbuf hpadded hlen hroom).readByte_rxRestored a) hne)
  | tx hdp hpad hbuf =>
    have hbytes := (TxRuns.mk hvalid hbuf hpadded hdp hpad).readByte_txSent a
    by_cases hheader : s.dp - 8 ≤ a ∧ a < s.dp
    · exact .inl hheader
    · rw [if_neg hheader] at hbytes
      exact .inr (of_readByte_ne hbytes hne)
  | padd => exact of_readByte_ne (readByte_padAdd s _ a) hne
  | hdrwr => exact of_readByte_ne (readByte_hdrWrite s a) hne
  | _ => exact absurd rfl hne

end Sys2Proof.Proofs
end

section
/-! LAWS. `ACC` and `SAVE` are written before they are read (10_state.md R37, R38; 42_checksum.md R156): from
states that differ only in them every command, every host action and every step answers the same but for them. And no step
refuses (70_reset_and_hazards.md R271). -/

namespace Sys2Proof.Machine

/-- `s` with other contents of `ACC` and `SAVE`. -/
def withScratch (s : State) (acc : Half) (save : List Byte) : State := setSave (setAcc s acc) save

/-- Results that differ at most in `ACC` and `SAVE` of the next state; a stop is the same stop. -/
inductive ScratchAlike : Result → Result → Prop
  | next (t : State) (acc : Half) (save : List Byte) : ScratchAlike (.next t) (.next (withScratch t acc save))
  | same (r : Result) : ScratchAlike r r

theorem ScratchAlike.ite {c : Prop} [Decidable c] {a b a' b' : Result} (ha : ScratchAlike a a')
    (hb : ScratchAlike b b') :
    ScratchAlike (if c then a else b) (if c then a' else b') := by
  split
  · exact ha
  · exact hb

theorem ScratchAlike.of_next {r r' : Result} (h : ScratchAlike r r') {t : State} (ht : r = .next t) :
    ∃ acc save, r' = .next (withScratch t acc save) := by
  cases h with
  | next u acc save =>
    cases ht
    exact ⟨acc, save, rfl⟩
  | same => exact ⟨t.acc, t.save, ht⟩

theorem ScratchAlike.of_fault {r r' : Result} (h : ScratchAlike r r') {f : Fault} (hf : r = .fault f) :
    r' = .fault f := by
  cases h with
  | next => cases hf
  | same => exact hf

section Commands

variable (s : State) (acc : Half) (save : List Byte)

theorem csumPad_setAcc : csumPad (setAcc s acc) = setAcc (csumPad s) acc := by
  rw [csumPad, csumPad, setAcc_len]
  split <;> rfl

/-- The in-place checksum saves the 12 bytes in `SAVE` and the sum in `ACC` before it uses either. -/
theorem csumInplace_withScratch (src dst : List Byte) :
    csumInplace (withScratch s acc save) src dst = csumInplace s src dst := by
  have hoverlay : csumOverlay (withScratch s acc save) src dst = setAcc (csumOverlay s src dst) acc := rfl
  have haccumulate : ∀ u, csumAccumulate (setAcc u acc) = csumAccumulate u := fun _ => rfl
  rw [csumInplace, csumInplace, hoverlay, csumPad_setAcc, haccumulate]

theorem rxRecompute_withScratch : rxRecompute (withScratch s acc save) = rxRecompute s := by
  have hrecord : ∀ sport dport len csum, setRecord (withScratch s acc save) sport dport len csum =
      withScratch (setRecord s sport dport len csum) acc save := fun _ _ _ _ => rfl
  have hzero : ∀ u, wr16 (withScratch u acc save) 6 0x0000#16 = withScratch (wr16 u 6 0x0000#16) acc save :=
    fun _ => rfl
  simp only [rxRecompute, hrecord, hzero, csumInplace_withScratch]
  rfl

theorem txChecksum_withScratch : txChecksum (withScratch s acc save) = txChecksum s := by
  rw [txChecksum, csumInplace_withScratch, txChecksum]
  rfl

theorem hdrWrite_withScratch : hdrWrite (withScratch s acc save) = withScratch (hdrWrite s) acc save := by
  rw [hdrWrite_eq, hdrWrite_eq]
  rfl

theorem txPopulate_withScratch : txPopulate (withScratch s acc save) = withScratch (txPopulate s) acc save := by
  rw [txPopulate_eq, txPopulate_eq]
  rfl

theorem ScratchAlike.withBuffer {k : State → Result} (h : ScratchAlike (k s) (k (withScratch s acc save))) :
    ScratchAlike (withBuffer s k) (withBuffer (withScratch s acc save) k) :=
  .ite h (.same _)

theorem exec_scratchAlike (i : Instr) : ScratchAlike (exec i s) (exec i (withScratch s acc save)) := by
  have done : ∀ t : State, ScratchAlike (.next t) (.next (withScratch t acc save)) := fun t => .next t acc save
  cases i with
  | nop => exact done _
  | csum =>
    refine .ite (done _) (.ite (done _) (.ite (done _) (.withBuffer s acc save ?_)))
    rw [csumInplace_withScratch]
    exact .same _
  | openPort port hid => exact .ite (done _) (done _)
  | closePort port => exact done _
  | lookup port => exact done _
  | rx =>
    refine .ite (done _) (.ite (done _) (.ite (done _) (.withBuffer s acc save ?_)))
    rw [rxRecompute_withScratch]
    exact .same _
  | tx =>
    refine .ite (done _) (.ite (done _) (.withBuffer s acc save ?_))
    rw [txPopulate_withScratch, txChecksum_withScratch]
    exact .same _
  | bufinit n => exact .ite (done _) (done _)
  | push n => exact .ite (done _) (done _)
  | pop n => exact .ite (done _) (done _)
  | padd n => exact .ite (done _) (done _)
  | padr n => exact .ite (done _) (done _)
  | hdrrd => exact .ite (done _) (.withBuffer s acc save (done _))
  | hdrwr =>
    refine .ite (done _) (.withBuffer s acc save ?_)
    rw [hdrWrite_withScratch]
    exact done _

theorem runCommand_scratchAlike (w : Word) :
    ScratchAlike (runCommand w s) (runCommand w (withScratch s acc save)) := by
  cases hd : decode w with
  | command i =>
    rw [runCommand_command hd, runCommand_command hd]
    exact exec_scratchAlike s acc save i
  | illegal why =>
    rw [runCommand_illegal hd, runCommand_illegal hd]
    exact .next _ acc save

/-! ### The host's actions -/

theorem readReg_withScratch (r : Reg) : readReg (withScratch s acc save) r = readReg s r := rfl

theorem writeReg_withScratch (r : Reg) (v : Word) :
    writeReg (withScratch s acc save) r v = withScratch (writeReg s r v) acc save := by
  cases r <;> rfl

theorem writeRegByte_withScratch (r : Reg) (off : Nat) (b : Byte) :
    writeRegByte (withScratch s acc save) r off b = withScratch (writeRegByte s r off b) acc save := by
  rw [writeRegByte, writeRegByte, writeReg_withScratch, readReg_withScratch]
  split <;> rfl

theorem hostWriteWord_scratchAlike (off : Nat) (v : Word) :
    ScratchAlike (hostWriteWord s off v) (hostWriteWord (withScratch s acc save) off v) := by
  have htarget : targetAt (withScratch s acc save).cfg off = targetAt s.cfg off := rfl
  rw [hostWriteWord, hostWriteWord, htarget]
  split
  · rw [writeReg_withScratch]
    exact .next _ acc save
  all_goals exact .next _ acc save

theorem hostReadWord_scratchAlike (off : Nat) :
    ScratchAlike (hostReadWord s off) (hostReadWord (withScratch s acc save) off) := by
  have htarget : targetAt (withScratch s acc save).cfg off = targetAt s.cfg off := rfl
  rw [hostReadWord, hostReadWord, htarget]
  split <;> exact .next _ acc save

theorem hostWriteByte_scratchAlike (off : Nat) (b : Byte) :
    ScratchAlike (hostWriteByte s off b) (hostWriteByte (withScratch s acc save) off b) := by
  have htarget : targetAt (withScratch s acc save).cfg off = targetAt s.cfg off := rfl
  rw [hostWriteByte, hostWriteByte, htarget]
  split
  case h_2 =>
    rw [writeRegByte_withScratch]
    exact .next _ acc save
  all_goals exact .next _ acc save

theorem hostReadByte_scratchAlike (off : Nat) :
    ScratchAlike (hostReadByte s off) (hostReadByte (withScratch s acc save) off) := by
  have htarget : targetAt (withScratch s acc save).cfg off = targetAt s.cfg off := rfl
  rw [hostReadByte, hostReadByte, htarget]
  split <;> exact .next _ acc save

theorem hostAct_scratchAlike (a : HostAction) :
    ScratchAlike (hostAct s a) (hostAct (withScratch s acc save) a) := by
  have hindex : ∀ k, dpIndex (withScratch s acc save) k = dpIndex s k := fun _ => rfl
  cases a with
  | writeWord off v => exact hostWriteWord_scratchAlike s acc save off v
  | readWord off => exact hostReadWord_scratchAlike s acc save off
  | writeByte off b => exact hostWriteByte_scratchAlike s acc save off b
  | readByte off => exact hostReadByte_scratchAlike s acc save off
  | writeByteDp k b =>
    simp only [hostAct, hostWriteDp, hindex]
    split
    · exact hostWriteByte_scratchAlike s acc save _ b
    · exact .next _ acc save
  | readByteDp k =>
    simp only [hostAct, hostReadDp, hindex]
    split
    · exact hostReadByte_scratchAlike s acc save _
    · exact .next _ acc save
  | reset acc' save' => exact .same _
  | resetBusy mem acc' save' => exact .same _
  | pollStatus => exact .next _ acc save

/-- By the kind of the step, which `ACC` and `SAVE` do not decide. -/
theorem step_scratchAlike : ScratchAlike (step s) (step (withScratch s acc save)) := by
  rcases step_cases s with ⟨w, hcmd, hlands, heq⟩ | ⟨w, mem, acc', save', rest, hcmd, hhost, heq⟩ |
    ⟨w, rest, hcmd, hhost, heq⟩ | ⟨hcmd, hhost, heq⟩ | ⟨a, rest, hcmd, hhost, heq⟩
  · rw [heq, step_pending (s := withScratch s acc save) hcmd hlands]
    exact runCommand_scratchAlike s acc save w
  · rw [heq, step_abandon (s := withScratch s acc save) hcmd hhost]
    exact .same _
  · rw [heq, step_poll (s := withScratch s acc save) hcmd hhost]
    exact .next _ acc save
  · rw [heq, step_idle (s := withScratch s acc save) hcmd hhost]
    exact .next _ acc save
  · rw [heq, step_host (s := withScratch s acc save) hcmd hhost]
    exact hostAct_scratchAlike (takeAction s rest) acc save a

end Commands

/-- No step refuses: a command ends in one of its ends, and a host action answers a next state. -/
theorem step_ne_refused (s : State) (why : Refusal) : step s ≠ .refused why := by
  intro hrefused
  rcases step_cases s with ⟨w, -, -, heq⟩ | ⟨w, mem, acc, save, rest, -, -, heq⟩ | ⟨w, rest, -, -, heq⟩ | ⟨-, -, heq⟩ |
    ⟨a, rest, -, -, heq⟩
  case inl => exact (runCommand_ends w s).ne_refused why (heq.symm.trans hrefused)
  case inr.inr.inr.inr =>
    obtain ⟨t, ht⟩ := hostAct_next (takeAction s rest) a
    cases (heq.trans ht).symm.trans hrefused
  all_goals cases heq.symm.trans hrefused

end Sys2Proof.Machine
end

section
/-! PROOFS. The statements about every step (10_state.md R37, R38, R45; 70_reset_and_hazards.md R250, R253, R266,
R271). -/

namespace Sys2Proof.Proofs

open Sys2Proof Sys2Proof.Machine

/-- Settles O54: the two steps are alike, as `step_scratchAlike` has them. -/
theorem accAndSaveAreUnobservable : Obligations.AccAndSaveAreUnobservable := fun s acc save =>
  ⟨fun _ => (step_scratchAlike s acc save).of_next, fun _ => (step_scratchAlike s acc save).of_fault⟩

/-- Settles O57, by the kind of the step: with the packet inside `MEM`, as the invariant has it, a command completes; a
reset or a read of `STATUS` lands; or no command is pending. -/
theorem stepNeverStuck : Obligations.StepNeverStuck := by
  refine ⟨step_ne_refused, fun s hinv => ?_⟩
  obtain ⟨-, hbuf, -⟩ := hinv
  rcases step_cases s with ⟨w, -, hlands, heq⟩ | ⟨w, mem, acc, save, rest, -, hhost, heq⟩ | ⟨w, rest, -, hhost, heq⟩ |
    ⟨hidle, -, heq⟩ | ⟨a, rest, hidle, -, heq⟩
  · obtain ⟨t, ht, hcmd⟩ := (runCommand_ends w s).completes hbuf
    exact ⟨⟨t, heq.trans ht⟩, fun _ => ⟨t, heq.trans ht, .inl ⟨hlands, hcmd, runCommand_outcome_ne_oNone ht⟩⟩⟩
  · exact ⟨⟨_, heq⟩, fun _ => ⟨_, heq, .inr (.inl ⟨mem, acc, save, hhost, rfl, rfl, rfl⟩)⟩⟩
  · exact ⟨⟨_, heq⟩, fun _ => ⟨_, heq, .inr (.inr ⟨hhost, rfl, rfl⟩)⟩⟩
  · exact ⟨⟨_, heq⟩, fun hpending => absurd hidle hpending⟩
  · obtain ⟨t, ht⟩ := hostAct_next (takeAction s rest) a
    exact ⟨⟨t, heq.trans ht⟩, fun hpending => absurd hidle hpending⟩

end Sys2Proof.Proofs
end
